-- ==== Sys2Proof/Word.lean ====
section
/-! DEFINITION. The widths the spec gives (00_scope.md R6): bytes of the streams, words of the host
bus, node handles, symbols and the bits of one code. -/

namespace Sys2Proof

/-- A byte of the SRC, SNK or OUT stream (R63). -/
abbrev Byte := BitVec 8

/-- A host bus data word, a command word, a node word or a weight: 32 bits (R61, `DATA_W`, `CW_W`, `WEIGHT_W`). -/
abbrev Word := BitVec 32

/-- A host bus word address: 16 bits (R61, `ADDR_W`). -/
abbrev BusAddr := BitVec 16

/-- A node handle: 10 bits (R6, `H_W`). -/
abbrev Handle := BitVec 10

/-- A symbol field: 9 bits (R6, `SYM_W`). -/
abbrev Symbol := BitVec 9

/-- The 256 bits of one code (R33); bit `i` is the `i`-th branch from the root. -/
abbrev CodeBits := BitVec 256

end Sys2Proof
end

