-- ==== Sys2Proof/Config.lean ====
section
/-! DEFINITION. The implementation parameters of 00_scope.md R6, at the values the spec fixes
(decisions D2 to D7; log 13 DESIGN CHOICE). No value of the block is left open by the spec (R10), so there is
no free value here. -/

namespace Sys2Proof.Config

/-- `BYTE_MAX`: the largest literal byte symbol. -/
@[simp] abbrev byteMax : Nat := 255

/-- `PEOF`: the pseudo-end-of-stream symbol. -/
@[simp] abbrev peof : Symbol := 256#9

/-- `NAS`: the not-a-symbol marker of internal nodes. -/
@[simp] abbrev nas : Symbol := 257#9

/-- `N_SYM`: how many symbols can have a code (0..256). -/
@[simp] abbrev nSym : Nat := 257

/-- The largest symbol that can have a code, `N_SYM - 1`. -/
@[simp] abbrev symMax : Nat := 256

/-- `N_NODES`: entries of the node memory. -/
@[simp] abbrev nNodes : Nat := 513

/-- `H_MAX`: the largest valid handle. -/
@[simp] abbrev hMax : Nat := 512

/-- `NULL`: the null handle. -/
@[simp] abbrev null : Handle := 0x3FF#10

/-- `MAXLEN`: the largest code length in bits. -/
@[simp] abbrev maxLen : Nat := 256

end Sys2Proof.Config
end

