-- ==== Sys2Proof/Syntax.lean ====
section
/-! DEFINITION. The eleven commands of the block (30_encoding.md R92), one constructor per row of
spec/opcode_table.json, with the operands of R93. -/

namespace Sys2Proof

/-- A command. The operand of `setroot` has the width of its field; WellFormed says which of its
values are legal encodings (R93). -/
inductive Instr where
  /-- `NOP` (R171) -/
  | nop
  /-- `RELEASE` (R170) -/
  | release
  /-- `WBIT b` (R111) -/
  | wbit (b : Bool)
  /-- `WFLUSH` (R114) -/
  | wflush
  /-- `RBIT` (R113) -/
  | rbit
  /-- `ENC sym` (R132): all 512 values are legal encodings -/
  | enc (sym : Symbol)
  /-- `CTDRV` (R133) -/
  | ctdrv
  /-- `SETROOT h` (R150) -/
  | setroot (h : Handle)
  /-- `DSTART` (R152) -/
  | dstart
  /-- `DSTEP` (R153) -/
  | dstep
  /-- `DRUN` (R155) -/
  | drun
deriving DecidableEq, Repr

end Sys2Proof
end

