-- ==== Sys2Proof/WellFormed.lean ====
section
/-! DEFINITION. Which commands are legal encodings: the one operand the spec restricts is the handle
of SETROOT (30_encoding.md R93: 513..1023 are not legal encodings). -/

namespace Sys2Proof

/-- The operand is in the range of its row (R90 step 3, R93). -/
def Instr.wf : Instr → Bool
  | .nop => true
  | .release => true
  | .wbit _ => true
  | .wflush => true
  | .rbit => true
  | .enc _ => true
  | .ctdrv => true
  | .setroot h => decide (h.toNat ≤ Config.hMax)
  | .dstart => true
  | .dstep => true
  | .drun => true

end Sys2Proof
end

