-- ==== Sys2Proof/Decode.lean ====
section
/-! DEFINITION. Decoding a 32-bit command word (30_encoding.md R90 to R94) and, after it, the
encoder written from the same table. Decoding is total: a word that selects no row is refused by
the name of the check it fails; on the bus every such refusal raises ILLEGAL_CMD (R94). -/

namespace Sys2Proof

/-- Why a command word is reserved (R94). -/
inductive DecodeError where
  /-- a non-zero bit in [31:16] (R90 step 1) -/
  | upperHalf
  /-- an opcode 0xB..0xF (R90 step 2) -/
  | opcode
  /-- a non-zero reserved ARG bit (R90 step 3) -/
  | reservedArg
  /-- SETROOT of a handle above 512 (R90 step 3) -/
  | operandRange
deriving DecidableEq, Repr

/-- `Z = CW[31:16]` (R91). -/
def fieldZ (cw : Word) : BitVec 16 := cw.extractLsb' 16 16

/-- `OP = CW[15:12]` (R91). -/
def fieldOp (cw : Word) : BitVec 4 := cw.extractLsb' 12 4

/-- `ARG = CW[11:0]` (R91). -/
def fieldArg (cw : Word) : BitVec 12 := cw.extractLsb' 0 12

/-- A row whose twelve ARG bits are all reserved. -/
def decodePlain (arg : BitVec 12) (i : Instr) : Except DecodeError Instr :=
  if arg = 0 then .ok i else .error .reservedArg

/-- `WBIT`: `b = ARG[0]`, ARG[11:1] reserved. -/
def decodeWbit (arg : BitVec 12) : Except DecodeError Instr :=
  if arg.extractLsb' 1 11 = 0 then .ok (.wbit (arg.getLsbD 0)) else .error .reservedArg

/-- `ENC`: `sym = ARG[8:0]`, ARG[11:9] reserved. -/
def decodeEnc (arg : BitVec 12) : Except DecodeError Instr :=
  if arg.extractLsb' 9 3 = 0 then .ok (.enc (arg.extractLsb' 0 9)) else .error .reservedArg

/-- `SETROOT`: `h = ARG[9:0]`, at most 512, ARG[11:10] reserved. -/
def decodeSetroot (arg : BitVec 12) : Except DecodeError Instr :=
  if arg.extractLsb' 10 2 = 0 then
    if (arg.extractLsb' 0 10).toNat ≤ Config.hMax then .ok (.setroot (arg.extractLsb' 0 10))
    else .error .operandRange
  else .error .reservedArg

/-- The opcode map of R92, applied to the opcode and the argument. -/
def decodeRow (op : Nat) (arg : BitVec 12) : Except DecodeError Instr :=
  match op with
  | 0x0 => decodePlain arg .nop
  | 0x1 => decodePlain arg .release
  | 0x2 => decodeWbit arg
  | 0x3 => decodePlain arg .wflush
  | 0x4 => decodePlain arg .rbit
  | 0x5 => decodeEnc arg
  | 0x6 => decodePlain arg .ctdrv
  | 0x7 => decodeSetroot arg
  | 0x8 => decodePlain arg .dstart
  | 0x9 => decodePlain arg .dstep
  | 0xA => decodePlain arg .drun
  | _ => .error .opcode

/-- Steps 1 to 3 of `Execute(CW)` (R90). -/
def decode (cw : Word) : Except DecodeError Instr :=
  if fieldZ cw = 0 then decodeRow (fieldOp cw).toNat (fieldArg cw) else .error .upperHalf

/-- The command word of a command (R92); for `setroot` it is a legal encoding when the command is
well formed. -/
def encode : Instr → Word
  | .nop => 0x0000#32
  | .release => 0x1000#32
  | .wbit b => 0x2000#32 ||| (BitVec.ofBool b).setWidth 32
  | .wflush => 0x3000#32
  | .rbit => 0x4000#32
  | .enc sym => 0x5000#32 ||| sym.setWidth 32
  | .ctdrv => 0x6000#32
  | .setroot h => 0x7000#32 ||| h.setWidth 32
  | .dstart => 0x8000#32
  | .dstep => 0x9000#32
  | .drun => 0xA000#32

/-- The command word a table row's bits stand for: `nbits` bits of `w`, every bit above them 0
(a command is one 32-bit word, R95; log 15 DEDUCED). -/
def tableWord (nbits w : Nat) : Option Word :=
  if w % 2 ^ nbits < 2 ^ 32 then some (BitVec.ofNat 32 (w % 2 ^ nbits)) else none

/-- The command the decoder reads from a word numbered as spec/opcode_table.json numbers it. -/
def decodeTableWord (nbits w : Nat) : Option Instr :=
  match tableWord nbits w with
  | none => none
  | some cw =>
    match decode cw with
    | .ok i => some i
    | .error _ => none

end Sys2Proof
end

