-- ==== Sys2Proof/Machine/State.lean ====
section
/-! DEFINITION. The state of the block and of its ports as plain data (10_state.md), the reasons a
step can stop, and the state after reset (10_state.md R40, 70_reset_and_hazards.md R210). -/

namespace Sys2Proof.Machine

/-- The decoder's state (R25). The value 3 never occurs and is typed out (V11, log 7 DEDUCED). -/
inductive DState where
  /-- 0: no decode started in this call -/
  | idle
  /-- 1: decode started, pseudo-EOF not yet reached -/
  | run
  /-- 2: the decoder stopped cleanly -/
  | done
deriving DecidableEq, Repr

/-- The fault causes (60_exceptions.md R180). Codes 7..15 are never produced (V11, log 7 DEDUCED). -/
inductive Cause where
  /-- 0: no fault latched -/
  | none
  /-- 1: the bit source ended before the pseudo-EOF leaf -/
  | malformedStream
  /-- 2: ENC of a symbol with no entry -/
  | internalConsistency
  /-- 3: no tree was given to the block -/
  | emptyTree
  /-- 4: the node image is not a tree the engine can walk -/
  | badTree
  /-- 5: a reserved command word, or a command not admitted -/
  | illegalCmd
  /-- 6: a host write that is not allowed -/
  | illegalAccess
deriving DecidableEq, Repr

/-- An entry of the code table (R33). `LEN` holds 0..256; 257..511 cannot be stored (log 7 DEDUCED). -/
structure CtEntry where
  valid : Bool
  len : Fin 257
  code : CodeBits
deriving DecidableEq, Repr

/-- The entry reset and RELEASE leave (R40). -/
def CtEntry.empty : CtEntry := { valid := false, len := 0, code := 0 }

/-- A table memory: (index, value) pairs. Its canonical form is `Memory.wf` (log 8 DESIGN CHOICE). -/
abbrev Memory (α : Type) := List (Nat × α)

/-- The canonical form of a table of `n` entries whose unlisted entries read as `d`: indexes
strictly rising, below `n`, and no entry equal to what an unlisted index reads as. -/
abbrev Memory.wf {α : Type} (n : Nat) (d : α) (m : Memory α) : Prop :=
  m.Pairwise (fun a b => a.1 < b.1) ∧ ∀ c ∈ m, c.1 < n ∧ c.2 ≠ d

/-- What the host or the environment does next. The first two are the operations of the bus (R61);
`reset` is the reset of R210 (log 5 DEDUCED); `openSrc` is the environment making SRC a given byte sequence
at its first byte (R211 step 4, R221; log 4 DESIGN CHOICE). -/
inductive HostOp where
  | read (addr : BusAddr)
  | write (addr : BusAddr) (data : Word)
  | reset
  | openSrc (bytes : List Byte)
deriving DecidableEq, Repr

/-- Everything the spec gives the machine: working registers (R20 to R27), table memories (R30 to
R34), port state (R37), and the model's own record of the host (log 1 DESIGN CHOICE, log 2 DESIGN CHOICE). -/
structure State where
  /-- `BW_ACC` (R21) -/
  bwAcc : BitVec 8
  /-- `BW_CNT` (R21) -/
  bwCnt : BitVec 3
  /-- `BR_BUF` (R22) -/
  brBuf : BitVec 8
  /-- `BR_POS` (R22), 0..8; 9..15 never occur and are typed out (V11, log 7 DEDUCED) -/
  brPos : Fin 9
  /-- `CUR` (R23) -/
  cur : Handle
  /-- `ROOT.H` (R24) -/
  rootH : Handle
  /-- `ROOT.V` (R24) -/
  rootV : Bool
  /-- `DSTATE` (R25) -/
  dstate : DState
  /-- `FAULT` (R26) -/
  fault : Bool
  /-- `CAUSE` (R26) -/
  cause : Cause
  /-- `RESULT.BIT` (R27) -/
  resultBit : Bool
  /-- `RESULT.END` (R27) -/
  resultEnd : Bool
  /-- `NODE` (R30) -/
  node : Memory Word
  /-- `NODE_V` (R31) -/
  nodeV : Memory Bool
  /-- `NODEW` (R32) -/
  nodeW : Memory Word
  /-- `CT` (R33) -/
  ct : Memory CtEntry
  /-- `SRC` (R37) -/
  src : List Byte
  /-- `SRC_POS` (R37) -/
  srcPos : Nat
  /-- `SNK` (R37) -/
  snk : List Byte
  /-- `OUT` (R37) -/
  out : List Byte
  /-- the model's own: the operations the host has still to issue, next one first (log 1 DESIGN CHOICE) -/
  hostOps : List HostOp
  /-- the model's own: the words HostRead has returned, oldest first (log 2 DESIGN CHOICE) -/
  hostReads : List Word
deriving DecidableEq, Repr

/-- Why the machine stops: it never does, so there is no constructor. Every host operation has a next
state in every state (R10, R185); the faults of the spec are latched in one (R186). -/
inductive Fault where
deriving DecidableEq, Repr

/-- Why a step is refused. -/
inductive Refusal where
  /-- Raised by an arm of `exec` whose instruction has no meaning yet. No arm is one: every command
  of the table has its meaning. Safe: a refused step proves nothing. -/
  | notModelled (mnemonic : String)
deriving DecidableEq, Repr

/-- What one operation answers. -/
abbrev Out := Host.Outcome State Fault Refusal

/-- The machine right after reset: block state by R40; the ports by the launch premises of R40 and
R212, with SRC empty (log 3 DESIGN CHOICE, unsafe); no host operation waiting (log 1 DESIGN CHOICE). -/
def State.reset : State where
  bwAcc := 0x00#8
  bwCnt := 0#3
  brBuf := 0x00#8
  brPos := 8
  cur := Config.null
  rootH := 0#10
  rootV := false
  dstate := .idle
  fault := false
  cause := .none
  resultBit := false
  resultEnd := false
  node := []
  nodeV := []
  nodeW := []
  ct := []
  src := []
  srcPos := 0
  snk := []
  out := []
  hostOps := []
  hostReads := []

end Sys2Proof.Machine
end

