-- ==== Sys2Proof/Machine/Operands.lean ====
section
/-! DEFINITION. The data words of the block (30_encoding.md R100): the fields of a node word
(10_state.md R30), the words of a code table entry (R34), and the code an entry holds (R33, R130). -/

namespace Sys2Proof.Machine

/-! ### Node words (R30) -/

/-- `SYM`, bits [8:0]. -/
def nodeSym (n : Word) : Symbol := n.extractLsb' 0 9

/-- `ZC`, bits [21:12]. -/
def nodeZc (n : Word) : Handle := n.extractLsb' 12 10

/-- `OC`, bits [31:22]. -/
def nodeOc (n : Word) : Handle := n.extractLsb' 22 10

/-- The child a stream bit selects: 0 the `zeroChild`, 1 the `oneChild` (R153). -/
def nodeChild (n : Word) (b : Bool) : Handle := if b then nodeOc n else nodeZc n

/-- The node word `OC << 22 | ZC << 12 | SYM` (R30). -/
def nodePack (sym : Symbol) (zc oc : Handle) : Word :=
  (oc.setWidth 32 <<< 22) ||| (zc.setWidth 32 <<< 12) ||| sym.setWidth 32

/-- What a host write stores: the word with bits [11:9] forced to 0 (R71). -/
def nodeStored (data : Word) : Word := data &&& 0xFFFFF1FF#32

/-- What a host read returns: the word with bit 11 replaced by `NODE_V` (R70). -/
def nodeOnBus (n : Word) (v : Bool) : Word :=
  (n &&& 0xFFFFF7FF#32) ||| (if v then 0x00000800#32 else 0#32)

/-! ### Code table entries (R33, R34) -/

/-- Word 0 of an entry on the bus: `VALID << 31 | LEN` (R70). -/
def ctHeadWord (e : CtEntry) : Word :=
  (if e.valid then 0x80000000#32 else 0#32) ||| BitVec.ofNat 32 e.len.val

/-- `LEN` as a host write of word 0 gives it, `data[8:0]` (R71). -/
def ctHeadLen (data : Word) : Nat := (data.extractLsb' 0 9).toNat

/-- A host write of word 0: `LEN` and `VALID` change, `CODE` stays, bits [30:9] are ignored (R71). -/
def ctSetHead (e : CtEntry) (data : Word) : CtEntry :=
  { e with len := Fin.ofNat 257 (ctHeadLen data), valid := data.getLsbD 31 }

/-- Word `k` (1..8) of an entry on the bus: `CODE[32*(k-1)+31 : 32*(k-1)]` (R70). -/
def ctCodeWord (e : CtEntry) (k : Nat) : Word := e.code.extractLsb' (32 * (k - 1)) 32

/-- A host write of word `k` (1..8): those 32 code bits change, the rest of the entry stays (R71). -/
def ctSetCodeWord (e : CtEntry) (k : Nat) (data : Word) : CtEntry :=
  { e with
    code := (e.code &&& ~~~((0xFFFFFFFF#256) <<< (32 * (k - 1)))) |||
      (data.setWidth 256 <<< (32 * (k - 1))) }

/-- The code of an entry in stream order, `CODE[0]` first (R130, R132). -/
def ctCode (e : CtEntry) : List Bool := (List.range e.len.val).map e.code.getLsbD

/-- The code bits of a path: `CODE[i] = path_i` below the length, 0 above (R134). -/
def codeOfPath (path : List Bool) : CodeBits := (BitVec.ofBoolListLE path).setWidth 256

/-- The entry the deriver records for a leaf reached by `path` (R134). -/
def entryOfPath (path : List Bool) : CtEntry :=
  { valid := true, len := Fin.ofNat 257 path.length, code := codeOfPath path }

end Sys2Proof.Machine
end

