-- ==== Sys2Proof/Machine/Ops.lean ====
section
/-! DEFINITION. The named operations over the memories, the ports and the working registers that
every command is written with: table reads and writes, the port primitives (20_memory.md R64, R65),
`PutBit` and `ReadBit` (40_serializer.md R110, R112), `raise` (60_exceptions.md R186) and the
return from a fault, which is the clearing of the whole block (43_system.md R170). -/

namespace Sys2Proof.Machine

/-! ### Table memories -/

/-- The value at index `k`; an unlisted index reads as `d`. -/
def Memory.read {α : Type} (d : α) : Memory α → Nat → α
  | [], _ => d
  | (j, v) :: m, k => if j = k then v else Memory.read d m k

/-- Insert a pair before the first larger index. -/
def Memory.insert {α : Type} (k : Nat) (v : α) : Memory α → Memory α
  | [] => [(k, v)]
  | (j, w) :: m => if k < j then (k, v) :: (j, w) :: m else (j, w) :: Memory.insert k v m

/-- Write `v` at index `k`, keeping the canonical form: writing what an unlisted index reads as
removes the entry. -/
def Memory.write {α : Type} [DecidableEq α] (d : α) (m : Memory α) (k : Nat) (v : α) : Memory α :=
  if v = d then m.filter (fun c => c.1 != k)
  else Memory.insert k v (m.filter (fun c => c.1 != k))

/-- `NODE[h]` (R30). -/
def nodeWord (s : State) (h : Handle) : Word := s.node.read 0#32 h.toNat

/-- `NODE_V[h]` (R31). -/
def nodeValid (s : State) (h : Handle) : Bool := s.nodeV.read false h.toNat

/-- `CT[s]` (R33). -/
def ctEntry (s : State) (k : Nat) : CtEntry := s.ct.read CtEntry.empty k

/-- The range check made before `NODE` is read at a handle (R35). -/
def inRange (h : Handle) : Bool := decide (h.toNat ≤ Config.hMax)

/-- The check `h <= 512 and NODE_V[h] = 1` made before a handle is followed (R35, R31). -/
def written (s : State) (h : Handle) : Bool := inRange h && nodeValid s h

/-! ### Ports (R64, R65) -/

/-- `SrcNext()`: the next byte and the state with `SRC_POS` advanced, or `none` for END. -/
def srcNext (s : State) : Option (Byte × State) :=
  match s.src[s.srcPos]? with
  | some b => some (b, { s with srcPos := s.srcPos + 1 })
  | none => none

/-- `SnkPut(b)`. -/
def snkPut (b : Byte) (s : State) : State := { s with snk := s.snk ++ [b] }

/-- `OutPut(b)`. -/
def outPut (b : Byte) (s : State) : State := { s with out := s.out ++ [b] }

/-! ### The BitWriter (R110, R114) -/

/-- `acc[i] <- b`. -/
def setBit (acc : BitVec 8) (i : Nat) (b : Bool) : BitVec 8 :=
  (acc &&& ~~~(1#8 <<< i)) ||| ((BitVec.ofBool b).setWidth 8 <<< i)

/-- The writer registers at given values. -/
def setWriter (acc : BitVec 8) (cnt : BitVec 3) (s : State) : State :=
  { s with bwAcc := acc, bwCnt := cnt }

/-- `PutBit(b)` (R110). -/
def putBit (b : Bool) (s : State) : State :=
  if s.bwCnt = 7#3 then setWriter 0#8 0#3 (snkPut (setBit s.bwAcc 7 b) s)
  else setWriter (setBit s.bwAcc s.bwCnt.toNat b) (s.bwCnt + 1#3) s

/-- `PutBit` of each bit of a string in order, first bit first (R132). -/
def putBits : List Bool → State → State
  | [], s => s
  | b :: bs, s => putBits bs (putBit b s)

/-- The body of `WFLUSH` (R114). -/
def flushWriter (s : State) : State :=
  if s.bwCnt = 0#3 then s else setWriter 0#8 0#3 (snkPut s.bwAcc s)

/-! ### The BitReader (R112) -/

/-- The reader registers at given values. -/
def setReader (buf : BitVec 8) (pos : Fin 9) (s : State) : State :=
  { s with brBuf := buf, brPos := pos }

/-- `ReadBit()`: the bit and the state after it, or `none` for END, which changes nothing. -/
def readBit (s : State) : Option (Bool × State) :=
  if s.brPos = 8 then
    match srcNext s with
    | none => none
    | some (r, s') => some (r.getLsbD 0, setReader r 1 s')
  else some (s.brBuf.getLsbD s.brPos.val, setReader s.brBuf (Fin.ofNat 9 (s.brPos.val + 1)) s)

/-- How many bits the reader can still hand out: the bound of R155. -/
def bitsLeft (s : State) : Nat := 8 * (s.src.length - s.srcPos) + (8 - s.brPos.val)

/-! ### Registers of the decoder, and the code table as a whole -/

/-- `CUR <- h`. -/
def setCur (h : Handle) (s : State) : State := { s with cur := h }

/-- `DSTATE <- d`. -/
def setDState (d : DState) (s : State) : State := { s with dstate := d }

/-- `ROOT.H <- h ; ROOT.V <- 1`. -/
def setRoot (h : Handle) (s : State) : State := { s with rootH := h, rootV := true }

/-- `CT[s] <- T[s]` for every `s`: the whole table at once (R133). -/
def setCt (t : Memory CtEntry) (s : State) : State := { s with ct := t }

/-! ### Fault entry and return -/

/-- `raise X` (R186): latch the fault and its cause. Nothing is saved and control goes nowhere; the
command that raises ends with this state. -/
def raise (c : Cause) (s : State) : State := { s with fault := true, cause := c }

/-- Every element of block state at its reset value, the ports and the model's own fields kept: the
effect of RELEASE (R170) and of reset (R210). It is the only return from a fault (R190). -/
def clearBlock (s : State) : State :=
  { s with
    node := [], nodeV := [], nodeW := [], ct := []
    rootH := 0#10, rootV := false, cur := Config.null, dstate := .idle
    bwAcc := 0#8, bwCnt := 0#3
    brBuf := 0#8, brPos := 8
    resultBit := false, resultEnd := false
    fault := false, cause := .none }

end Sys2Proof.Machine
end

