-- ==== Sys2Proof/Machine/Flags.lean ====
section
/-! DEFINITION. The flags of the block, `FAULT`, `CAUSE`, `DSTATE` and `RESULT` (10_state.md R25 to
R27): their codes on the bus, the admission of a command by `DSTATE` (30_encoding.md R90 step 4,
R92), and the result of RBIT (40_serializer.md R113). -/

namespace Sys2Proof.Machine

/-- The code of `DSTATE` in `STATUS[1:0]` (R28). -/
def DState.code : DState → BitVec 2
  | .idle => 0#2
  | .run => 1#2
  | .done => 2#2

/-- The code of `CAUSE` in `STATUS[7:4]` (R180). -/
def Cause.code : Cause → BitVec 4
  | .none => 0#4
  | .malformedStream => 1#4
  | .internalConsistency => 2#4
  | .emptyTree => 3#4
  | .badTree => 4#4
  | .illegalCmd => 5#4
  | .illegalAccess => 6#4

/-- Admitted in IDLE, RUN and DONE. -/
def inAny : DState → Bool
  | .idle => true
  | .run => true
  | .done => true

/-- Admitted in IDLE only. -/
def inIdle : DState → Bool
  | .idle => true
  | .run => false
  | .done => false

/-- Admitted in RUN and DONE. -/
def inRunOrDone : DState → Bool
  | .idle => false
  | .run => true
  | .done => true

/-- The order of checks before a command's own (R188): a latched fault makes the command ignored
(log 9 DEDUCED), a `DSTATE` outside the row's set raises ILLEGAL_CMD (R90 step 4). -/
def whenAdmitted (admitted : DState → Bool) (s : State) (body : State → Out) : Out :=
  if s.fault then .next s
  else if admitted s.dstate then body s
  else .next (raise .illegalCmd s)

/-- RBIT's report: END as `RESULT.END = 1, RESULT.BIT = 0`, a bit as itself (R113). -/
def setResult (bit atEnd : Bool) (s : State) : State := { s with resultBit := bit, resultEnd := atEnd }

end Sys2Proof.Machine
end

