-- ==== Sys2Proof/Machine/CodeTable.lean ====
section
/-! DEFINITION. The code table family (41_codetable.md): ENC, and CTDRV with the depth-first
traversal `Derive`. -/

namespace Sys2Proof.Machine

/-- The entry ENC uses: `CT[sym]` when `sym <= 256` and `CT[sym].VALID = 1` (R132). -/
def encEntry (s : State) (sym : Symbol) : Option CtEntry :=
  if sym.toNat ≤ Config.symMax ∧ (ctEntry s sym.toNat).valid = true then some (ctEntry s sym.toNat)
  else none

/-- `ENC sym` (R132). -/
def execEnc (sym : Symbol) (s : State) : Out :=
  whenAdmitted inAny s fun s =>
    match encEntry s sym with
    | none => .next (raise .internalConsistency s)
    | some e => .next (putBits (ctCode e) s)

/-- Record a leaf of symbol `sym` reached by `path` (R134): a literal byte or PEOF not recorded yet. -/
def recordLeaf (sym : Symbol) (path : List Bool) (t : Memory CtEntry) :
    Except Cause (Memory CtEntry) :=
  if sym.toNat ≤ Config.symMax then
    if (t.read CtEntry.empty sym.toNat).valid then .error .badTree
    else .ok (t.write CtEntry.empty sym.toNat (entryOfPath path))
  else .error .badTree

/-- `Derive(h, depth, path, T)` (R134). `depth` is the length of `path`; the recursion is on the
number of levels left below `MAXLEN`, `256 - depth`, so an internal node with none left is the
refusal `depth < 256` (log 14 DEDUCED). -/
def derive (s : State) (levels : Nat) (h : Handle) (path : List Bool) (t : Memory CtEntry) :
    Except Cause (Memory CtEntry) :=
  if written s h then
    if nodeSym (nodeWord s h) = Config.nas then
      match levels with
      | 0 => .error .badTree
      | l + 1 =>
        match derive s l (nodeZc (nodeWord s h)) (path ++ [false]) t with
        | .error c => .error c
        | .ok t' => derive s l (nodeOc (nodeWord s h)) (path ++ [true]) t'
    else recordLeaf (nodeSym (nodeWord s h)) path t
  else .error .badTree

/-- `CTDRV` (R133): all 257 entries replaced, or none when it raises. -/
def execCtdrv (s : State) : Out :=
  whenAdmitted inIdle s fun s =>
    if s.rootV then
      match derive s Config.maxLen s.rootH [] [] with
      | .error c => .next (raise c s)
      | .ok t => .next (setCt t s)
    else .next (raise .emptyTree s)

end Sys2Proof.Machine
end

