-- ==== Sys2Proof/Machine/Serializer.lean ====
section
/-! DEFINITION. The serializer family (40_serializer.md): WBIT, WFLUSH and RBIT. -/

namespace Sys2Proof.Machine

/-- `WBIT b` (R111). -/
def execWbit (b : Bool) (s : State) : Out := whenAdmitted inAny s fun s => .next (putBit b s)

/-- `WFLUSH` (R114). -/
def execWflush (s : State) : Out := whenAdmitted inAny s fun s => .next (flushWriter s)

/-- `RBIT` (R113): END is a result, not a fault. -/
def execRbit (s : State) : Out :=
  whenAdmitted inAny s fun s =>
    match readBit s with
    | none => .next (setResult false true s)
    | some (b, s') => .next (setResult b false s')

end Sys2Proof.Machine
end

