-- ==== Sys2Proof/Machine/System.lean ====
section
/-! DEFINITION. The system family (43_system.md): NOP and RELEASE. -/

namespace Sys2Proof.Machine

/-- `NOP` (R171): no state change; while a fault is latched it is ignored, with the same effect. -/
def execNop (s : State) : Out := whenAdmitted inAny s fun s => .next s

/-- `RELEASE` (R170): admitted in every `DSTATE` and while `FAULT = 1`. -/
def execRelease (s : State) : Out := .next (clearBlock s)

end Sys2Proof.Machine
end

