-- ==== Sys2Proof/Machine/Traversal.lean ====
section
/-! DEFINITION. The tree traversal family (42_traversal.md): SETROOT, DSTART, DSTEP and DRUN. -/

namespace Sys2Proof.Machine

/-- `SETROOT h` (R150). A handle above 512 is no legal encoding (R90 step 3), which is checked
before the admission. -/
def execSetroot (h : Handle) (s : State) : Out :=
  if h.toNat ≤ Config.hMax then whenAdmitted inIdle s fun s => .next (setRoot h s)
  else whenAdmitted inAny s fun s => .next (raise .illegalCmd s)

/-- The end of DSTART: what the root's symbol says (R152). -/
def startAt (sym : Symbol) (s : State) : State :=
  if sym = Config.peof then setDState .done (setCur s.rootH s)
  else if sym = Config.nas then setDState .run (setCur s.rootH s)
  else raise .badTree s

/-- `DSTART` (R152). A root handle above 512, which SETROOT never stores, is BAD_TREE by R35 and D15
(log 6 DEDUCED), as a root never written is. -/
def execDstart (s : State) : Out :=
  whenAdmitted inIdle s fun s =>
    if s.rootV then
      if written s s.rootH then .next (startAt (nodeSym (nodeWord s s.rootH)) s)
      else .next (raise .badTree s)
    else .next (raise .emptyTree s)

/-- Arriving at the child `next` (R153, R151): the second half of `Step()`. -/
def arrive (next : Handle) (s : State) : State :=
  if written s next then
    if nodeSym (nodeWord s next) = Config.nas then setCur next s
    else if nodeSym (nodeWord s next) = Config.peof then setDState .done (setCur next s)
    else if (nodeSym (nodeWord s next)).toNat ≤ Config.byteMax then
      setCur s.rootH (outPut ((nodeSym (nodeWord s next)).setWidth 8) s)
    else raise .badTree s
  else raise .badTree s

/-- `Step()` (R153): one bit consumed, one edge walked. `NODE[CUR]` exists for a handle of at most
512; above it, where no run from reset leads, R35 and D15 give BAD_TREE, with the bit consumed as in
every `Step` that raises it (R186; log 6 DEDUCED). -/
def stepTree (s : State) : State :=
  match readBit s with
  | none => raise .malformedStream s
  | some (b, s') =>
    if inRange s'.cur then arrive (nodeChild (nodeWord s' s'.cur) b) s' else raise .badTree s'

/-- `DSTEP` (R153): one `Step` in RUN, nothing in DONE. -/
def execDstep (s : State) : Out :=
  whenAdmitted inRunOrDone s fun s =>
    if s.dstate = .run then .next (stepTree s) else .next s

/-- The loop of DRUN (R155), `fuel` iterations at most; a raise inside ends it. -/
def runTree : Nat → State → State
  | 0, s => s
  | fuel + 1, s => if s.dstate = .run ∧ s.fault = false then runTree fuel (stepTree s) else s

/-- `DRUN` (R155). At most `bitsLeft` steps succeed and one more can raise, so the bound on the
loop is never what ends it (log 14 DEDUCED). -/
def execDrun (s : State) : Out :=
  whenAdmitted inRunOrDone s fun s => .next (runTree (bitsLeft s + 1) s)

end Sys2Proof.Machine
end

