-- ==== Sys2Proof/Machine/Dispatch.lean ====
section
/-! DEFINITION. One arm per command: `exec i s` is what writing the command word of `i` to CMD does
in state `s` (30_encoding.md R90 steps 3 to 5, 60_exceptions.md R187 and R188). -/

namespace Sys2Proof.Machine

def exec (i : Instr) (s : State) : Host.Outcome State Fault Refusal :=
  match i with
  | .nop => Sys2Proof.Machine.execNop s
  | .release => Sys2Proof.Machine.execRelease s
  | .wbit b => Sys2Proof.Machine.execWbit b s
  | .wflush => Sys2Proof.Machine.execWflush s
  | .rbit => Sys2Proof.Machine.execRbit s
  | .enc sym => Sys2Proof.Machine.execEnc sym s
  | .ctdrv => Sys2Proof.Machine.execCtdrv s
  | .setroot h => Sys2Proof.Machine.execSetroot h s
  | .dstart => Sys2Proof.Machine.execDstart s
  | .dstep => Sys2Proof.Machine.execDstep s
  | .drun => Sys2Proof.Machine.execDrun s

end Sys2Proof.Machine
end

