-- ==== Sys2Proof/Machine/Bus.lean ====
section
/-! DEFINITION. The host bus (20_memory.md): the address map (R62), HostRead (R70), HostWrite (R71,
R72), the execution of a command word (30_encoding.md R90), and one host operation at a time (R5). -/

namespace Sys2Proof.Machine

/-- What a bus address names (R62). -/
inductive Region where
  | cmd
  | status
  | result
  | root
  | cur
  | bwstate
  | brstate
  | node (h : Nat)
  | nodeW (h : Nat)
  | ctHead (sym : Nat)
  | ctCode (sym k : Nat)
  | unmapped
deriving DecidableEq, Repr

/-- The registers at 0x0000..0x0006 (R28, R62). -/
def regRegion : Nat → Region
  | 0 => .cmd
  | 1 => .status
  | 2 => .result
  | 3 => .root
  | 4 => .cur
  | 5 => .bwstate
  | 6 => .brstate
  | _ => .unmapped

/-- The code table at 0x1000 + 16*s + k (R34, R62), from the offset `16*s + k`. -/
def ctRegion (off : Nat) : Region :=
  if off % 16 = 0 then .ctHead (off / 16)
  else if off % 16 ≤ 8 then .ctCode (off / 16) (off % 16)
  else .unmapped

/-- The address map (R62). -/
def region (addr : BusAddr) : Region :=
  if addr.toNat < 0x0800 then regRegion addr.toNat
  else if addr.toNat ≤ 0x0A00 then .node (addr.toNat - 0x0800)
  else if addr.toNat < 0x0C00 then .unmapped
  else if addr.toNat ≤ 0x0E00 then .nodeW (addr.toNat - 0x0C00)
  else if addr.toNat < 0x1000 then .unmapped
  else if addr.toNat ≤ 0x200F then ctRegion (addr.toNat - 0x1000)
  else .unmapped

/-! ### Register words (R28) -/

/-- `STATUS`: DSTATE [1:0], FAULT [2], CAUSE [7:4]. -/
def statusWord (s : State) : Word :=
  (s.cause.code.setWidth 32 <<< 4) ||| ((BitVec.ofBool s.fault).setWidth 32 <<< 2) |||
    s.dstate.code.setWidth 32

/-- `RESULT`: BIT [0], END [1]. -/
def resultWord (s : State) : Word :=
  ((BitVec.ofBool s.resultEnd).setWidth 32 <<< 1) ||| (BitVec.ofBool s.resultBit).setWidth 32

/-- `ROOT`: H [9:0], V [31]. -/
def rootWord (s : State) : Word :=
  ((BitVec.ofBool s.rootV).setWidth 32 <<< 31) ||| s.rootH.setWidth 32

/-- `CUR`: [9:0]. -/
def curWord (s : State) : Word := s.cur.setWidth 32

/-- `BWSTATE`: ACC [7:0], CNT [10:8]. -/
def bwstateWord (s : State) : Word := (s.bwCnt.setWidth 32 <<< 8) ||| s.bwAcc.setWidth 32

/-- `BRSTATE`: BUF [7:0], POS [11:8]. -/
def brstateWord (s : State) : Word := (BitVec.ofNat 32 s.brPos.val <<< 8) ||| s.brBuf.setWidth 32

/-! ### HostRead (R70) -/

/-- The word at a region; CMD and unmapped addresses read 0. -/
def readRegion (s : State) : Region → Word
  | .cmd => 0#32
  | .status => statusWord s
  | .result => resultWord s
  | .root => rootWord s
  | .cur => curWord s
  | .bwstate => bwstateWord s
  | .brstate => brstateWord s
  | .node h => nodeOnBus (s.node.read 0#32 h) (s.nodeV.read false h)
  | .nodeW h => s.nodeW.read 0#32 h
  | .ctHead k => ctHeadWord (ctEntry s k)
  | .ctCode k j => ctCodeWord (ctEntry s k) j
  | .unmapped => 0#32

/-- `HostRead(addr)`. It changes nothing and works while a fault is latched. -/
def hostRead (s : State) (addr : BusAddr) : Word := readRegion s (region addr)

/-! ### HostWrite (R71, R72) -/

/-- `NODE[h] <- data with bits [11:9] forced to 0 ; NODE_V[h] <- 1`. -/
def writeNode (h : Nat) (data : Word) (s : State) : State :=
  { s with node := s.node.write 0#32 h (nodeStored data), nodeV := s.nodeV.write false h true }

/-- `NODEW[h] <- data`. -/
def writeNodeW (h : Nat) (data : Word) (s : State) : State :=
  { s with nodeW := s.nodeW.write 0#32 h data }

/-- `CT[k] <- e`. -/
def writeCt (k : Nat) (e : CtEntry) (s : State) : State :=
  { s with ct := s.ct.write CtEntry.empty k e }

/-- A table write: admitted only while `DSTATE = IDLE` (R72). -/
def whenIdle (s : State) (body : State → State) : State :=
  if s.dstate = .idle then body s else raise .illegalAccess s

/-- A host write to an address other than CMD while no fault is latched (R71). -/
def writeRegion (r : Region) (data : Word) (s : State) : State :=
  match r with
  | .node h => whenIdle s (writeNode h data)
  | .nodeW h => whenIdle s (writeNodeW h data)
  | .ctHead k =>
    whenIdle s fun s =>
      if ctHeadLen data ≤ Config.maxLen then writeCt k (ctSetHead (ctEntry s k) data) s
      else raise .illegalAccess s
  | .ctCode k j => whenIdle s fun s => writeCt k (ctSetCodeWord (ctEntry s k) j data) s
  | .cmd => raise .illegalAccess s
  | .status => raise .illegalAccess s
  | .result => raise .illegalAccess s
  | .root => raise .illegalAccess s
  | .cur => raise .illegalAccess s
  | .bwstate => raise .illegalAccess s
  | .brstate => raise .illegalAccess s
  | .unmapped => raise .illegalAccess s

/-- `Execute(CW)` (R90): a reserved word raises ILLEGAL_CMD and does nothing else (R94). -/
def execute (cw : Word) (s : State) : Out :=
  match decode cw with
  | .ok i => exec i s
  | .error _ => .next (raise .illegalCmd s)

/-- `HostWrite(addr, data)` (R71). -/
def hostWrite (addr : BusAddr) (data : Word) (s : State) : Out :=
  if s.fault then
    if addr = 0x0000#16 ∧ data = 0x00001000#32 then exec .release s else .next s
  else if addr = 0x0000#16 then execute data s
  else .next (writeRegion (region addr) data s)

/-! ### One host operation at a time (R5) -/

/-- One operation of the host or the environment: a read answers its word to the host (log 2 DESIGN CHOICE), a
write is HostWrite, reset is R210 (log 5 DEDUCED), `openSrc` is the environment's (log 4 DESIGN CHOICE). -/
def hostOp (op : HostOp) (s : State) : Out :=
  match op with
  | .read addr => .next { s with hostReads := s.hostReads ++ [hostRead s addr] }
  | .write addr data => hostWrite addr data s
  | .reset => .next (clearBlock s)
  | .openSrc bytes => .next { s with src := bytes, srcPos := 0 }

/-- The host's next operation; with none the block is idle and keeps all its state (R201). -/
def serveHost (s : State) : Out :=
  match s.hostOps with
  | [] => .next s
  | op :: ops => hostOp op { s with hostOps := ops }

/-- The host about to write a command word to CMD, before what it was about to do. -/
def issueWord (cw : Word) (s : State) : State :=
  { s with hostOps := .write 0x0000#16 cw :: s.hostOps }

/-- Commands issued one after another (R8, R104), stopping where one stops. -/
def execAll : List Instr → State → Out
  | [], s => .next s
  | i :: is, s =>
    match exec i s with
    | .next s' => execAll is s'
    | .fault r => .fault r
    | .refused r => .refused r

end Sys2Proof.Machine
end

