-- ==== Sys2Proof/Machine/Step.lean ====
section
/-! DEFINITION. One step of the machine: one host operation, complete before the next (00_scope.md
R5). The block fetches nothing (R67): its commands are the host's writes to CMD. -/

namespace Sys2Proof.Machine

/-- One step. -/
def step (s : State) : Host.Outcome State Fault Refusal := serveHost s

/-- The state with a command word, numbered as spec/opcode_table.json numbers it, as the very next
host write to CMD (log 1 DESIGN CHOICE). A number that is no 32-bit word issues nothing. -/
def State.withFetchWord (s : State) (nbits w : Nat) : State :=
  match tableWord nbits w with
  | some cw => issueWord cw s
  | none => s

end Sys2Proof.Machine
end

