-- ==== Sys2Proof/Machine/HostProc.lean ====
section
/-! DEFINITION. The host's side (log 12 DESIGN CHOICE): the pseudo-instructions of 30_encoding.md R105 and the host
reference procedures of 70_reset_and_hazards.md R214 to R221. They are host software, not the block;
each is a function to data the block is driven with (host operations). -/

namespace Sys2Proof.Machine

/-! ### Lines and pseudo-instructions (R104, R105) -/

/-- `MNEMONIC operands`: a write of the command word to CMD. -/
def opCmd (i : Instr) : HostOp := .write 0x0000#16 (encode i)

/-- `ENCEOF`. -/
def opEncEof : HostOp := opCmd (.enc Config.peof)

/-- `DECODE`. -/
def opsDecode : List HostOp := [opCmd .dstart, opCmd .drun]

/-- `LDNODE h, sym, zc, oc`. -/
def opLdNode (h : Nat) (sym : Symbol) (zc oc : Handle) : HostOp :=
  .write (BitVec.ofNat 16 (0x0800 + h)) (nodePack sym zc oc)

/-- `LDLEAF h, sym`. -/
def opLdLeaf (h : Nat) (sym : Symbol) : HostOp := opLdNode h sym Config.null Config.null

/-- `LDINT h, zc, oc`. -/
def opLdInt (h : Nat) (zc oc : Handle) : HostOp := opLdNode h Config.nas zc oc

/-- `LDW h, w`. -/
def opLdW (h : Nat) (w : Word) : HostOp := .write (BitVec.ofNat 16 (0x0C00 + h)) w

/-- `LDCODE s, "b0b1..."`: the code words, then word 0 with `VALID` and the length. -/
def opsLdCode (sym : Nat) (bits : List Bool) : List HostOp :=
  ((List.range (max 1 ((bits.length + 31) / 32))).map fun j =>
    HostOp.write (BitVec.ofNat 16 (0x1000 + 16 * sym + (j + 1)))
      ((BitVec.ofBoolListLE ((bits.drop (32 * j)).take 32)).setWidth 32)) ++
  [.write (BitVec.ofNat 16 (0x1000 + 16 * sym)) (0x80000000#32 ||| BitVec.ofNat 32 bits.length)]

/-! ### BuildFrequencyTable (R214) -/

/-- A map from symbols to counts; an unlisted symbol has count 0, which is "not present" (R216). -/
abbrev FreqTable := Memory Nat

/-- A map from symbols to counts: its keys are literal bytes and PEOF (R214), and it lists each key once
(log 12 DESIGN CHOICE). That PEOF is present is not part of it: a parsed table may be empty (R221). -/
abbrev FreqTable.wf (f : FreqTable) : Prop := Memory.wf Config.nSym 0 f

/-- One more of symbol `k`. -/
def countSymbol (k : Nat) (f : FreqTable) : FreqTable := f.write 0 k (f.read 0 k + 1)

/-- `BuildFrequencyTable(S)`: one count per byte, then exactly one for PEOF. -/
def buildFrequencyTable (bytes : List Byte) : FreqTable :=
  countSymbol Config.symMax (bytes.foldl (fun f b => countSymbol b.toNat f) [])

/-! ### The priority queue and BuildTree (R215, R216) -/

/-- The tree of R216; each node carries the `seq` stamped on it when it was enqueued, which R217
makes its handle, and its weight. -/
inductive Tree where
  | leaf (seq : Nat) (weight : Nat) (sym : Symbol)
  | inner (seq : Nat) (weight : Nat) (zero one : Tree)
deriving DecidableEq, Repr

/-- The node's handle in the reference image (R217). -/
def Tree.seq : Tree → Nat
  | .leaf seq _ _ => seq
  | .inner seq _ _ _ => seq

/-- The node's weight. -/
def Tree.weight : Tree → Nat
  | .leaf _ w _ => w
  | .inner _ w _ _ => w

/-- Every internal node weighs what its two children weigh together (R216, the weight invariant). -/
def Tree.weightsAdd : Tree → Prop
  | .leaf _ _ _ => True
  | .inner _ w zero one => w = zero.weight + one.weight ∧ zero.weightsAdd ∧ one.weightsAdd

/-- The leaves from left to right, as (symbol, weight). -/
def Tree.leaves : Tree → List (Symbol × Nat)
  | .leaf _ w sym => [(sym, w)]
  | .inner _ _ zero one => zero.leaves ++ one.leaves

/-- A queue entry `(weight, seq, node)` (R215). -/
structure QEntry where
  weight : Nat
  seq : Nat
  node : Tree
deriving DecidableEq, Repr

/-- The order of the queue: smaller weight first, among equal weights smaller `seq` first (R215). -/
def QEntry.before (a b : QEntry) : Bool :=
  decide (a.weight < b.weight ∨ a.weight = b.weight ∧ a.seq < b.seq)

/-- Enqueue into a queue kept in its order, so that dequeuing takes the head. -/
def enqueue (e : QEntry) : List QEntry → List QEntry
  | [] => [e]
  | x :: q => if e.before x then e :: x :: q else x :: enqueue e q

/-- The symbols with a count of at least 1, ascending (R216). -/
def presentSymbols (f : FreqTable) : List Nat :=
  (List.range Config.nSym).filter fun s => decide (1 ≤ f.read 0 s)

/-- Steps 1 and 2 of BuildTree: one leaf per symbol present, enqueued in ascending order with `seq`
counting from the given value. -/
def enqueueLeaves (f : FreqTable) : Nat → List Nat → List QEntry → List QEntry
  | _, [], q => q
  | seq, s :: ss, q =>
    enqueueLeaves f (seq + 1) ss
      (enqueue ⟨f.read 0 s, seq, .leaf seq (f.read 0 s) (BitVec.ofNat 9 s)⟩ q)

/-- Step 3 of BuildTree: merge the two least entries until one is left. The first argument bounds
the loop; with `L` leaves it runs `L - 1` times (R216). -/
def mergeQueue : Nat → Nat → List QEntry → Option Tree
  | _, _, [] => none
  | _, _, [e] => some e.node
  | 0, _, _ :: _ :: _ => none
  | fuel + 1, seq, a :: b :: q =>
    mergeQueue fuel (seq + 1)
      (enqueue ⟨a.weight + b.weight, seq, .inner seq (a.weight + b.weight) a.node b.node⟩ q)

/-- `BuildTree(F)` (R216); `none` is "no tree". -/
def buildTree (f : FreqTable) : Option Tree :=
  mergeQueue (presentSymbols f).length (presentSymbols f).length
    (enqueueLeaves f 0 (presentSymbols f) [])

/-! ### The reference node image (R217) -/

/-- The node words and weights of a tree, by handle. -/
def treeImage : Tree → Memory (Word × Word) → Memory (Word × Word)
  | .leaf seq w sym, m =>
    Memory.insert seq (nodePack sym Config.null Config.null, BitVec.ofNat 32 w) m
  | .inner seq w zero one, m =>
    Memory.insert seq
      (nodePack Config.nas (BitVec.ofNat 10 zero.seq) (BitVec.ofNat 10 one.seq), BitVec.ofNat 32 w)
      (treeImage one (treeImage zero m))

/-- `LDNODE` and `LDW` for every node, in ascending handle, then `SETROOT` (R217). -/
def opsLoadTree (t : Tree) : List HostOp :=
  ((treeImage t []).flatMap fun c =>
    [.write (BitVec.ofNat 16 (0x0800 + c.1)) c.2.1, opLdW c.1 c.2.2]) ++
  [opCmd (.setroot (BitVec.ofNat 10 t.seq))]

/-! ### The reference sequences (R220, R221) -/

/-- The sum of all counts: the root's weight (R219). -/
def totalCount (f : FreqTable) : Nat := (f.map fun c => c.2).sum

/-- The host may start a call with this table: its counts sum to less than `2^32` (R219). -/
def mayStart (f : FreqTable) : Bool := decide (totalCount f < 2 ^ 32)

/-- Loading the tree of a table; with "no tree" nothing is loaded and no SETROOT is issued. -/
def opsLoadTable (f : FreqTable) : List HostOp :=
  match buildTree f with
  | none => []
  | some t => opsLoadTree t

/-- The compress sequence (R220). -/
def opsCompress (bytes : List Byte) : List HostOp :=
  if mayStart (buildFrequencyTable bytes) then
    opsLoadTable (buildFrequencyTable bytes) ++ [opCmd .ctdrv] ++
      bytes.map (fun b => opCmd (.enc (b.setWidth 9))) ++
      [opEncEof, opCmd .wflush, .read 0x0001#16, opCmd .release]
  else []

/-- The decompress sequence (R221). -/
def opsDecompress (f : FreqTable) (bitstream : List Byte) : List HostOp :=
  if mayStart f then
    opsLoadTable f ++ [.openSrc bitstream] ++ opsDecode ++ [.read 0x0001#16, opCmd .release]
  else []

/-- The OPEN host parameter `TABLE_FORMAT` (D33): any serialised form of the frequency table. The block
never sees it. The round trip is asked of the tables a compress call persists and of no other: those
R214 builds (so PEOF is present), with counts a call may start with (R219). Parsing yields maps from
symbols to counts, and what it answers for other bytes, an empty table among them, is the format's own
(log 12 DESIGN CHOICE). -/
structure TableFormat where
  serialise : FreqTable → List Byte
  parse : List Byte → Option FreqTable
  parse_wf : ∀ bytes f, parse bytes = some f → FreqTable.wf f
  parse_serialise : ∀ input, mayStart (buildFrequencyTable input) = true →
    parse (serialise (buildFrequencyTable input)) = some (buildFrequencyTable input)

/-- What a host reports itself, without the block (R181, R221). -/
inductive HostError where
  | malformedStream
deriving DecidableEq, Repr

/-- The decompress sequence from a persisted table: a host that finds it unparsable or empty reports
MalformedStream itself and never starts the block (R221, R181, 90_conflicts.md C1). -/
def opsDecompressStored (fmt : TableFormat) (stored bitstream : List Byte) :
    Except HostError (List HostOp) :=
  match fmt.parse stored with
  | none => .error .malformedStream
  | some f =>
    if presentSymbols f = [] then .error .malformedStream else .ok (opsDecompress f bitstream)

/-- The host that goes on regardless with an empty table: it sets no root, and the block's DSTART
raises EMPTY_TREE (R221, R181, R183, 90_conflicts.md C1). -/
def opsDecompressRegardless (fmt : TableFormat) (stored bitstream : List Byte) :
    Except HostError (List HostOp) :=
  match fmt.parse stored with
  | none => .error .malformedStream
  | some f => .ok (opsDecompress f bitstream)

end Sys2Proof.Machine
end

