-- ==== Sys2Proof/Safety.lean ====
section
/-! DEFINITION. The terms the statements are made in: the invariant of 10_state.md R41, the
well-formed node image of 70_reset_and_hazards.md R218, paths through the
tree (41_codetable.md R136) and the bits a reader has still to hand out (40_serializer.md R115). -/

namespace Sys2Proof.Machine

/-- The invariants of R41 that the types do not already give (items 2, 3 and 8 and the codes of
CAUSE are typed out, log 7 DEDUCED), with the range of `ROOT.H` (R152 corner case c) and the canonical form
of the tables (log 8 DESIGN CHOICE). -/
structure Inv (s : State) : Prop where
  /-- item 1: the unused bits of the accumulator are 0 -/
  writerClean : ∀ i, s.bwCnt.toNat ≤ i → s.bwAcc.getLsbD i = false
  /-- item 4 -/
  causeLatched : s.fault = false ↔ s.cause = .none
  /-- item 5 -/
  running : s.dstate = .run →
    s.rootV = true ∧
    written s s.cur = true ∧ nodeSym (nodeWord s s.cur) = Config.nas ∧
    written s s.rootH = true ∧ nodeSym (nodeWord s s.rootH) = Config.nas
  /-- item 6 -/
  stopped : s.dstate = .done →
    written s s.cur = true ∧ nodeSym (nodeWord s s.cur) = Config.peof
  /-- item 7 -/
  waiting : s.dstate = .idle → s.cur = Config.null
  /-- SETROOT stores a handle of at most 512 -/
  rootRange : s.rootH.toNat ≤ Config.hMax
  /-- item 9 -/
  nodeReserved : ∀ h : Nat, (s.node.read 0#32 h).extractLsb' 9 3 = 0#3
  /-- item 10 -/
  srcRange : s.srcPos ≤ s.src.length
  nodeWf : s.node.wf Config.nNodes 0#32
  nodeVWf : s.nodeV.wf Config.nNodes false
  nodeWWf : s.nodeW.wf Config.nNodes 0#32
  ctWf : s.ct.wf Config.nSym CtEntry.empty

/-- The operation the host issues next is one that clears the block: reset, or the RELEASE word
written to CMD (R190). -/
def clearsBlock : List HostOp → Bool
  | .reset :: _ => true
  | .write addr data :: _ => decide (addr = 0x0000#16 ∧ data = 0x00001000#32)
  | .read _ :: _ => false
  | .openSrc _ :: _ => false
  | [] => false

/-- Every element of block state has its reset value (R40). -/
structure AtReset (s : State) : Prop where
  writer : s.bwAcc = 0x00#8 ∧ s.bwCnt = 0#3
  reader : s.brBuf = 0x00#8 ∧ s.brPos.val = 8
  current : s.cur = 0x3FF#10
  root : s.rootH = 0#10 ∧ s.rootV = false
  decoder : s.dstate = .idle
  noFault : s.fault = false ∧ s.cause = .none
  result : s.resultBit = false ∧ s.resultEnd = false
  nodes : ∀ h : Nat, s.node.read 0#32 h = 0#32 ∧ s.nodeV.read false h = false ∧
    s.nodeW.read 0#32 h = 0#32
  codes : ∀ k : Nat, (ctEntry s k).valid = false ∧ (ctEntry s k).len.val = 0 ∧
    (ctEntry s k).code = 0#256

/-- The port state is untouched (R40: not reset by the block). -/
def SamePorts (s t : State) : Prop :=
  t.src = s.src ∧ t.srcPos = s.srcPos ∧ t.snk = s.snk ∧ t.out = s.out

/-- The tables and the host's side are untouched: every read of NODE, NODE_V, NODEW and CT answers
as before, because the memories are equal. -/
def SameTables (s t : State) : Prop :=
  t.node = s.node ∧ t.nodeV = s.nodeV ∧ t.nodeW = s.nodeW ∧ t.ct = s.ct ∧
    t.hostOps = s.hostOps ∧ t.hostReads = s.hostReads

/-- The decoder's registers and the result are untouched. -/
def SameDecoder (s t : State) : Prop :=
  t.cur = s.cur ∧ t.rootH = s.rootH ∧ t.rootV = s.rootV ∧ t.dstate = s.dstate

/-- The word, written to CMD, raises ILLEGAL_CMD and changes nothing else (R94, R186). -/
def RaisesIllegalCmd (cw : Word) (s : State) : Prop :=
  hostWrite 0x0000#16 cw s = .next { s with fault := true, cause := .illegalCmd }

/-- The next `DSTATE` values R156 gives for a command in a state; a cell that faults or is not
admitted leaves `DSTATE` unchanged. -/
def dstateAfter : Instr → DState → List DState
  | .release, _ => [.idle]
  | .dstart, .idle => [.idle, .run, .done]
  | .dstep, .run => [.run, .done]
  | .drun, .run => [.run, .done]
  | _, d => [d]

/-! ### The node image (R218) -/

/-- `NODE[h]` is an internal node (R151). -/
abbrev isInternal (s : State) (h : Handle) : Prop := nodeSym (nodeWord s h) = Config.nas

/-- The child of node `h` that the bit `b` selects. -/
abbrev childOf (s : State) (h : Handle) (b : Bool) : Handle := nodeChild (nodeWord s h) b

/-- The set `R` of R218: the handles reachable from `ROOT.H` through internal nodes. -/
inductive Reachable (s : State) : Handle → Prop where
  | root : Reachable s s.rootH
  | child {h : Handle} (b : Bool) : Reachable s h → isInternal s h → Reachable s (childOf s h b)

/-- A well-formed node image (R218, items 1 to 5). -/
structure WellFormedImage (s : State) : Prop where
  rootSet : s.rootV = true
  /-- (1) -/
  inStore : ∀ h, Reachable s h → written s h = true
  /-- (2): the children of an internal node are in `R` by its definition -/
  leafOrInternal : ∀ h, Reachable s h →
    ((nodeSym (nodeWord s h)).toNat ≤ Config.symMax ∧
      childOf s h false = Config.null ∧ childOf s h true = Config.null) ∨ isInternal s h
  /-- (3): one parent through one field -/
  oneParent : ∀ h₁ h₂ b₁ b₂, Reachable s h₁ → Reachable s h₂ → isInternal s h₁ → isInternal s h₂ →
    childOf s h₁ b₁ = childOf s h₂ b₂ → h₁ = h₂ ∧ b₁ = b₂
  /-- (3): the root is no node's child -/
  rootNoChild : ∀ h b, Reachable s h → isInternal s h → childOf s h b ≠ s.rootH
  /-- (4) -/
  symbolsApart : ∀ h₁ h₂, Reachable s h₁ → Reachable s h₂ → ¬ isInternal s h₁ → ¬ isInternal s h₂ →
    nodeSym (nodeWord s h₁) = nodeSym (nodeWord s h₂) → h₁ = h₂
  /-- (5): there is a pseudo-EOF leaf; by (4) there is one only -/
  hasPeof : ∃ h, Reachable s h ∧ nodeSym (nodeWord s h) = Config.peof

/-- Weight-consistent (R218): over the stored weights, as natural numbers. -/
structure WeightConsistent (s : State) : Prop where
  leaves : ∀ h, Reachable s h → ¬ isInternal s h → 1 ≤ (s.nodeW.read 0#32 h.toNat).toNat
  sums : ∀ h, Reachable s h → isInternal s h →
    (s.nodeW.read 0#32 h.toNat).toNat =
      (s.nodeW.read 0#32 (childOf s h false).toNat).toNat +
        (s.nodeW.read 0#32 (childOf s h true).toNat).toNat

/-- Walking from `h` along a bit string (0 to `ZC`, 1 to `OC`) passes only internal nodes and ends
at `t` (R136). -/
def leadsTo (s : State) : Handle → List Bool → Handle → Prop
  | h, [], t => t = h
  | h, b :: bs, t => isInternal s h ∧ leadsTo s (childOf s h b) bs t

/-! ### Codes and bits -/

/-- Symbol `k` has the code `c` (R130). -/
def hasCode (s : State) (k : Nat) (c : List Bool) : Prop :=
  (ctEntry s k).valid = true ∧ ctCode (ctEntry s k) = c

/-- The bits of a byte in stream order, bit 0 first (R66). -/
def byteBits (b : Byte) : List Bool := (List.range 8).map b.getLsbD

/-- The bits of a byte sequence in stream order (R66). -/
def streamBits (bs : List Byte) : List Bool := bs.flatMap byteBits

/-- The bits the reader has still to hand out: the rest of its buffer, then the rest of SRC (R22, R37). -/
def remainingBits (s : State) : List Bool :=
  (byteBits s.brBuf).drop s.brPos.val ++ streamBits (s.src.drop s.srcPos)

/-- The bits the writer has accepted: those pushed to SNK, then those in the accumulator (R21, R37). -/
def writtenBits (s : State) : List Bool :=
  streamBits s.snk ++ (byteBits s.bwAcc).take s.bwCnt.toNat

/-- The commands that compress a message with a table already filled: one ENC per byte, ENC of
PEOF, WFLUSH (R220). -/
def encodeCommands (msg : List Byte) : List Instr :=
  msg.map (fun b => .enc (b.setWidth 9)) ++ [.enc Config.peof, .wflush]

/-- Two states hold the same node image and root (R158). -/
def SameImage (s u : State) : Prop :=
  u.node = s.node ∧ u.nodeV = s.nodeV ∧ u.rootH = s.rootH ∧ u.rootV = s.rootV

end Sys2Proof.Machine
end

