-- ==== Sys2Proof/Certificates/Slice0/Obligations.lean ====
section
/-! DEFINITION. The statements for the provers, from the numbered rules of spec/. A faulting command
is written out as the state with `FAULT` and `CAUSE` set (R186), so that a statement does not rest on
the model's own `raise`. -/

open Sys2Proof Sys2Proof.Machine

/-! ### Reset, the invariant, totality -/

/-- R40, R210: the reset state has every value of the table, and RELEASE and reset leave exactly
those values in the block and leave the ports alone, from every state. That reset arrives as a host
operation between two others is the model's reading (log 5 DEDUCED). -/
def Obligations.ResetAndReleaseLeaveTheResetValues : Prop :=
  AtReset State.reset ∧
  ∀ (s : State) (ops : List HostOp),
    (∃ t, exec .release s = .next t ∧ AtReset t ∧ SamePorts s t) ∧
    (∃ u, step { s with hostOps := .reset :: ops } = .next u ∧ AtReset u ∧ SamePorts s u ∧
      u.hostOps = ops)

/-- R28: the words the registers read as over the bus after reset; every other address reads 0. -/
def Obligations.ResetReadingsOnTheBus : Prop :=
  ∀ a : BusAddr, hostRead State.reset a =
    if a = 0x0004#16 then 0x000003FF#32 else if a = 0x0006#16 then 0x00000800#32 else 0#32

/-- The invariant of R41 holds at reset, in the model's representation (log 7 DEDUCED, log 8 DESIGN
CHOICE) and with the model's empty SRC (log 3 DESIGN CHOICE, unsafe). -/
def Obligations.InvariantHoldsAtReset : Prop := Inv State.reset

/-- R41: every step keeps the invariant, from every state that meets it. A step is one operation of
the model's list of host operations, reset and a new SRC among them (log 1, log 4 DESIGN CHOICE, log 5
DEDUCED); what the types already give is not in `Inv` (log 7 DEDUCED). -/
def Obligations.EveryStepKeepsTheInvariant : Prop :=
  ∀ s t : State, Inv s → step s = .next t → Inv t

/-- R10, R185: in every state every command, every 32-bit write to every 16-bit address and every step
(a read, a write, reset) answers a next state. A step is the model's (log 1 DESIGN CHOICE, log 5
DEDUCED). -/
def Obligations.EveryOperationAnswers : Prop :=
  ∀ s : State,
    (∀ i : Instr, ∃ t, exec i s = .next t) ∧
    (∀ (a : BusAddr) (d : Word), ∃ t, hostWrite a d s = .next t) ∧
    (∃ t, step s = .next t)

/-! ### Encoding -/

/-- Decode of encode is the identity on every well-formed command, at every operand value. -/
def Obligations.DecodeOfEncodeIsTheCommand : Prop :=
  ∀ i : Instr, i.wf = true → decode (encode i) = .ok i

/-- The other direction: a word that decodes is the encoding of what it decodes to, which is well
formed. No word has two meanings and none is accepted beyond the table. -/
def Obligations.DecodedWordIsTheEncoding : Prop :=
  ∀ (cw : Word) (i : Instr), decode cw = .ok i → i.wf = true ∧ encode i = cw

/-- R92: the opcode map by match and mask, with the operands of R93. -/
def Obligations.OpcodeMapByMatchAndMask : Prop :=
  ∀ cw : Word,
    (decode cw = .ok .nop ↔ cw &&& 0xFFFFFFFF#32 = 0x00000000#32) ∧
    (decode cw = .ok .release ↔ cw &&& 0xFFFFFFFF#32 = 0x00001000#32) ∧
    (∀ b, decode cw = .ok (.wbit b) ↔ cw &&& 0xFFFFFFFE#32 = 0x00002000#32 ∧ cw.getLsbD 0 = b) ∧
    (decode cw = .ok .wflush ↔ cw &&& 0xFFFFFFFF#32 = 0x00003000#32) ∧
    (decode cw = .ok .rbit ↔ cw &&& 0xFFFFFFFF#32 = 0x00004000#32) ∧
    (∀ y, decode cw = .ok (.enc y) ↔
      cw &&& 0xFFFFFE00#32 = 0x00005000#32 ∧ cw.extractLsb' 0 9 = y) ∧
    (decode cw = .ok .ctdrv ↔ cw &&& 0xFFFFFFFF#32 = 0x00006000#32) ∧
    (∀ h, decode cw = .ok (.setroot h) ↔
      cw &&& 0xFFFFFC00#32 = 0x00007000#32 ∧ cw.extractLsb' 0 10 = h ∧ h.toNat ≤ 512) ∧
    (decode cw = .ok .dstart ↔ cw &&& 0xFFFFFFFF#32 = 0x00008000#32) ∧
    (decode cw = .ok .dstep ↔ cw &&& 0xFFFFFFFF#32 = 0x00009000#32) ∧
    (decode cw = .ok .drun ↔ cw &&& 0xFFFFFFFF#32 = 0x0000A000#32)

/-- R94: the reserved words are the listed ones, they are the words that no well-formed command
encodes to, and each, written to CMD while no fault is latched, raises ILLEGAL_CMD and does nothing
else; so does a legal word whose `DSTATE` admission fails. -/
def Obligations.ReservedWordsRaiseIllegalCmd : Prop :=
  ∀ (s : State) (cw : Word), s.fault = false →
    ((cw.extractLsb' 16 16 ≠ 0#16 ∨
        0xB ≤ (cw.extractLsb' 12 4).toNat ∨
        ((cw.extractLsb' 12 4).toNat ∈ [0x0, 0x1, 0x3, 0x4, 0x6, 0x8, 0x9, 0xA] ∧
          cw.extractLsb' 0 12 ≠ 0#12) ∨
        ((cw.extractLsb' 12 4).toNat = 0x2 ∧ cw.extractLsb' 1 11 ≠ 0#11) ∨
        ((cw.extractLsb' 12 4).toNat = 0x5 ∧ cw.extractLsb' 9 3 ≠ 0#3) ∨
        ((cw.extractLsb' 12 4).toNat = 0x7 ∧
          (cw.extractLsb' 10 2 ≠ 0#2 ∨ 512 < (cw.extractLsb' 0 10).toNat))) ↔
      ∀ i : Instr, i.wf = true → encode i ≠ cw) ∧
    ((∀ i : Instr, i.wf = true → encode i ≠ cw) → RaisesIllegalCmd cw s) ∧
    (∀ i : Instr, i.wf = true → encode i = cw →
      ((s.dstate ≠ .idle ∧ (i = .ctdrv ∨ i = .dstart ∨ ∃ h, i = .setroot h)) ∨
        (s.dstate = .idle ∧ (i = .dstep ∨ i = .drun))) → RaisesIllegalCmd cw s)

/-- One word of every family, written out from R92 and the programs of 95_test_vectors.md. -/
def Obligations.SampleWordsDecode : Prop :=
  decode 0x00000000#32 = .ok .nop ∧ decode 0x00001000#32 = .ok .release ∧
  decode 0x00002001#32 = .ok (.wbit true) ∧ decode 0x00003000#32 = .ok .wflush ∧
  decode 0x00004000#32 = .ok .rbit ∧ decode 0x00005061#32 = .ok (.enc 97#9) ∧
  decode 0x000051FF#32 = .ok (.enc 511#9) ∧ decode 0x00006000#32 = .ok .ctdrv ∧
  decode 0x00007200#32 = .ok (.setroot 512#10) ∧ decode 0x00008000#32 = .ok .dstart ∧
  decode 0x00009000#32 = .ok .dstep ∧ decode 0x0000A000#32 = .ok .drun

/-- A step whose next host operation writes a decodable word to CMD is `exec` of the decoded command
at the state with that operation taken off the list, which is all a step adds (while a fault is
latched only RELEASE is executed). That the operations the host has still to issue stand in the
state is the model's choice (log 1 DESIGN CHOICE). -/
def Obligations.StepRunsTheDecodedCommand : Prop :=
  ∀ (s : State) (cw : Word) (i : Instr) (ops : List HostOp),
    s.hostOps = .write 0x0000#16 cw :: ops → decode cw = .ok i →
    (s.fault = false ∨ i = .release) → step s = exec i { s with hostOps := ops }

/-! ### The host bus -/

/-- R28: every field of every register word, and that the bits not listed read 0. -/
def Obligations.RegisterFieldsOnTheBus : Prop :=
  ∀ s : State,
    hostRead s 0x0000#16 = 0#32 ∧
    (hostRead s 0x0001#16).extractLsb' 0 2 =
      (match s.dstate with | .idle => 0#2 | .run => 1#2 | .done => 2#2) ∧
    (hostRead s 0x0001#16).getLsbD 2 = s.fault ∧
    (hostRead s 0x0001#16).getLsbD 3 = false ∧
    (hostRead s 0x0001#16).extractLsb' 4 4 =
      (match s.cause with
       | .none => 0#4 | .malformedStream => 1#4 | .internalConsistency => 2#4 | .emptyTree => 3#4
       | .badTree => 4#4 | .illegalCmd => 5#4 | .illegalAccess => 6#4) ∧
    (hostRead s 0x0001#16).extractLsb' 8 24 = 0#24 ∧
    (hostRead s 0x0002#16).getLsbD 0 = s.resultBit ∧
    (hostRead s 0x0002#16).getLsbD 1 = s.resultEnd ∧
    (hostRead s 0x0002#16).extractLsb' 2 30 = 0#30 ∧
    (hostRead s 0x0003#16).extractLsb' 0 10 = s.rootH ∧
    (hostRead s 0x0003#16).extractLsb' 10 21 = 0#21 ∧
    (hostRead s 0x0003#16).getLsbD 31 = s.rootV ∧
    (hostRead s 0x0004#16).extractLsb' 0 10 = s.cur ∧
    (hostRead s 0x0004#16).extractLsb' 10 22 = 0#22 ∧
    (hostRead s 0x0005#16).extractLsb' 0 8 = s.bwAcc ∧
    (hostRead s 0x0005#16).extractLsb' 8 3 = s.bwCnt ∧
    (hostRead s 0x0005#16).extractLsb' 11 21 = 0#21 ∧
    (hostRead s 0x0006#16).extractLsb' 0 8 = s.brBuf ∧
    ((hostRead s 0x0006#16).extractLsb' 8 4).toNat = s.brPos.val ∧
    (hostRead s 0x0006#16).extractLsb' 12 20 = 0#20

/-- R70, R30, R32, R34: what the table addresses read as, field by field, and that every unmapped
address reads 0. -/
def Obligations.TableWordsOnTheBus : Prop :=
  ∀ (s : State) (a : BusAddr),
    (∀ h : Handle, h.toNat ≤ 512 → a.toNat = 0x0800 + h.toNat →
      (hostRead s a).extractLsb' 0 9 = nodeSym (nodeWord s h) ∧
      (hostRead s a).extractLsb' 12 10 = nodeZc (nodeWord s h) ∧
      (hostRead s a).extractLsb' 22 10 = nodeOc (nodeWord s h) ∧
      (hostRead s a).getLsbD 11 = nodeValid s h ∧
      (hostRead s a).extractLsb' 9 2 = (nodeWord s h).extractLsb' 9 2) ∧
    (∀ h : Handle, h.toNat ≤ 512 → a.toNat = 0x0C00 + h.toNat →
      hostRead s a = s.nodeW.read 0#32 h.toNat) ∧
    (∀ k, k ≤ 256 → a.toNat = 0x1000 + 16 * k →
      ((hostRead s a).extractLsb' 0 9).toNat = (ctEntry s k).len.val ∧
      (hostRead s a).extractLsb' 9 22 = 0#22 ∧
      (hostRead s a).getLsbD 31 = (ctEntry s k).valid) ∧
    (∀ k j i, k ≤ 256 → 1 ≤ j → j ≤ 8 → i < 32 → a.toNat = 0x1000 + 16 * k + j →
      (hostRead s a).getLsbD i = (ctEntry s k).code.getLsbD (32 * (j - 1) + i)) ∧
    ((7 ≤ a.toNat ∧ a.toNat ≤ 0x07FF) ∨ (0x0A01 ≤ a.toNat ∧ a.toNat ≤ 0x0BFF) ∨
      (0x0E01 ≤ a.toNat ∧ a.toNat ≤ 0x0FFF) ∨ 0x2010 ≤ a.toNat ∨
      (0x1000 ≤ a.toNat ∧ a.toNat ≤ 0x200F ∧ 9 ≤ a.toNat % 16) → hostRead s a = 0#32)

/-- R70: a read changes nothing of the block or the ports, at any address and while a fault is
latched; the host gets the word. Where the host keeps it is the
model's choice (log 1 DESIGN CHOICE, log 2 DESIGN CHOICE). -/
def Obligations.HostReadChangesNothing : Prop :=
  ∀ (s : State) (a : BusAddr) (ops : List HostOp), s.hostOps = .read a :: ops →
    step s = .next { s with hostOps := ops, hostReads := s.hostReads ++ [hostRead s a] }

/-- R71: what each admitted table write stores, entry by entry, and that nothing else changes. -/
def Obligations.TableWritesStoreTheirWord : Prop :=
  ∀ (s : State) (a : BusAddr) (d : Word), s.fault = false → s.dstate = .idle →
    (∀ h : Handle, h.toNat ≤ 512 → a.toNat = 0x0800 + h.toNat →
      ∃ t, hostWrite a d s = .next t ∧
        nodeSym (nodeWord t h) = d.extractLsb' 0 9 ∧ nodeZc (nodeWord t h) = d.extractLsb' 12 10 ∧
        nodeOc (nodeWord t h) = d.extractLsb' 22 10 ∧ (nodeWord t h).extractLsb' 9 3 = 0#3 ∧
        nodeValid t h = true ∧
        (∀ j : Nat, j ≠ h.toNat → t.node.read 0#32 j = s.node.read 0#32 j ∧
          t.nodeV.read false j = s.nodeV.read false j) ∧
        t = { s with node := t.node, nodeV := t.nodeV }) ∧
    (∀ h : Handle, h.toNat ≤ 512 → a.toNat = 0x0C00 + h.toNat →
      ∃ t, hostWrite a d s = .next t ∧ t.nodeW.read 0#32 h.toNat = d ∧
        (∀ j : Nat, j ≠ h.toNat → t.nodeW.read 0#32 j = s.nodeW.read 0#32 j) ∧
        t = { s with nodeW := t.nodeW }) ∧
    (∀ k, k ≤ 256 → a.toNat = 0x1000 + 16 * k → (d.extractLsb' 0 9).toNat ≤ 256 →
      ∃ t, hostWrite a d s = .next t ∧ (ctEntry t k).len.val = (d.extractLsb' 0 9).toNat ∧
        (ctEntry t k).valid = d.getLsbD 31 ∧ (ctEntry t k).code = (ctEntry s k).code ∧
        (∀ j, j ≠ k → ctEntry t j = ctEntry s j) ∧ t = { s with ct := t.ct }) ∧
    (∀ k w, k ≤ 256 → 1 ≤ w → w ≤ 8 → a.toNat = 0x1000 + 16 * k + w →
      ∃ t, hostWrite a d s = .next t ∧ (ctEntry t k).len = (ctEntry s k).len ∧
        (ctEntry t k).valid = (ctEntry s k).valid ∧
        (∀ i < 256, (ctEntry t k).code.getLsbD i =
          if 32 * (w - 1) ≤ i ∧ i < 32 * w then d.getLsbD (i - 32 * (w - 1))
          else (ctEntry s k).code.getLsbD i) ∧
        (∀ j, j ≠ k → ctEntry t j = ctEntry s j) ∧ t = { s with ct := t.ct })

/-- R71, R72, R180 cause 6: the writes that raise ILLEGAL_ACCESS and change nothing else: read-only
registers, unmapped addresses, table addresses outside IDLE, and a LEN above 256. -/
def Obligations.IllegalAccessesRaise : Prop :=
  ∀ (s : State) (a : BusAddr) (d : Word), s.fault = false →
    ((1 ≤ a.toNat ∧ a.toNat ≤ 0x07FF) ∨ (0x0A01 ≤ a.toNat ∧ a.toNat ≤ 0x0BFF) ∨
      (0x0E01 ≤ a.toNat ∧ a.toNat ≤ 0x0FFF) ∨ 0x2010 ≤ a.toNat ∨
      (0x1000 ≤ a.toNat ∧ a.toNat ≤ 0x200F ∧ 9 ≤ a.toNat % 16) ∨
      (0x0800 ≤ a.toNat ∧ s.dstate ≠ .idle) ∨
      (0x1000 ≤ a.toNat ∧ a.toNat ≤ 0x2000 ∧ a.toNat % 16 = 0 ∧
        256 < (d.extractLsb' 0 9).toNat)) →
    hostWrite a d s = .next { s with fault := true, cause := .illegalAccess }

/-- R20: the host cannot write a working register: a write outside CMD leaves every one of them but
FAULT and CAUSE, and the ports, as they were. -/
def Obligations.BusWritesLeaveTheRegisters : Prop :=
  ∀ (s t : State) (a : BusAddr) (d : Word), a ≠ 0x0000#16 → hostWrite a d s = .next t →
    t.bwAcc = s.bwAcc ∧ t.bwCnt = s.bwCnt ∧ t.brBuf = s.brBuf ∧ t.brPos = s.brPos ∧
    SameDecoder s t ∧ t.resultBit = s.resultBit ∧ t.resultEnd = s.resultEnd ∧ SamePorts s t ∧
    ((t.fault = s.fault ∧ t.cause = s.cause) ∨ (t.fault = true ∧ t.cause = .illegalAccess))

/-! ### The fault latch -/

/-- R187: while a fault is latched every host write leaves the whole state as it is, except the
word 0x00001000 written to CMD, which executes RELEASE; reads work as always: STATUS shows the
latch and its cause, every other address reads what it would read with no fault latched. -/
def Obligations.FaultedBlockIsInert : Prop :=
  ∀ s : State, s.fault = true →
    (∀ (a : BusAddr) (d : Word), ¬ (a = 0x0000#16 ∧ d = 0x00001000#32) →
      hostWrite a d s = .next s) ∧
    hostWrite 0x0000#16 0x00001000#32 s = exec .release s ∧
    (hostRead s 0x0001#16).getLsbD 2 = true ∧
    (hostRead s 0x0001#16).extractLsb' 4 4 = s.cause.code ∧
    (∀ a : BusAddr, a ≠ 0x0001#16 →
      hostRead s a = hostRead { s with fault := false, cause := .none } a)

/-- R188 check (1), at the command itself: while a fault is latched a command other than RELEASE
leaves the state as it is. That a command checks the latch too, and not only the bus write that
carries it, is the model's reading (log 9 DEDUCED). -/
def Obligations.CommandsAreIgnoredWhileFaulted : Prop :=
  ∀ (s : State) (i : Instr), s.fault = true → i ≠ .release → exec i s = .next s

/-- R190, R191: across any step a latched fault and its first cause stay, unless the step is RELEASE
or reset, which clear both. The host's operations as state and reset as one of them are the model's
(log 1 DESIGN CHOICE, log 5 DEDUCED). -/
def Obligations.OnlyReleaseOrResetClearsAFault : Prop :=
  ∀ s t : State, s.fault = true → step s = .next t →
    (clearsBlock s.hostOps = true → t.fault = false ∧ t.cause = .none) ∧
    (clearsBlock s.hostOps = false → t.fault = true ∧ t.cause = s.cause)

/-- R41 item 10, R65: across any step SNK and OUT only grow. A step is the model's (log 1 DESIGN
CHOICE). -/
def Obligations.OutputStreamsOnlyGrow : Prop :=
  ∀ s t : State, step s = .next t → s.snk <+: t.snk ∧ s.out <+: t.out

/-- R72, R36: from a state in RUN or DONE no step but RELEASE and reset changes a table or the root.
A step, and reset as one, are the model's (log 1 DESIGN CHOICE, log 5 DEDUCED). -/
def Obligations.TablesAreFrozenWhileDecoding : Prop :=
  ∀ s t : State, s.dstate ≠ .idle → clearsBlock s.hostOps = false → step s = .next t →
    t.node = s.node ∧ t.nodeV = s.nodeV ∧ t.nodeW = s.nodeW ∧ t.ct = s.ct ∧
    t.rootH = s.rootH ∧ t.rootV = s.rootV

/-- R25: nothing leaves DONE except RELEASE and reset. A step, and reset as one, are the model's
(log 1 DESIGN CHOICE, log 5 DEDUCED). -/
def Obligations.OnlyReleaseOrResetLeavesDone : Prop :=
  ∀ s t : State, s.dstate = .done → step s = .next t →
    (clearsBlock s.hostOps = true → t.dstate = .idle) ∧
    (clearsBlock s.hostOps = false → t.dstate = .done)

/-! ### Admission -/

/-- R90 step 4, R92: a command whose DSTATE is outside its row's set raises ILLEGAL_CMD and does
nothing else. -/
def Obligations.CommandsNotAdmittedRaiseIllegalCmd : Prop :=
  ∀ s : State, s.fault = false →
    (s.dstate ≠ .idle → ∀ i : Instr, (i = .ctdrv ∨ i = .dstart ∨ ∃ h, i = .setroot h) →
      exec i s = .next { s with fault := true, cause := .illegalCmd }) ∧
    (s.dstate = .idle → ∀ i : Instr, (i = .dstep ∨ i = .drun) →
      exec i s = .next { s with fault := true, cause := .illegalCmd })

/-- R156: the transition table of DSTATE. -/
def Obligations.DStateTransitions : Prop :=
  ∀ (i : Instr) (s t : State), s.fault = false → exec i s = .next t →
    t.dstate ∈ dstateAfter i s.dstate

/-! ### System family -/

/-- R171: the all-zero word and no other is NOP, NOP changes nothing in any state, and any other
word of its opcode raises ILLEGAL_CMD while no fault is latched. -/
def Obligations.NopChangesNothing : Prop :=
  (∀ cw : Word, decode cw = .ok .nop ↔ cw = 0x00000000#32) ∧
  (∀ s : State, exec .nop s = .next s) ∧
  (∀ (s : State) (cw : Word), s.fault = false → cw.extractLsb' 12 4 = 0x0#4 → cw ≠ 0x00000000#32 →
    RaisesIllegalCmd cw s)

/-- R170: the word 0x00001000 and no other is RELEASE. It completes from every state, faulted or
not, with every element of block state at the value of the rule and the ports as they were. Any
other word of its opcode raises ILLEGAL_CMD, and is ignored while a fault is latched. -/
def Obligations.ReleaseClearsTheBlock : Prop :=
  (∀ cw : Word, decode cw = .ok .release ↔ cw = 0x00001000#32) ∧
  (∀ s : State,
    hostWrite 0x0000#16 0x00001000#32 s = exec .release s ∧
    ∃ t, exec .release s = .next t ∧ AtReset t ∧ SamePorts s t ∧
      t.hostOps = s.hostOps ∧ t.hostReads = s.hostReads) ∧
  (∀ (s : State) (cw : Word), cw.extractLsb' 12 4 = 0x1#4 → cw ≠ 0x00001000#32 →
    (s.fault = false → RaisesIllegalCmd cw s) ∧
    (s.fault = true → hostWrite 0x0000#16 cw s = .next s))

/-! ### Serializer family -/

/-- R111, R110: `0x2000 | b` and no other word is WBIT of `b`. WBIT puts its bit at the position
BW_CNT, in every `DSTATE`; the eighth bit pushes the byte and empties the writer. A word of its
opcode with another bit set raises ILLEGAL_CMD. -/
def Obligations.WbitPlacesTheBit : Prop :=
  (∀ (cw : Word) (b : Bool), decode cw = .ok (.wbit b) ↔
    cw = 0x00002000#32 ||| (BitVec.ofBool b).setWidth 32) ∧
  (∀ (s : State) (b : Bool), s.fault = false →
    ∃ acc : BitVec 8,
      (∀ i < 8, acc.getLsbD i = if i = s.bwCnt.toNat then b else s.bwAcc.getLsbD i) ∧
      exec (.wbit b) s = .next (
        if s.bwCnt.toNat = 7 then { s with snk := s.snk ++ [acc], bwAcc := 0#8, bwCnt := 0#3 }
        else { s with bwAcc := acc, bwCnt := BitVec.ofNat 3 (s.bwCnt.toNat + 1) })) ∧
  (∀ (s : State) (cw : Word), s.fault = false → cw.extractLsb' 12 4 = 0x2#4 →
    (cw.extractLsb' 1 11 ≠ 0#11 ∨ cw.extractLsb' 16 16 ≠ 0#16) → RaisesIllegalCmd cw s)

/-- R114: WFLUSH pushes the partial byte and empties the writer; with no bit pending it does nothing. -/
def Obligations.WflushCompletesTheByte : Prop :=
  ∀ s : State, s.fault = false →
    exec .wflush s = .next (
      if s.bwCnt.toNat = 0 then s
      else { s with snk := s.snk ++ [s.bwAcc], bwAcc := 0#8, bwCnt := 0#3 })

/-- R113, R112: 0x4000 and no other word is RBIT. RBIT reports the next bit, from the buffer or from
a byte it pulls, or END, which changes nothing but RESULT, in every `DSTATE`. Any other word of its
opcode raises ILLEGAL_CMD. -/
def Obligations.RbitReportsTheNextBit : Prop :=
  (∀ cw : Word, decode cw = .ok .rbit ↔ cw = 0x00004000#32) ∧
  (∀ s : State, s.fault = false →
    (∀ p : Fin 9, s.brPos.val < 8 → p.val = s.brPos.val + 1 →
      exec .rbit s = .next { s with brPos := p, resultEnd := false,
                                    resultBit := s.brBuf.getLsbD s.brPos.val }) ∧
    (∀ (r : Byte) (p : Fin 9), s.brPos.val = 8 → s.src[s.srcPos]? = some r → p.val = 1 →
      exec .rbit s = .next { s with brBuf := r, brPos := p, srcPos := s.srcPos + 1,
                                    resultEnd := false, resultBit := r.getLsbD 0 }) ∧
    (s.brPos.val = 8 → s.src.length ≤ s.srcPos →
      exec .rbit s = .next { s with resultEnd := true, resultBit := false })) ∧
  (∀ (s : State) (cw : Word), s.fault = false → cw.extractLsb' 12 4 = 0x4#4 → cw ≠ 0x00004000#32 →
    RaisesIllegalCmd cw s)

/-- R115, first half: bits written from an empty writer and flushed are the appended bytes, in order,
least significant bit first, with zero padding. -/
def Obligations.WriterStreamPositionLaw : Prop :=
  ∀ (s : State) (bits : List Bool), s.fault = false → s.bwCnt = 0#3 → s.bwAcc = 0#8 →
    ∃ (t : State) (bytes : List Byte),
      execAll (bits.map .wbit ++ [.wflush]) s = .next t ∧ t.snk = s.snk ++ bytes ∧
      bytes.length = (bits.length + 7) / 8 ∧
      ∀ k < 8 * bytes.length, (bytes.getD (k / 8) 0#8).getLsbD (k % 8) = bits.getD k false

/-- R115, second half: the `k`-th bit read from an empty reader, and END past the end. -/
def Obligations.ReaderStreamPositionLaw : Prop :=
  ∀ (s : State) (rest : List Byte) (k : Nat), s.fault = false → s.brPos.val = 8 →
    s.srcPos ≤ s.src.length → s.src.drop s.srcPos = rest →
    ∃ t : State, execAll (List.replicate (k + 1) .rbit) s = .next t ∧
      (k < 8 * rest.length → t.resultEnd = false ∧
        t.resultBit = (rest.getD (k / 8) 0#8).getLsbD (k % 8) ∧
        t.srcPos = s.srcPos + (k / 8 + 1)) ∧
      (8 * rest.length ≤ k → t.resultEnd = true ∧ t.resultBit = false ∧
        t.srcPos = s.src.length)

/-- R116, R157: the writer's commands neither read nor write the reader, RBIT neither reads nor writes
the writer, and the decoder neither reads nor writes the writer, SNK or the code table: with the other
part's state replaced they do the same and leave it in place. -/
def Obligations.WriterAndReaderAreIndependent : Prop :=
  ∀ s t : State,
    (∀ (i : Instr) (buf : BitVec 8) (pos : Fin 9) (src : List Byte) (n : Nat),
      ((∃ b, i = .wbit b) ∨ i = .wflush ∨ ∃ y, i = .enc y) → exec i s = .next t →
      exec i { s with brBuf := buf, brPos := pos, src := src, srcPos := n } =
        .next { t with brBuf := buf, brPos := pos, src := src, srcPos := n }) ∧
    (∀ (i : Instr) (acc : BitVec 8) (cnt : BitVec 3) (snk : List Byte) (tab : Memory CtEntry),
      (i = .rbit ∨ i = .dstart ∨ i = .dstep ∨ i = .drun) → exec i s = .next t →
      exec i { s with bwAcc := acc, bwCnt := cnt, snk := snk, ct := tab } =
        .next { t with bwAcc := acc, bwCnt := cnt, snk := snk, ct := tab })

/-- The frame of WBIT, WFLUSH and ENC: the reader, the decoder, RESULT, the tables, SRC and OUT are
unchanged; WBIT and WFLUSH leave FAULT and CAUSE; ENC may latch INTERNAL_CONSISTENCY and then
leaves the writer and SNK too. -/
def Obligations.WriterCommandsFrame : Prop :=
  ∀ (i : Instr) (s t : State), ((∃ b, i = .wbit b) ∨ i = .wflush ∨ ∃ y, i = .enc y) →
    exec i s = .next t →
    t.brBuf = s.brBuf ∧ t.brPos = s.brPos ∧ SameDecoder s t ∧ t.resultBit = s.resultBit ∧
    t.resultEnd = s.resultEnd ∧ SameTables s t ∧ t.src = s.src ∧ t.srcPos = s.srcPos ∧
    t.out = s.out ∧
    ((t.fault = s.fault ∧ t.cause = s.cause) ∨
      ((∃ y, i = .enc y) ∧ t.fault = true ∧ t.cause = .internalConsistency ∧
        t.bwAcc = s.bwAcc ∧ t.bwCnt = s.bwCnt ∧ t.snk = s.snk))

/-- The frame of RBIT: only the reader, SRC_POS and RESULT may change. -/
def Obligations.RbitFrame : Prop :=
  ∀ s t : State, exec .rbit s = .next t →
    t.bwAcc = s.bwAcc ∧ t.bwCnt = s.bwCnt ∧ SameDecoder s t ∧ t.fault = s.fault ∧
    t.cause = s.cause ∧ SameTables s t ∧ t.src = s.src ∧ t.snk = s.snk ∧ t.out = s.out

/-! ### Code table family -/

/-- R132: ENC of a symbol with an entry writes exactly its `LEN` code bits, `CODE[0]` first, and
touches only the writer and SNK. -/
def Obligations.EncWritesTheCode : Prop :=
  ∀ (s : State) (y : Symbol), s.fault = false → y.toNat ≤ 256 →
    (ctEntry s y.toNat).valid = true →
    ∃ t : State, exec (.enc y) s = .next t ∧
      writtenBits t = writtenBits s ++
        (List.range (ctEntry s y.toNat).len.val).map (fun i => (ctEntry s y.toNat).code.getLsbD i) ∧
      execAll ((List.range (ctEntry s y.toNat).len.val).map
        (fun i => .wbit ((ctEntry s y.toNat).code.getLsbD i))) s = .next t ∧
      t = { s with bwAcc := t.bwAcc, bwCnt := t.bwCnt, snk := t.snk }

/-- R132, R182: ENC of a symbol with no entry, 257..511 among them, raises INTERNAL_CONSISTENCY
before any bit is written. -/
def Obligations.EncOfAMissingSymbolFaults : Prop :=
  ∀ (s : State) (y : Symbol), s.fault = false →
    (256 < y.toNat ∨ (ctEntry s y.toNat).valid = false) →
    exec (.enc y) s = .next { s with fault := true, cause := .internalConsistency }

/-- R133, R134, R136, R218: on a well-formed image CTDRV completes and gives each symbol of 0..256
exactly the path from the root to its leaf; a symbol with no leaf gets the empty entry and code
bits at or above LEN are 0. -/
def Obligations.CtdrvDerivesAWellFormedTree : Prop :=
  ∀ s : State, s.fault = false → s.dstate = .idle → WellFormedImage s →
    ∃ tab : Memory CtEntry, exec .ctdrv s = .next { s with ct := tab } ∧
      ∀ k, k ≤ 256 →
        (∀ c, hasCode { s with ct := tab } k c ↔
          ∃ h, leadsTo s s.rootH c h ∧ (nodeSym (nodeWord s h)).toNat = k) ∧
        ((ctEntry { s with ct := tab } k).valid = false →
          ctEntry { s with ct := tab } k = CtEntry.empty) ∧
        (∀ i, (ctEntry { s with ct := tab } k).len.val ≤ i →
          (ctEntry { s with ct := tab } k).code.getLsbD i = false)

/-- R133, R134, R183, R184: on any image CTDRV replaces the whole table or latches EMPTY_TREE or
BAD_TREE and changes nothing else; EMPTY_TREE exactly when no root is set. It succeeds exactly when
every node the root reaches is written and is an internal node above depth 256 or a leaf of a symbol
of at most 256, and no symbol is reached on two paths; the codes are then exactly the paths to the
leaves. -/
def Obligations.CtdrvIsAllOrNothing : Prop :=
  ∀ s : State, s.fault = false → s.dstate = .idle →
    ∃ t : State, exec .ctdrv s = .next t ∧
      (s.rootV = false → t = { s with fault := true, cause := .emptyTree }) ∧
      (s.rootV = true → t.fault = true → t = { s with fault := true, cause := .badTree }) ∧
      (t.fault = false ↔ s.rootV = true ∧
        (∀ c h, leadsTo s s.rootH c h → written s h = true ∧
          ((isInternal s h ∧ c.length < 256) ∨ (nodeSym (nodeWord s h)).toNat ≤ 256)) ∧
        (∀ c d g h, leadsTo s s.rootH c g → leadsTo s s.rootH d h →
          (nodeSym (nodeWord s g)).toNat ≤ 256 →
          nodeSym (nodeWord s g) = nodeSym (nodeWord s h) → c = d)) ∧
      (t.fault = false → t = { s with ct := t.ct } ∧
        ∀ k, k ≤ 256 → ∀ c, hasCode t k c ↔
          ∃ h, leadsTo s s.rootH c h ∧ written s h = true ∧ (nodeSym (nodeWord s h)).toNat = k)

/-- R135: a table CTDRV leaves is prefix-free, and every symbol valid in it has exactly one leaf on
exactly one path. -/
def Obligations.DerivedTableIsPrefixFree : Prop :=
  ∀ s t : State, s.fault = false → s.dstate = .idle → exec .ctdrv s = .next t → t.fault = false →
    (∀ a b ca cb, a ≤ 256 → b ≤ 256 → a ≠ b → hasCode t a ca → hasCode t b cb → ¬ ca <+: cb) ∧
    (∀ a, a ≤ 256 → (ctEntry t a).valid = true →
      ∃ c h, leadsTo s s.rootH c h ∧ (nodeSym (nodeWord s h)).toNat = a ∧
        ∀ c' h', leadsTo s s.rootH c' h' → (nodeSym (nodeWord s h')).toNat = a → c' = c ∧ h' = h)

/-- R32, V14: the weights are never read: with any other weights every command does the same and
leaves them in place (RELEASE clears them). -/
def Obligations.WeightsAreNeverRead : Prop :=
  ∀ (i : Instr) (s t : State) (w : Memory Word), exec i s = .next t →
    (i ≠ .release → exec i { s with nodeW := w } = .next { t with nodeW := w }) ∧
    (i = .release → exec i { s with nodeW := w } = .next t)

/-- R36: no command but RELEASE changes NODE, NODE_V or NODEW, none but RELEASE and CTDRV changes
CT, none but RELEASE and SETROOT changes the root, and none at all changes SRC or the host's side. -/
def Obligations.CommandsLeaveTheTree : Prop :=
  ∀ (i : Instr) (s t : State), exec i s = .next t →
    (i ≠ .release → t.node = s.node ∧ t.nodeV = s.nodeV ∧ t.nodeW = s.nodeW) ∧
    (i ≠ .release → i ≠ .ctdrv → t.ct = s.ct) ∧
    (i ≠ .release → (∀ h, i ≠ .setroot h) → t.rootH = s.rootH ∧ t.rootV = s.rootV) ∧
    t.src = s.src ∧ t.hostOps = s.hostOps ∧ t.hostReads = s.hostReads

/-- The frame of CTDRV and SETROOT: neither touches the serializer, RESULT, CUR, DSTATE, the node
and weight memories or the ports. -/
def Obligations.CtdrvAndSetrootFrame : Prop :=
  ∀ (i : Instr) (s t : State), (i = .ctdrv ∨ ∃ h, i = .setroot h) → exec i s = .next t →
    t.bwAcc = s.bwAcc ∧ t.bwCnt = s.bwCnt ∧ t.brBuf = s.brBuf ∧ t.brPos = s.brPos ∧
    t.cur = s.cur ∧ t.dstate = s.dstate ∧ t.resultBit = s.resultBit ∧ t.resultEnd = s.resultEnd ∧
    t.node = s.node ∧ t.nodeV = s.nodeV ∧ t.nodeW = s.nodeW ∧ SamePorts s t ∧
    (i = .ctdrv → t.rootH = s.rootH ∧ t.rootV = s.rootV) ∧
    ((∃ h, i = .setroot h) → t.ct = s.ct)

/-! ### Traversal family -/

/-- R150: SETROOT declares the root, without looking at the node memory; a handle above 512 raises
ILLEGAL_CMD. -/
def Obligations.SetrootDeclaresTheRoot : Prop :=
  ∀ (s : State) (h : Handle), s.fault = false →
    (s.dstate = .idle → h.toNat ≤ 512 → exec (.setroot h) s = .next { s with rootH := h, rootV := true }) ∧
    (512 < h.toNat → exec (.setroot h) s = .next { s with fault := true, cause := .illegalCmd })

/-- R152: DSTART goes to RUN at an internal root, to DONE at the pseudo-EOF root, and faults
EMPTY_TREE before BAD_TREE. -/
def Obligations.DstartGoesToTheRoot : Prop :=
  ∀ s : State, s.fault = false → s.dstate = .idle →
    (s.rootV = false → exec .dstart s = .next { s with fault := true, cause := .emptyTree }) ∧
    (s.rootV = true → s.rootH.toNat ≤ 512 →
      (nodeValid s s.rootH = true → nodeSym (nodeWord s s.rootH) = 256#9 →
        exec .dstart s = .next { s with cur := s.rootH, dstate := .done }) ∧
      (nodeValid s s.rootH = true → nodeSym (nodeWord s s.rootH) = 257#9 →
        exec .dstart s = .next { s with cur := s.rootH, dstate := .run }) ∧
      ((nodeValid s s.rootH = false ∨ ((nodeSym (nodeWord s s.rootH)).toNat ≠ 256 ∧
          (nodeSym (nodeWord s s.rootH)).toNat ≠ 257)) →
        exec .dstart s = .next { s with fault := true, cause := .badTree }))

/-- R153: one DSTEP in RUN consumes the bit RBIT would report and walks one edge. `u` is the state
with that bit consumed and `n` the child it selects. With no bit left it latches MALFORMED_STREAM
and changes nothing else. -/
def Obligations.DstepWalksOneEdge : Prop :=
  ∀ s r u : State, ∀ n : Handle, s.fault = false → s.dstate = .run → s.cur.toNat ≤ 512 →
    exec .rbit s = .next r →
    n = childOf s s.cur r.resultBit →
    u = { s with brBuf := r.brBuf, brPos := r.brPos, srcPos := r.srcPos } →
    (r.resultEnd = true →
      exec .dstep s = .next { s with fault := true, cause := .malformedStream }) ∧
    (r.resultEnd = false →
      (n.toNat ≤ 512 → nodeValid s n = true →
        (nodeSym (nodeWord s n) = 257#9 → exec .dstep s = .next { u with cur := n }) ∧
        (nodeSym (nodeWord s n) = 256#9 →
          exec .dstep s = .next { u with cur := n, dstate := .done }) ∧
        ((nodeSym (nodeWord s n)).toNat ≤ 255 →
          exec .dstep s = .next { u with out := s.out ++ [BitVec.ofNat 8 (nodeSym (nodeWord s n)).toNat],
                                         cur := s.rootH }) ∧
        (258 ≤ (nodeSym (nodeWord s n)).toNat →
          exec .dstep s = .next { u with fault := true, cause := .badTree })) ∧
      ((512 < n.toNat ∨ nodeValid s n = false) →
        exec .dstep s = .next { u with fault := true, cause := .badTree }))

/-- R153: DSTEP completes. In RUN with no fault and a bit `b` left, at a node whose child on `b` is
written and carries no reserved symbol, it answers the state with that one bit consumed and the child
arrived at, and nothing else changed. -/
def Obligations.DstepCompletes : Prop :=
  ∀ (s : State) (b : Bool) (rest : List Bool) (n : Handle), s.fault = false → s.dstate = .run →
    s.cur.toNat ≤ 512 → remainingBits s = b :: rest → n = childOf s s.cur b →
    n.toNat ≤ 512 → nodeValid s n = true → (nodeSym (nodeWord s n)).toNat ≤ 257 →
    ∃ t, exec .dstep s = .next t ∧ remainingBits t = rest ∧
      t = { s with
        brBuf := t.brBuf, brPos := t.brPos, srcPos := t.srcPos
        cur := if (nodeSym (nodeWord s n)).toNat ≤ 255 then s.rootH else n
        dstate := if nodeSym (nodeWord s n) = 256#9 then .done else .run
        out := if (nodeSym (nodeWord s n)).toNat ≤ 255
          then s.out ++ [BitVec.ofNat 8 (nodeSym (nodeWord s n)).toNat] else s.out }

/-- R153, R155: in DONE both DSTEP and DRUN do nothing. -/
def Obligations.DstepAndDrunAreNoOpsInDone : Prop :=
  ∀ s : State, s.dstate = .done → exec .dstep s = .next s ∧ exec .drun s = .next s

/-- R155: DRUN is exactly as many DSTEP commands as there are bits left and one more, in every state,
and after it the decoder is not in RUN without a fault: the sequence is never cut off. -/
def Obligations.DrunIsASequenceOfDsteps : Prop :=
  ∀ s : State, ∃ t, exec .drun s = .next t ∧
    execAll (List.replicate (8 * (s.src.length - s.srcPos) + (8 - s.brPos.val) + 1) .dstep) s =
      .next t ∧
    ¬ (t.dstate = .run ∧ t.fault = false)

/-- R155, R156: DRUN always ends: started in RUN it stops in DONE with no fault, or in RUN with
MALFORMED_STREAM or BAD_TREE latched. -/
def Obligations.DrunEndsDoneOrFaulted : Prop :=
  ∀ s : State, Inv s → s.fault = false → s.dstate = .run →
    ∃ t, exec .drun s = .next t ∧
      ((t.dstate = .done ∧ t.fault = false ∧ t.cause = .none) ∨
       (t.dstate = .run ∧ t.fault = true ∧ (t.cause = .malformedStream ∨ t.cause = .badTree)))

/-- R155, R157: DRUN completes. From RUN at the root of a well-formed image, with the codes of the
message and then the code of the pseudo-EOF leaf `g` as the next bits, it emits the message, stops
in DONE at `g` with no fault, leaves every bit after them, and changes nothing else. -/
def Obligations.DrunDecodesTheMessage : Prop :=
  ∀ (s : State) (msg : List Byte) (codes : List (List Bool)) (last tail : List Bool) (g : Handle),
    s.fault = false → s.dstate = .run → WellFormedImage s → s.cur = s.rootH →
    isInternal s s.rootH →
    List.Forall₂ (fun b c => ∃ h, leadsTo s s.rootH c h ∧
      (nodeSym (nodeWord s h)).toNat = b.toNat) msg codes →
    leadsTo s s.rootH last g → nodeSym (nodeWord s g) = 256#9 →
    remainingBits s = codes.flatten ++ last ++ tail →
    ∃ t, exec .drun s = .next t ∧ remainingBits t = tail ∧
      t = { s with brBuf := t.brBuf, brPos := t.brPos, srcPos := t.srcPos,
                   out := s.out ++ msg, cur := g, dstate := .done }

/-- R35, D15: a handle above 512 in ROOT or CUR is BAD_TREE when it is about to be followed: DSTART
changes nothing else, and DSTEP and DRUN have consumed their bit (R186), or report the end of the
source first (R188). R152 and R153 leave the check out of their pseudocode, and that it is made there
is the model's reading (log 6 DEDUCED); no state that meets the invariant has such a handle. -/
def Obligations.HandlesAbove512RaiseBadTree : Prop :=
  ∀ s : State, s.fault = false →
    (s.dstate = .idle → s.rootV = true → 512 < s.rootH.toNat →
      exec .dstart s = .next { s with fault := true, cause := .badTree } ∧ ¬ Inv s) ∧
    (s.dstate = .run → 512 < s.cur.toNat → ¬ Inv s ∧
      (remainingBits s = [] → ∀ i : Instr, (i = .dstep ∨ i = .drun) →
        exec i s = .next { s with fault := true, cause := .malformedStream }) ∧
      (∀ b rest, remainingBits s = b :: rest → ∃ buf pos n,
        remainingBits { s with brBuf := buf, brPos := pos, srcPos := n } = rest ∧
        ∀ i : Instr, (i = .dstep ∨ i = .drun) →
          exec i s = .next { s with brBuf := buf, brPos := pos, srcPos := n,
                                    fault := true, cause := .badTree }))

/-- The frame of DSTART, DSTEP and DRUN: the writer, SNK, the root, RESULT, the tables and SRC are
unchanged; DSTART reads no bit and emits nothing. -/
def Obligations.DecoderCommandsFrame : Prop :=
  ∀ (i : Instr) (s t : State), (i = .dstart ∨ i = .dstep ∨ i = .drun) → exec i s = .next t →
    t.bwAcc = s.bwAcc ∧ t.bwCnt = s.bwCnt ∧ t.snk = s.snk ∧ t.rootH = s.rootH ∧
    t.rootV = s.rootV ∧ t.resultBit = s.resultBit ∧ t.resultEnd = s.resultEnd ∧ SameTables s t ∧
    t.src = s.src ∧
    (i = .dstart → t.brBuf = s.brBuf ∧ t.brPos = s.brPos ∧ t.srcPos = s.srcPos ∧ t.out = s.out)

/-- R157: what the decoder does not read. If DRUN stops cleanly after the bits `used`, then from any
reader and SRC whose bits begin with `used` it gives the same OUT, STATUS and CUR, and leaves every
bit after them. -/
def Obligations.BitsAfterTheEndCannotMatter : Prop :=
  ∀ (s t s' : State) (used tail : List Bool), s.fault = false → s.dstate = .run →
    exec .drun s = .next t → t.dstate = .done → remainingBits s = used ++ remainingBits t →
    s' = { s with brBuf := s'.brBuf, brPos := s'.brPos, src := s'.src, srcPos := s'.srcPos } →
    remainingBits s' = used ++ tail →
    ∃ t', exec .drun s' = .next t' ∧ t'.out = t.out ∧ t'.cur = t.cur ∧
      hostRead t' 0x0001#16 = hostRead t 0x0001#16 ∧ remainingBits t' = tail

/-- R158, first half: with the derived table, what ENC of a message, ENC of PEOF and WFLUSH push
decodes to the message on any instance with the same image and an empty reader on those bytes. -/
def Obligations.DecodingInvertsEncoding : Prop :=
  ∀ (s t : State) (msg : List Byte), s.fault = false → s.dstate = .idle → WellFormedImage s →
    s.bwCnt = 0#3 → exec .ctdrv s = .next t → t.fault = false →
    (∀ b ∈ msg, ∃ h, Reachable s h ∧ (nodeSym (nodeWord s h)).toNat = b.toNat) →
    ∃ (w : State) (bytes : List Byte),
      execAll (encodeCommands msg) t = .next w ∧ w.fault = false ∧ w.snk = s.snk ++ bytes ∧
      ∀ u : State, SameImage s u → u.fault = false → u.dstate = .idle → u.brPos.val = 8 →
        u.src.drop u.srcPos = bytes →
        ∃ v, execAll [.dstart, .drun] u = .next v ∧ v.fault = false ∧ v.dstate = .done ∧
          v.out = u.out ++ msg

/-- R158, second half: any proper prefix of those bytes ends in MALFORMED_STREAM, in RUN, with a
prefix of the message emitted. -/
def Obligations.TruncatedStreamIsMalformed : Prop :=
  ∀ (s t : State) (msg : List Byte), s.fault = false → s.dstate = .idle → WellFormedImage s →
    s.bwCnt = 0#3 → exec .ctdrv s = .next t → t.fault = false →
    (∀ b ∈ msg, ∃ h, Reachable s h ∧ (nodeSym (nodeWord s h)).toNat = b.toNat) →
    ∃ (w : State) (bytes : List Byte),
      execAll (encodeCommands msg) t = .next w ∧ w.snk = s.snk ++ bytes ∧
      ∀ (u : State) (cut : List Byte), SameImage s u → u.fault = false → u.dstate = .idle →
        u.brPos.val = 8 → u.src.drop u.srcPos = cut → cut <+: bytes → cut ≠ bytes →
        ∃ v, execAll [.dstart, .drun] u = .next v ∧ v.fault = true ∧
          v.cause = .malformedStream ∧ v.dstate = .run ∧
          ∃ q, q <+: msg ∧ v.out = u.out ++ q

/-! ### Host reference procedures -/

/-- R214: the frequency table counts each byte of the input, holds PEOF once and nothing else, and
its counts sum to `|S| + 1`. An unlisted symbol has count 0 in the model (log 12 DESIGN CHOICE). -/
def Obligations.FrequencyTableCountsTheInput : Prop :=
  ∀ bytes : List Byte,
    (∀ b : Byte, (buildFrequencyTable bytes).read 0 b.toNat = bytes.count b) ∧
    (buildFrequencyTable bytes).read 0 256 = 1 ∧
    (∀ k, 256 < k → (buildFrequencyTable bytes).read 0 k = 0) ∧
    totalCount (buildFrequencyTable bytes) = bytes.length + 1

/-- R216: a table gives "no tree" exactly when no symbol is present; a tree's leaves are the present
symbols with their counts, once each, and every internal node weighs what its children weigh. A
table entry of count 0 is no entry (log 12 DESIGN CHOICE). -/
def Obligations.BuildTreeHoldsThePresentSymbols : Prop :=
  ∀ f : FreqTable,
    (buildTree f = none ↔ ∀ k, k ≤ 256 → f.read 0 k = 0) ∧
    (∀ t, buildTree f = some t → t.weightsAdd ∧
      t.leaves.Perm ((presentSymbols f).map fun k => (BitVec.ofNat 9 k, f.read 0 k)))

/-- R221, D33, R181, 90_conflicts.md C1: in any TABLE_FORMAT, the stored table of an input a call may
start with (R219) decompresses as the table itself. A host that finds a stored table unparsable or empty
reports MalformedStream and gives the block nothing; one that goes on with an empty table sets no root
and issues DSTART and DRUN all the same. The procedures as functions are the model's (log 12 DESIGN
CHOICE). -/
def Obligations.StoredTableDecompressesAlike : Prop :=
  ∀ (fmt : TableFormat) (bitstream : List Byte),
    (∀ input : List Byte, FreqTable.wf (buildFrequencyTable input) ∧
      (mayStart (buildFrequencyTable input) = true →
        opsDecompressStored fmt (fmt.serialise (buildFrequencyTable input)) bitstream =
          .ok (opsDecompress (buildFrequencyTable input) bitstream) ∧
        opsDecompressRegardless fmt (fmt.serialise (buildFrequencyTable input)) bitstream =
          .ok (opsDecompress (buildFrequencyTable input) bitstream))) ∧
    (∀ stored : List Byte, fmt.parse stored = none →
      opsDecompressStored fmt stored bitstream = .error .malformedStream ∧
      opsDecompressRegardless fmt stored bitstream = .error .malformedStream) ∧
    (∀ (stored : List Byte) (f : FreqTable), fmt.parse stored = some f →
      ((∃ k, k ≤ 256 ∧ 1 ≤ f.read 0 k) →
        opsDecompressStored fmt stored bitstream = .ok (opsDecompress f bitstream) ∧
        opsDecompressRegardless fmt stored bitstream = .ok (opsDecompress f bitstream)) ∧
      ((∀ k, k ≤ 256 → f.read 0 k = 0) →
        opsDecompressStored fmt stored bitstream = .error .malformedStream ∧
        opsDecompressRegardless fmt stored bitstream =
          .ok [.openSrc bitstream, .write 0x0000#16 0x00008000#32, .write 0x0000#16 0x0000A000#32,
            .read 0x0001#16, .write 0x0000#16 0x00001000#32]))
end

