-- ==== Sys2Proof/Laws/Memory.lean ====
section
/-! SUPPORT. The laws of the table memories: a read after a write, and that every write keeps the
canonical form. -/

namespace Sys2Proof.Machine

variable {α : Type}

@[simp] theorem Memory.read_nil (d : α) (k : Nat) : Memory.read d [] k = d := rfl

@[simp] theorem Memory.read_cons (d : α) (j k : Nat) (v : α) (m : Memory α) :
    Memory.read d ((j, v) :: m) k = if j = k then v else Memory.read d m k := rfl

theorem Memory.read_erase (d : α) (m : Memory α) (k j : Nat) :
    Memory.read d (m.filter fun c => c.1 != k) j = if j = k then d else Memory.read d m j := by
  induction m with
  | nil => simp
  | cons c m ih =>
    obtain ⟨i, v⟩ := c
    by_cases hi : i = k
    · subst hi
      simp only [List.filter_cons, bne_self_eq_false, Bool.false_eq_true, if_false, ih,
        Memory.read_cons]
      grind
    · have hb : (i != k) = true := by simpa using hi
      simp only [List.filter_cons, hb, if_true, Memory.read_cons, ih]
      grind

theorem Memory.read_insert (d : α) (m : Memory α) (k j : Nat) (v : α)
    (hk : ∀ c ∈ m, c.1 ≠ k) :
    Memory.read d (Memory.insert k v m) j = if j = k then v else Memory.read d m j := by
  induction m with
  | nil => simp [Memory.insert, eq_comm]
  | cons c m ih =>
    obtain ⟨i, w⟩ := c
    have hi : i ≠ k := hk (i, w) (by simp)
    have hm : ∀ c ∈ m, c.1 ≠ k := fun c hc => hk c (List.mem_cons_of_mem _ hc)
    unfold Memory.insert
    split
    · simp only [Memory.read_cons]; grind
    · simp only [Memory.read_cons, ih hm]; grind

/-- A read after a write: the written index has the new value, every other index its old one. -/
@[simp] theorem Memory.read_write [DecidableEq α] (d : α) (m : Memory α) (k j : Nat) (v : α) :
    Memory.read d (Memory.write d m k v) j = if j = k then v else Memory.read d m j := by
  unfold Memory.write
  split
  · next h => rw [Memory.read_erase]; grind
  · rw [Memory.read_insert, Memory.read_erase]
    · grind
    · intro c hc; simpa using (List.mem_filter.mp hc).2

theorem Memory.mem_insert (k : Nat) (v : α) (m : Memory α) (c : Nat × α) :
    c ∈ Memory.insert k v m ↔ c = (k, v) ∨ c ∈ m := by
  induction m with
  | nil => simp [Memory.insert]
  | cons a m ih =>
    obtain ⟨i, w⟩ := a
    unfold Memory.insert
    split
    · simp
    · simp only [List.mem_cons, ih]; tauto

theorem Memory.pairwise_insert (k : Nat) (v : α) (m : Memory α)
    (hm : m.Pairwise fun a b => a.1 < b.1) (hk : ∀ c ∈ m, c.1 ≠ k) :
    (Memory.insert k v m).Pairwise fun a b => a.1 < b.1 := by
  induction m with
  | nil => simp [Memory.insert]
  | cons a m ih =>
    obtain ⟨i, w⟩ := a
    obtain ⟨ha, hm'⟩ := List.pairwise_cons.mp hm
    have hi : i ≠ k := hk (i, w) (by simp)
    unfold Memory.insert
    split
    · next h =>
      refine List.pairwise_cons.mpr ⟨fun c hc => ?_, hm⟩
      rcases List.mem_cons.mp hc with rfl | hc
      · exact h
      · exact lt_trans h (ha c hc)
    · refine List.pairwise_cons.mpr
        ⟨fun c hc => ?_, ih hm' fun c hc => hk c (List.mem_cons_of_mem _ hc)⟩
      rcases (Memory.mem_insert k v m c).mp hc with rfl | hc
      · simp only; omega
      · exact ha c hc

theorem Memory.wf_nil (n : Nat) (d : α) : Memory.wf n d [] := by simp [Memory.wf]

/-- Every write inside the table keeps the canonical form. -/
theorem Memory.wf_write [DecidableEq α] {n : Nat} {d : α} {m : Memory α} {k : Nat} (v : α)
    (hm : Memory.wf n d m) (hk : k < n) : Memory.wf n d (Memory.write d m k v) := by
  obtain ⟨hp, hc⟩ := hm
  have hp' : (m.filter fun c => c.1 != k).Pairwise fun a b => a.1 < b.1 := hp.filter _
  unfold Memory.write
  split
  · exact ⟨hp', fun c h => hc c (List.mem_filter.mp h).1⟩
  · next hv =>
    refine ⟨Memory.pairwise_insert k v _ hp' fun c h => by simpa using (List.mem_filter.mp h).2,
      fun c h => ?_⟩
    rcases (Memory.mem_insert k v _ c).mp h with rfl | h
    · exact ⟨hk, hv⟩
    · exact hc c (List.mem_filter.mp h).1

end Sys2Proof.Machine
end

