-- ==== Sys2Proof/Laws/State.lean ====
section
/-! SUPPORT. What each update of the state leaves in each field, one lemma per field per update, so
that no proof unfolds a record update. -/

namespace Sys2Proof.Machine

variable (s : State)

/-! ### setWriter -/

@[simp] theorem setWriter_bwAcc (a : BitVec 8) (c : BitVec 3) : (setWriter a c s).bwAcc = a := rfl
@[simp] theorem setWriter_bwCnt (a : BitVec 8) (c : BitVec 3) : (setWriter a c s).bwCnt = c := rfl
@[simp] theorem setWriter_brBuf (a : BitVec 8) (c : BitVec 3) : (setWriter a c s).brBuf = s.brBuf := rfl
@[simp] theorem setWriter_brPos (a : BitVec 8) (c : BitVec 3) : (setWriter a c s).brPos = s.brPos := rfl
@[simp] theorem setWriter_cur (a : BitVec 8) (c : BitVec 3) : (setWriter a c s).cur = s.cur := rfl
@[simp] theorem setWriter_rootH (a : BitVec 8) (c : BitVec 3) : (setWriter a c s).rootH = s.rootH := rfl
@[simp] theorem setWriter_rootV (a : BitVec 8) (c : BitVec 3) : (setWriter a c s).rootV = s.rootV := rfl
@[simp] theorem setWriter_dstate (a : BitVec 8) (c : BitVec 3) : (setWriter a c s).dstate = s.dstate := rfl
@[simp] theorem setWriter_fault (a : BitVec 8) (c : BitVec 3) : (setWriter a c s).fault = s.fault := rfl
@[simp] theorem setWriter_cause (a : BitVec 8) (c : BitVec 3) : (setWriter a c s).cause = s.cause := rfl
@[simp] theorem setWriter_resultBit (a : BitVec 8) (c : BitVec 3) : (setWriter a c s).resultBit = s.resultBit := rfl
@[simp] theorem setWriter_resultEnd (a : BitVec 8) (c : BitVec 3) : (setWriter a c s).resultEnd = s.resultEnd := rfl
@[simp] theorem setWriter_node (a : BitVec 8) (c : BitVec 3) : (setWriter a c s).node = s.node := rfl
@[simp] theorem setWriter_nodeV (a : BitVec 8) (c : BitVec 3) : (setWriter a c s).nodeV = s.nodeV := rfl
@[simp] theorem setWriter_nodeW (a : BitVec 8) (c : BitVec 3) : (setWriter a c s).nodeW = s.nodeW := rfl
@[simp] theorem setWriter_ct (a : BitVec 8) (c : BitVec 3) : (setWriter a c s).ct = s.ct := rfl
@[simp] theorem setWriter_src (a : BitVec 8) (c : BitVec 3) : (setWriter a c s).src = s.src := rfl
@[simp] theorem setWriter_srcPos (a : BitVec 8) (c : BitVec 3) : (setWriter a c s).srcPos = s.srcPos := rfl
@[simp] theorem setWriter_snk (a : BitVec 8) (c : BitVec 3) : (setWriter a c s).snk = s.snk := rfl
@[simp] theorem setWriter_out (a : BitVec 8) (c : BitVec 3) : (setWriter a c s).out = s.out := rfl
@[simp] theorem setWriter_hostOps (a : BitVec 8) (c : BitVec 3) : (setWriter a c s).hostOps = s.hostOps := rfl
@[simp] theorem setWriter_hostReads (a : BitVec 8) (c : BitVec 3) : (setWriter a c s).hostReads = s.hostReads := rfl

/-! ### setReader -/

@[simp] theorem setReader_bwAcc (b : BitVec 8) (p : Fin 9) : (setReader b p s).bwAcc = s.bwAcc := rfl
@[simp] theorem setReader_bwCnt (b : BitVec 8) (p : Fin 9) : (setReader b p s).bwCnt = s.bwCnt := rfl
@[simp] theorem setReader_brBuf (b : BitVec 8) (p : Fin 9) : (setReader b p s).brBuf = b := rfl
@[simp] theorem setReader_brPos (b : BitVec 8) (p : Fin 9) : (setReader b p s).brPos = p := rfl
@[simp] theorem setReader_cur (b : BitVec 8) (p : Fin 9) : (setReader b p s).cur = s.cur := rfl
@[simp] theorem setReader_rootH (b : BitVec 8) (p : Fin 9) : (setReader b p s).rootH = s.rootH := rfl
@[simp] theorem setReader_rootV (b : BitVec 8) (p : Fin 9) : (setReader b p s).rootV = s.rootV := rfl
@[simp] theorem setReader_dstate (b : BitVec 8) (p : Fin 9) : (setReader b p s).dstate = s.dstate := rfl
@[simp] theorem setReader_fault (b : BitVec 8) (p : Fin 9) : (setReader b p s).fault = s.fault := rfl
@[simp] theorem setReader_cause (b : BitVec 8) (p : Fin 9) : (setReader b p s).cause = s.cause := rfl
@[simp] theorem setReader_resultBit (b : BitVec 8) (p : Fin 9) : (setReader b p s).resultBit = s.resultBit := rfl
@[simp] theorem setReader_resultEnd (b : BitVec 8) (p : Fin 9) : (setReader b p s).resultEnd = s.resultEnd := rfl
@[simp] theorem setReader_node (b : BitVec 8) (p : Fin 9) : (setReader b p s).node = s.node := rfl
@[simp] theorem setReader_nodeV (b : BitVec 8) (p : Fin 9) : (setReader b p s).nodeV = s.nodeV := rfl
@[simp] theorem setReader_nodeW (b : BitVec 8) (p : Fin 9) : (setReader b p s).nodeW = s.nodeW := rfl
@[simp] theorem setReader_ct (b : BitVec 8) (p : Fin 9) : (setReader b p s).ct = s.ct := rfl
@[simp] theorem setReader_src (b : BitVec 8) (p : Fin 9) : (setReader b p s).src = s.src := rfl
@[simp] theorem setReader_srcPos (b : BitVec 8) (p : Fin 9) : (setReader b p s).srcPos = s.srcPos := rfl
@[simp] theorem setReader_snk (b : BitVec 8) (p : Fin 9) : (setReader b p s).snk = s.snk := rfl
@[simp] theorem setReader_out (b : BitVec 8) (p : Fin 9) : (setReader b p s).out = s.out := rfl
@[simp] theorem setReader_hostOps (b : BitVec 8) (p : Fin 9) : (setReader b p s).hostOps = s.hostOps := rfl
@[simp] theorem setReader_hostReads (b : BitVec 8) (p : Fin 9) : (setReader b p s).hostReads = s.hostReads := rfl

/-! ### snkPut -/

@[simp] theorem snkPut_bwAcc (b : Byte) : (snkPut b s).bwAcc = s.bwAcc := rfl
@[simp] theorem snkPut_bwCnt (b : Byte) : (snkPut b s).bwCnt = s.bwCnt := rfl
@[simp] theorem snkPut_brBuf (b : Byte) : (snkPut b s).brBuf = s.brBuf := rfl
@[simp] theorem snkPut_brPos (b : Byte) : (snkPut b s).brPos = s.brPos := rfl
@[simp] theorem snkPut_cur (b : Byte) : (snkPut b s).cur = s.cur := rfl
@[simp] theorem snkPut_rootH (b : Byte) : (snkPut b s).rootH = s.rootH := rfl
@[simp] theorem snkPut_rootV (b : Byte) : (snkPut b s).rootV = s.rootV := rfl
@[simp] theorem snkPut_dstate (b : Byte) : (snkPut b s).dstate = s.dstate := rfl
@[simp] theorem snkPut_fault (b : Byte) : (snkPut b s).fault = s.fault := rfl
@[simp] theorem snkPut_cause (b : Byte) : (snkPut b s).cause = s.cause := rfl
@[simp] theorem snkPut_resultBit (b : Byte) : (snkPut b s).resultBit = s.resultBit := rfl
@[simp] theorem snkPut_resultEnd (b : Byte) : (snkPut b s).resultEnd = s.resultEnd := rfl
@[simp] theorem snkPut_node (b : Byte) : (snkPut b s).node = s.node := rfl
@[simp] theorem snkPut_nodeV (b : Byte) : (snkPut b s).nodeV = s.nodeV := rfl
@[simp] theorem snkPut_nodeW (b : Byte) : (snkPut b s).nodeW = s.nodeW := rfl
@[simp] theorem snkPut_ct (b : Byte) : (snkPut b s).ct = s.ct := rfl
@[simp] theorem snkPut_src (b : Byte) : (snkPut b s).src = s.src := rfl
@[simp] theorem snkPut_srcPos (b : Byte) : (snkPut b s).srcPos = s.srcPos := rfl
@[simp] theorem snkPut_snk (b : Byte) : (snkPut b s).snk = s.snk ++ [b] := rfl
@[simp] theorem snkPut_out (b : Byte) : (snkPut b s).out = s.out := rfl
@[simp] theorem snkPut_hostOps (b : Byte) : (snkPut b s).hostOps = s.hostOps := rfl
@[simp] theorem snkPut_hostReads (b : Byte) : (snkPut b s).hostReads = s.hostReads := rfl

/-! ### outPut -/

@[simp] theorem outPut_bwAcc (b : Byte) : (outPut b s).bwAcc = s.bwAcc := rfl
@[simp] theorem outPut_bwCnt (b : Byte) : (outPut b s).bwCnt = s.bwCnt := rfl
@[simp] theorem outPut_brBuf (b : Byte) : (outPut b s).brBuf = s.brBuf := rfl
@[simp] theorem outPut_brPos (b : Byte) : (outPut b s).brPos = s.brPos := rfl
@[simp] theorem outPut_cur (b : Byte) : (outPut b s).cur = s.cur := rfl
@[simp] theorem outPut_rootH (b : Byte) : (outPut b s).rootH = s.rootH := rfl
@[simp] theorem outPut_rootV (b : Byte) : (outPut b s).rootV = s.rootV := rfl
@[simp] theorem outPut_dstate (b : Byte) : (outPut b s).dstate = s.dstate := rfl
@[simp] theorem outPut_fault (b : Byte) : (outPut b s).fault = s.fault := rfl
@[simp] theorem outPut_cause (b : Byte) : (outPut b s).cause = s.cause := rfl
@[simp] theorem outPut_resultBit (b : Byte) : (outPut b s).resultBit = s.resultBit := rfl
@[simp] theorem outPut_resultEnd (b : Byte) : (outPut b s).resultEnd = s.resultEnd := rfl
@[simp] theorem outPut_node (b : Byte) : (outPut b s).node = s.node := rfl
@[simp] theorem outPut_nodeV (b : Byte) : (outPut b s).nodeV = s.nodeV := rfl
@[simp] theorem outPut_nodeW (b : Byte) : (outPut b s).nodeW = s.nodeW := rfl
@[simp] theorem outPut_ct (b : Byte) : (outPut b s).ct = s.ct := rfl
@[simp] theorem outPut_src (b : Byte) : (outPut b s).src = s.src := rfl
@[simp] theorem outPut_srcPos (b : Byte) : (outPut b s).srcPos = s.srcPos := rfl
@[simp] theorem outPut_snk (b : Byte) : (outPut b s).snk = s.snk := rfl
@[simp] theorem outPut_out (b : Byte) : (outPut b s).out = s.out ++ [b] := rfl
@[simp] theorem outPut_hostOps (b : Byte) : (outPut b s).hostOps = s.hostOps := rfl
@[simp] theorem outPut_hostReads (b : Byte) : (outPut b s).hostReads = s.hostReads := rfl

/-! ### setCur -/

@[simp] theorem setCur_bwAcc (h : Handle) : (setCur h s).bwAcc = s.bwAcc := rfl
@[simp] theorem setCur_bwCnt (h : Handle) : (setCur h s).bwCnt = s.bwCnt := rfl
@[simp] theorem setCur_brBuf (h : Handle) : (setCur h s).brBuf = s.brBuf := rfl
@[simp] theorem setCur_brPos (h : Handle) : (setCur h s).brPos = s.brPos := rfl
@[simp] theorem setCur_cur (h : Handle) : (setCur h s).cur = h := rfl
@[simp] theorem setCur_rootH (h : Handle) : (setCur h s).rootH = s.rootH := rfl
@[simp] theorem setCur_rootV (h : Handle) : (setCur h s).rootV = s.rootV := rfl
@[simp] theorem setCur_dstate (h : Handle) : (setCur h s).dstate = s.dstate := rfl
@[simp] theorem setCur_fault (h : Handle) : (setCur h s).fault = s.fault := rfl
@[simp] theorem setCur_cause (h : Handle) : (setCur h s).cause = s.cause := rfl
@[simp] theorem setCur_resultBit (h : Handle) : (setCur h s).resultBit = s.resultBit := rfl
@[simp] theorem setCur_resultEnd (h : Handle) : (setCur h s).resultEnd = s.resultEnd := rfl
@[simp] theorem setCur_node (h : Handle) : (setCur h s).node = s.node := rfl
@[simp] theorem setCur_nodeV (h : Handle) : (setCur h s).nodeV = s.nodeV := rfl
@[simp] theorem setCur_nodeW (h : Handle) : (setCur h s).nodeW = s.nodeW := rfl
@[simp] theorem setCur_ct (h : Handle) : (setCur h s).ct = s.ct := rfl
@[simp] theorem setCur_src (h : Handle) : (setCur h s).src = s.src := rfl
@[simp] theorem setCur_srcPos (h : Handle) : (setCur h s).srcPos = s.srcPos := rfl
@[simp] theorem setCur_snk (h : Handle) : (setCur h s).snk = s.snk := rfl
@[simp] theorem setCur_out (h : Handle) : (setCur h s).out = s.out := rfl
@[simp] theorem setCur_hostOps (h : Handle) : (setCur h s).hostOps = s.hostOps := rfl
@[simp] theorem setCur_hostReads (h : Handle) : (setCur h s).hostReads = s.hostReads := rfl

/-! ### setDState -/

@[simp] theorem setDState_bwAcc (d : DState) : (setDState d s).bwAcc = s.bwAcc := rfl
@[simp] theorem setDState_bwCnt (d : DState) : (setDState d s).bwCnt = s.bwCnt := rfl
@[simp] theorem setDState_brBuf (d : DState) : (setDState d s).brBuf = s.brBuf := rfl
@[simp] theorem setDState_brPos (d : DState) : (setDState d s).brPos = s.brPos := rfl
@[simp] theorem setDState_cur (d : DState) : (setDState d s).cur = s.cur := rfl
@[simp] theorem setDState_rootH (d : DState) : (setDState d s).rootH = s.rootH := rfl
@[simp] theorem setDState_rootV (d : DState) : (setDState d s).rootV = s.rootV := rfl
@[simp] theorem setDState_dstate (d : DState) : (setDState d s).dstate = d := rfl
@[simp] theorem setDState_fault (d : DState) : (setDState d s).fault = s.fault := rfl
@[simp] theorem setDState_cause (d : DState) : (setDState d s).cause = s.cause := rfl
@[simp] theorem setDState_resultBit (d : DState) : (setDState d s).resultBit = s.resultBit := rfl
@[simp] theorem setDState_resultEnd (d : DState) : (setDState d s).resultEnd = s.resultEnd := rfl
@[simp] theorem setDState_node (d : DState) : (setDState d s).node = s.node := rfl
@[simp] theorem setDState_nodeV (d : DState) : (setDState d s).nodeV = s.nodeV := rfl
@[simp] theorem setDState_nodeW (d : DState) : (setDState d s).nodeW = s.nodeW := rfl
@[simp] theorem setDState_ct (d : DState) : (setDState d s).ct = s.ct := rfl
@[simp] theorem setDState_src (d : DState) : (setDState d s).src = s.src := rfl
@[simp] theorem setDState_srcPos (d : DState) : (setDState d s).srcPos = s.srcPos := rfl
@[simp] theorem setDState_snk (d : DState) : (setDState d s).snk = s.snk := rfl
@[simp] theorem setDState_out (d : DState) : (setDState d s).out = s.out := rfl
@[simp] theorem setDState_hostOps (d : DState) : (setDState d s).hostOps = s.hostOps := rfl
@[simp] theorem setDState_hostReads (d : DState) : (setDState d s).hostReads = s.hostReads := rfl

/-! ### setRoot -/

@[simp] theorem setRoot_bwAcc (h : Handle) : (setRoot h s).bwAcc = s.bwAcc := rfl
@[simp] theorem setRoot_bwCnt (h : Handle) : (setRoot h s).bwCnt = s.bwCnt := rfl
@[simp] theorem setRoot_brBuf (h : Handle) : (setRoot h s).brBuf = s.brBuf := rfl
@[simp] theorem setRoot_brPos (h : Handle) : (setRoot h s).brPos = s.brPos := rfl
@[simp] theorem setRoot_cur (h : Handle) : (setRoot h s).cur = s.cur := rfl
@[simp] theorem setRoot_rootH (h : Handle) : (setRoot h s).rootH = h := rfl
@[simp] theorem setRoot_rootV (h : Handle) : (setRoot h s).rootV = true := rfl
@[simp] theorem setRoot_dstate (h : Handle) : (setRoot h s).dstate = s.dstate := rfl
@[simp] theorem setRoot_fault (h : Handle) : (setRoot h s).fault = s.fault := rfl
@[simp] theorem setRoot_cause (h : Handle) : (setRoot h s).cause = s.cause := rfl
@[simp] theorem setRoot_resultBit (h : Handle) : (setRoot h s).resultBit = s.resultBit := rfl
@[simp] theorem setRoot_resultEnd (h : Handle) : (setRoot h s).resultEnd = s.resultEnd := rfl
@[simp] theorem setRoot_node (h : Handle) : (setRoot h s).node = s.node := rfl
@[simp] theorem setRoot_nodeV (h : Handle) : (setRoot h s).nodeV = s.nodeV := rfl
@[simp] theorem setRoot_nodeW (h : Handle) : (setRoot h s).nodeW = s.nodeW := rfl
@[simp] theorem setRoot_ct (h : Handle) : (setRoot h s).ct = s.ct := rfl
@[simp] theorem setRoot_src (h : Handle) : (setRoot h s).src = s.src := rfl
@[simp] theorem setRoot_srcPos (h : Handle) : (setRoot h s).srcPos = s.srcPos := rfl
@[simp] theorem setRoot_snk (h : Handle) : (setRoot h s).snk = s.snk := rfl
@[simp] theorem setRoot_out (h : Handle) : (setRoot h s).out = s.out := rfl
@[simp] theorem setRoot_hostOps (h : Handle) : (setRoot h s).hostOps = s.hostOps := rfl
@[simp] theorem setRoot_hostReads (h : Handle) : (setRoot h s).hostReads = s.hostReads := rfl

/-! ### setCt -/

@[simp] theorem setCt_bwAcc (t : Memory CtEntry) : (setCt t s).bwAcc = s.bwAcc := rfl
@[simp] theorem setCt_bwCnt (t : Memory CtEntry) : (setCt t s).bwCnt = s.bwCnt := rfl
@[simp] theorem setCt_brBuf (t : Memory CtEntry) : (setCt t s).brBuf = s.brBuf := rfl
@[simp] theorem setCt_brPos (t : Memory CtEntry) : (setCt t s).brPos = s.brPos := rfl
@[simp] theorem setCt_cur (t : Memory CtEntry) : (setCt t s).cur = s.cur := rfl
@[simp] theorem setCt_rootH (t : Memory CtEntry) : (setCt t s).rootH = s.rootH := rfl
@[simp] theorem setCt_rootV (t : Memory CtEntry) : (setCt t s).rootV = s.rootV := rfl
@[simp] theorem setCt_dstate (t : Memory CtEntry) : (setCt t s).dstate = s.dstate := rfl
@[simp] theorem setCt_fault (t : Memory CtEntry) : (setCt t s).fault = s.fault := rfl
@[simp] theorem setCt_cause (t : Memory CtEntry) : (setCt t s).cause = s.cause := rfl
@[simp] theorem setCt_resultBit (t : Memory CtEntry) : (setCt t s).resultBit = s.resultBit := rfl
@[simp] theorem setCt_resultEnd (t : Memory CtEntry) : (setCt t s).resultEnd = s.resultEnd := rfl
@[simp] theorem setCt_node (t : Memory CtEntry) : (setCt t s).node = s.node := rfl
@[simp] theorem setCt_nodeV (t : Memory CtEntry) : (setCt t s).nodeV = s.nodeV := rfl
@[simp] theorem setCt_nodeW (t : Memory CtEntry) : (setCt t s).nodeW = s.nodeW := rfl
@[simp] theorem setCt_ct (t : Memory CtEntry) : (setCt t s).ct = t := rfl
@[simp] theorem setCt_src (t : Memory CtEntry) : (setCt t s).src = s.src := rfl
@[simp] theorem setCt_srcPos (t : Memory CtEntry) : (setCt t s).srcPos = s.srcPos := rfl
@[simp] theorem setCt_snk (t : Memory CtEntry) : (setCt t s).snk = s.snk := rfl
@[simp] theorem setCt_out (t : Memory CtEntry) : (setCt t s).out = s.out := rfl
@[simp] theorem setCt_hostOps (t : Memory CtEntry) : (setCt t s).hostOps = s.hostOps := rfl
@[simp] theorem setCt_hostReads (t : Memory CtEntry) : (setCt t s).hostReads = s.hostReads := rfl

/-! ### setResult -/

@[simp] theorem setResult_bwAcc (b e : Bool) : (setResult b e s).bwAcc = s.bwAcc := rfl
@[simp] theorem setResult_bwCnt (b e : Bool) : (setResult b e s).bwCnt = s.bwCnt := rfl
@[simp] theorem setResult_brBuf (b e : Bool) : (setResult b e s).brBuf = s.brBuf := rfl
@[simp] theorem setResult_brPos (b e : Bool) : (setResult b e s).brPos = s.brPos := rfl
@[simp] theorem setResult_cur (b e : Bool) : (setResult b e s).cur = s.cur := rfl
@[simp] theorem setResult_rootH (b e : Bool) : (setResult b e s).rootH = s.rootH := rfl
@[simp] theorem setResult_rootV (b e : Bool) : (setResult b e s).rootV = s.rootV := rfl
@[simp] theorem setResult_dstate (b e : Bool) : (setResult b e s).dstate = s.dstate := rfl
@[simp] theorem setResult_fault (b e : Bool) : (setResult b e s).fault = s.fault := rfl
@[simp] theorem setResult_cause (b e : Bool) : (setResult b e s).cause = s.cause := rfl
@[simp] theorem setResult_resultBit (b e : Bool) : (setResult b e s).resultBit = b := rfl
@[simp] theorem setResult_resultEnd (b e : Bool) : (setResult b e s).resultEnd = e := rfl
@[simp] theorem setResult_node (b e : Bool) : (setResult b e s).node = s.node := rfl
@[simp] theorem setResult_nodeV (b e : Bool) : (setResult b e s).nodeV = s.nodeV := rfl
@[simp] theorem setResult_nodeW (b e : Bool) : (setResult b e s).nodeW = s.nodeW := rfl
@[simp] theorem setResult_ct (b e : Bool) : (setResult b e s).ct = s.ct := rfl
@[simp] theorem setResult_src (b e : Bool) : (setResult b e s).src = s.src := rfl
@[simp] theorem setResult_srcPos (b e : Bool) : (setResult b e s).srcPos = s.srcPos := rfl
@[simp] theorem setResult_snk (b e : Bool) : (setResult b e s).snk = s.snk := rfl
@[simp] theorem setResult_out (b e : Bool) : (setResult b e s).out = s.out := rfl
@[simp] theorem setResult_hostOps (b e : Bool) : (setResult b e s).hostOps = s.hostOps := rfl
@[simp] theorem setResult_hostReads (b e : Bool) : (setResult b e s).hostReads = s.hostReads := rfl

/-! ### raise -/

@[simp] theorem raise_bwAcc (c : Cause) : (raise c s).bwAcc = s.bwAcc := rfl
@[simp] theorem raise_bwCnt (c : Cause) : (raise c s).bwCnt = s.bwCnt := rfl
@[simp] theorem raise_brBuf (c : Cause) : (raise c s).brBuf = s.brBuf := rfl
@[simp] theorem raise_brPos (c : Cause) : (raise c s).brPos = s.brPos := rfl
@[simp] theorem raise_cur (c : Cause) : (raise c s).cur = s.cur := rfl
@[simp] theorem raise_rootH (c : Cause) : (raise c s).rootH = s.rootH := rfl
@[simp] theorem raise_rootV (c : Cause) : (raise c s).rootV = s.rootV := rfl
@[simp] theorem raise_dstate (c : Cause) : (raise c s).dstate = s.dstate := rfl
@[simp] theorem raise_fault (c : Cause) : (raise c s).fault = true := rfl
@[simp] theorem raise_cause (c : Cause) : (raise c s).cause = c := rfl
@[simp] theorem raise_resultBit (c : Cause) : (raise c s).resultBit = s.resultBit := rfl
@[simp] theorem raise_resultEnd (c : Cause) : (raise c s).resultEnd = s.resultEnd := rfl
@[simp] theorem raise_node (c : Cause) : (raise c s).node = s.node := rfl
@[simp] theorem raise_nodeV (c : Cause) : (raise c s).nodeV = s.nodeV := rfl
@[simp] theorem raise_nodeW (c : Cause) : (raise c s).nodeW = s.nodeW := rfl
@[simp] theorem raise_ct (c : Cause) : (raise c s).ct = s.ct := rfl
@[simp] theorem raise_src (c : Cause) : (raise c s).src = s.src := rfl
@[simp] theorem raise_srcPos (c : Cause) : (raise c s).srcPos = s.srcPos := rfl
@[simp] theorem raise_snk (c : Cause) : (raise c s).snk = s.snk := rfl
@[simp] theorem raise_out (c : Cause) : (raise c s).out = s.out := rfl
@[simp] theorem raise_hostOps (c : Cause) : (raise c s).hostOps = s.hostOps := rfl
@[simp] theorem raise_hostReads (c : Cause) : (raise c s).hostReads = s.hostReads := rfl

/-! ### writeNode -/

@[simp] theorem writeNode_bwAcc (h : Nat) (d : Word) : (writeNode h d s).bwAcc = s.bwAcc := rfl
@[simp] theorem writeNode_bwCnt (h : Nat) (d : Word) : (writeNode h d s).bwCnt = s.bwCnt := rfl
@[simp] theorem writeNode_brBuf (h : Nat) (d : Word) : (writeNode h d s).brBuf = s.brBuf := rfl
@[simp] theorem writeNode_brPos (h : Nat) (d : Word) : (writeNode h d s).brPos = s.brPos := rfl
@[simp] theorem writeNode_cur (h : Nat) (d : Word) : (writeNode h d s).cur = s.cur := rfl
@[simp] theorem writeNode_rootH (h : Nat) (d : Word) : (writeNode h d s).rootH = s.rootH := rfl
@[simp] theorem writeNode_rootV (h : Nat) (d : Word) : (writeNode h d s).rootV = s.rootV := rfl
@[simp] theorem writeNode_dstate (h : Nat) (d : Word) : (writeNode h d s).dstate = s.dstate := rfl
@[simp] theorem writeNode_fault (h : Nat) (d : Word) : (writeNode h d s).fault = s.fault := rfl
@[simp] theorem writeNode_cause (h : Nat) (d : Word) : (writeNode h d s).cause = s.cause := rfl
@[simp] theorem writeNode_resultBit (h : Nat) (d : Word) : (writeNode h d s).resultBit = s.resultBit := rfl
@[simp] theorem writeNode_resultEnd (h : Nat) (d : Word) : (writeNode h d s).resultEnd = s.resultEnd := rfl
@[simp] theorem writeNode_node (h : Nat) (d : Word) : (writeNode h d s).node = s.node.write 0#32 h (nodeStored d) := rfl
@[simp] theorem writeNode_nodeV (h : Nat) (d : Word) : (writeNode h d s).nodeV = s.nodeV.write false h true := rfl
@[simp] theorem writeNode_nodeW (h : Nat) (d : Word) : (writeNode h d s).nodeW = s.nodeW := rfl
@[simp] theorem writeNode_ct (h : Nat) (d : Word) : (writeNode h d s).ct = s.ct := rfl
@[simp] theorem writeNode_src (h : Nat) (d : Word) : (writeNode h d s).src = s.src := rfl
@[simp] theorem writeNode_srcPos (h : Nat) (d : Word) : (writeNode h d s).srcPos = s.srcPos := rfl
@[simp] theorem writeNode_snk (h : Nat) (d : Word) : (writeNode h d s).snk = s.snk := rfl
@[simp] theorem writeNode_out (h : Nat) (d : Word) : (writeNode h d s).out = s.out := rfl
@[simp] theorem writeNode_hostOps (h : Nat) (d : Word) : (writeNode h d s).hostOps = s.hostOps := rfl
@[simp] theorem writeNode_hostReads (h : Nat) (d : Word) : (writeNode h d s).hostReads = s.hostReads := rfl

/-! ### writeNodeW -/

@[simp] theorem writeNodeW_bwAcc (h : Nat) (d : Word) : (writeNodeW h d s).bwAcc = s.bwAcc := rfl
@[simp] theorem writeNodeW_bwCnt (h : Nat) (d : Word) : (writeNodeW h d s).bwCnt = s.bwCnt := rfl
@[simp] theorem writeNodeW_brBuf (h : Nat) (d : Word) : (writeNodeW h d s).brBuf = s.brBuf := rfl
@[simp] theorem writeNodeW_brPos (h : Nat) (d : Word) : (writeNodeW h d s).brPos = s.brPos := rfl
@[simp] theorem writeNodeW_cur (h : Nat) (d : Word) : (writeNodeW h d s).cur = s.cur := rfl
@[simp] theorem writeNodeW_rootH (h : Nat) (d : Word) : (writeNodeW h d s).rootH = s.rootH := rfl
@[simp] theorem writeNodeW_rootV (h : Nat) (d : Word) : (writeNodeW h d s).rootV = s.rootV := rfl
@[simp] theorem writeNodeW_dstate (h : Nat) (d : Word) : (writeNodeW h d s).dstate = s.dstate := rfl
@[simp] theorem writeNodeW_fault (h : Nat) (d : Word) : (writeNodeW h d s).fault = s.fault := rfl
@[simp] theorem writeNodeW_cause (h : Nat) (d : Word) : (writeNodeW h d s).cause = s.cause := rfl
@[simp] theorem writeNodeW_resultBit (h : Nat) (d : Word) : (writeNodeW h d s).resultBit = s.resultBit := rfl
@[simp] theorem writeNodeW_resultEnd (h : Nat) (d : Word) : (writeNodeW h d s).resultEnd = s.resultEnd := rfl
@[simp] theorem writeNodeW_node (h : Nat) (d : Word) : (writeNodeW h d s).node = s.node := rfl
@[simp] theorem writeNodeW_nodeV (h : Nat) (d : Word) : (writeNodeW h d s).nodeV = s.nodeV := rfl
@[simp] theorem writeNodeW_nodeW (h : Nat) (d : Word) : (writeNodeW h d s).nodeW = s.nodeW.write 0#32 h d := rfl
@[simp] theorem writeNodeW_ct (h : Nat) (d : Word) : (writeNodeW h d s).ct = s.ct := rfl
@[simp] theorem writeNodeW_src (h : Nat) (d : Word) : (writeNodeW h d s).src = s.src := rfl
@[simp] theorem writeNodeW_srcPos (h : Nat) (d : Word) : (writeNodeW h d s).srcPos = s.srcPos := rfl
@[simp] theorem writeNodeW_snk (h : Nat) (d : Word) : (writeNodeW h d s).snk = s.snk := rfl
@[simp] theorem writeNodeW_out (h : Nat) (d : Word) : (writeNodeW h d s).out = s.out := rfl
@[simp] theorem writeNodeW_hostOps (h : Nat) (d : Word) : (writeNodeW h d s).hostOps = s.hostOps := rfl
@[simp] theorem writeNodeW_hostReads (h : Nat) (d : Word) : (writeNodeW h d s).hostReads = s.hostReads := rfl

/-! ### writeCt -/

@[simp] theorem writeCt_bwAcc (k : Nat) (e : CtEntry) : (writeCt k e s).bwAcc = s.bwAcc := rfl
@[simp] theorem writeCt_bwCnt (k : Nat) (e : CtEntry) : (writeCt k e s).bwCnt = s.bwCnt := rfl
@[simp] theorem writeCt_brBuf (k : Nat) (e : CtEntry) : (writeCt k e s).brBuf = s.brBuf := rfl
@[simp] theorem writeCt_brPos (k : Nat) (e : CtEntry) : (writeCt k e s).brPos = s.brPos := rfl
@[simp] theorem writeCt_cur (k : Nat) (e : CtEntry) : (writeCt k e s).cur = s.cur := rfl
@[simp] theorem writeCt_rootH (k : Nat) (e : CtEntry) : (writeCt k e s).rootH = s.rootH := rfl
@[simp] theorem writeCt_rootV (k : Nat) (e : CtEntry) : (writeCt k e s).rootV = s.rootV := rfl
@[simp] theorem writeCt_dstate (k : Nat) (e : CtEntry) : (writeCt k e s).dstate = s.dstate := rfl
@[simp] theorem writeCt_fault (k : Nat) (e : CtEntry) : (writeCt k e s).fault = s.fault := rfl
@[simp] theorem writeCt_cause (k : Nat) (e : CtEntry) : (writeCt k e s).cause = s.cause := rfl
@[simp] theorem writeCt_resultBit (k : Nat) (e : CtEntry) : (writeCt k e s).resultBit = s.resultBit := rfl
@[simp] theorem writeCt_resultEnd (k : Nat) (e : CtEntry) : (writeCt k e s).resultEnd = s.resultEnd := rfl
@[simp] theorem writeCt_node (k : Nat) (e : CtEntry) : (writeCt k e s).node = s.node := rfl
@[simp] theorem writeCt_nodeV (k : Nat) (e : CtEntry) : (writeCt k e s).nodeV = s.nodeV := rfl
@[simp] theorem writeCt_nodeW (k : Nat) (e : CtEntry) : (writeCt k e s).nodeW = s.nodeW := rfl
@[simp] theorem writeCt_ct (k : Nat) (e : CtEntry) : (writeCt k e s).ct = s.ct.write CtEntry.empty k e := rfl
@[simp] theorem writeCt_src (k : Nat) (e : CtEntry) : (writeCt k e s).src = s.src := rfl
@[simp] theorem writeCt_srcPos (k : Nat) (e : CtEntry) : (writeCt k e s).srcPos = s.srcPos := rfl
@[simp] theorem writeCt_snk (k : Nat) (e : CtEntry) : (writeCt k e s).snk = s.snk := rfl
@[simp] theorem writeCt_out (k : Nat) (e : CtEntry) : (writeCt k e s).out = s.out := rfl
@[simp] theorem writeCt_hostOps (k : Nat) (e : CtEntry) : (writeCt k e s).hostOps = s.hostOps := rfl
@[simp] theorem writeCt_hostReads (k : Nat) (e : CtEntry) : (writeCt k e s).hostReads = s.hostReads := rfl

/-! ### clearBlock -/

@[simp] theorem clearBlock_bwAcc : (clearBlock s).bwAcc = 0#8 := rfl
@[simp] theorem clearBlock_bwCnt : (clearBlock s).bwCnt = 0#3 := rfl
@[simp] theorem clearBlock_brBuf : (clearBlock s).brBuf = 0#8 := rfl
@[simp] theorem clearBlock_brPos : (clearBlock s).brPos = 8 := rfl
@[simp] theorem clearBlock_cur : (clearBlock s).cur = Config.null := rfl
@[simp] theorem clearBlock_rootH : (clearBlock s).rootH = 0#10 := rfl
@[simp] theorem clearBlock_rootV : (clearBlock s).rootV = false := rfl
@[simp] theorem clearBlock_dstate : (clearBlock s).dstate = .idle := rfl
@[simp] theorem clearBlock_fault : (clearBlock s).fault = false := rfl
@[simp] theorem clearBlock_cause : (clearBlock s).cause = .none := rfl
@[simp] theorem clearBlock_resultBit : (clearBlock s).resultBit = false := rfl
@[simp] theorem clearBlock_resultEnd : (clearBlock s).resultEnd = false := rfl
@[simp] theorem clearBlock_node : (clearBlock s).node = [] := rfl
@[simp] theorem clearBlock_nodeV : (clearBlock s).nodeV = [] := rfl
@[simp] theorem clearBlock_nodeW : (clearBlock s).nodeW = [] := rfl
@[simp] theorem clearBlock_ct : (clearBlock s).ct = [] := rfl
@[simp] theorem clearBlock_src : (clearBlock s).src = s.src := rfl
@[simp] theorem clearBlock_srcPos : (clearBlock s).srcPos = s.srcPos := rfl
@[simp] theorem clearBlock_snk : (clearBlock s).snk = s.snk := rfl
@[simp] theorem clearBlock_out : (clearBlock s).out = s.out := rfl
@[simp] theorem clearBlock_hostOps : (clearBlock s).hostOps = s.hostOps := rfl
@[simp] theorem clearBlock_hostReads : (clearBlock s).hostReads = s.hostReads := rfl

end Sys2Proof.Machine
end

