-- ==== Sys2Proof/Laws/Ops.lean ====
section
/-! SUPPORT. What each shared operation can do, said once: the reads of the tables through the
updates, and one lemma per operation that the proofs cite instead of unfolding it. -/

namespace Sys2Proof.Machine

variable (s : State)

/-! ### Tables seen through the updates that do not write them -/

@[simp] theorem setWriter_nodeWord (a : BitVec 8) (c : BitVec 3) (g : Handle) : nodeWord (setWriter a c s) g = nodeWord s g := rfl
@[simp] theorem setWriter_nodeValid (a : BitVec 8) (c : BitVec 3) (g : Handle) : nodeValid (setWriter a c s) g = nodeValid s g := rfl
@[simp] theorem setWriter_written (a : BitVec 8) (c : BitVec 3) (g : Handle) : written (setWriter a c s) g = written s g := rfl
@[simp] theorem setWriter_ctEntry (a : BitVec 8) (c : BitVec 3) (k : Nat) : ctEntry (setWriter a c s) k = ctEntry s k := rfl
@[simp] theorem setReader_nodeWord (b : BitVec 8) (p : Fin 9) (g : Handle) : nodeWord (setReader b p s) g = nodeWord s g := rfl
@[simp] theorem setReader_nodeValid (b : BitVec 8) (p : Fin 9) (g : Handle) : nodeValid (setReader b p s) g = nodeValid s g := rfl
@[simp] theorem setReader_written (b : BitVec 8) (p : Fin 9) (g : Handle) : written (setReader b p s) g = written s g := rfl
@[simp] theorem setReader_ctEntry (b : BitVec 8) (p : Fin 9) (k : Nat) : ctEntry (setReader b p s) k = ctEntry s k := rfl
@[simp] theorem snkPut_nodeWord (b : Byte) (g : Handle) : nodeWord (snkPut b s) g = nodeWord s g := rfl
@[simp] theorem snkPut_nodeValid (b : Byte) (g : Handle) : nodeValid (snkPut b s) g = nodeValid s g := rfl
@[simp] theorem snkPut_written (b : Byte) (g : Handle) : written (snkPut b s) g = written s g := rfl
@[simp] theorem snkPut_ctEntry (b : Byte) (k : Nat) : ctEntry (snkPut b s) k = ctEntry s k := rfl
@[simp] theorem outPut_nodeWord (b : Byte) (g : Handle) : nodeWord (outPut b s) g = nodeWord s g := rfl
@[simp] theorem outPut_nodeValid (b : Byte) (g : Handle) : nodeValid (outPut b s) g = nodeValid s g := rfl
@[simp] theorem outPut_written (b : Byte) (g : Handle) : written (outPut b s) g = written s g := rfl
@[simp] theorem outPut_ctEntry (b : Byte) (k : Nat) : ctEntry (outPut b s) k = ctEntry s k := rfl
@[simp] theorem setCur_nodeWord (h g : Handle) : nodeWord (setCur h s) g = nodeWord s g := rfl
@[simp] theorem setCur_nodeValid (h g : Handle) : nodeValid (setCur h s) g = nodeValid s g := rfl
@[simp] theorem setCur_written (h g : Handle) : written (setCur h s) g = written s g := rfl
@[simp] theorem setCur_ctEntry (h : Handle) (k : Nat) : ctEntry (setCur h s) k = ctEntry s k := rfl
@[simp] theorem setDState_nodeWord (d : DState) (g : Handle) : nodeWord (setDState d s) g = nodeWord s g := rfl
@[simp] theorem setDState_nodeValid (d : DState) (g : Handle) : nodeValid (setDState d s) g = nodeValid s g := rfl
@[simp] theorem setDState_written (d : DState) (g : Handle) : written (setDState d s) g = written s g := rfl
@[simp] theorem setDState_ctEntry (d : DState) (k : Nat) : ctEntry (setDState d s) k = ctEntry s k := rfl
@[simp] theorem setRoot_nodeWord (h g : Handle) : nodeWord (setRoot h s) g = nodeWord s g := rfl
@[simp] theorem setRoot_nodeValid (h g : Handle) : nodeValid (setRoot h s) g = nodeValid s g := rfl
@[simp] theorem setRoot_written (h g : Handle) : written (setRoot h s) g = written s g := rfl
@[simp] theorem setRoot_ctEntry (h : Handle) (k : Nat) : ctEntry (setRoot h s) k = ctEntry s k := rfl
@[simp] theorem setResult_nodeWord (b e : Bool) (g : Handle) : nodeWord (setResult b e s) g = nodeWord s g := rfl
@[simp] theorem setResult_nodeValid (b e : Bool) (g : Handle) : nodeValid (setResult b e s) g = nodeValid s g := rfl
@[simp] theorem setResult_written (b e : Bool) (g : Handle) : written (setResult b e s) g = written s g := rfl
@[simp] theorem setResult_ctEntry (b e : Bool) (k : Nat) : ctEntry (setResult b e s) k = ctEntry s k := rfl
@[simp] theorem raise_nodeWord (c : Cause) (g : Handle) : nodeWord (raise c s) g = nodeWord s g := rfl
@[simp] theorem raise_nodeValid (c : Cause) (g : Handle) : nodeValid (raise c s) g = nodeValid s g := rfl
@[simp] theorem raise_written (c : Cause) (g : Handle) : written (raise c s) g = written s g := rfl
@[simp] theorem raise_ctEntry (c : Cause) (k : Nat) : ctEntry (raise c s) k = ctEntry s k := rfl
@[simp] theorem setCt_nodeWord (t : Memory CtEntry) (g : Handle) : nodeWord (setCt t s) g = nodeWord s g := rfl
@[simp] theorem setCt_written (t : Memory CtEntry) (g : Handle) : written (setCt t s) g = written s g := rfl
@[simp] theorem setCt_ctEntry (t : Memory CtEntry) (k : Nat) : ctEntry (setCt t s) k = t.read CtEntry.empty k := rfl

theorem inRange_iff (h : Handle) : inRange h = true ↔ h.toNat ≤ 512 := by simp [inRange]

theorem written_iff (h : Handle) :
    written s h = true ↔ h.toNat ≤ 512 ∧ nodeValid s h = true := by
  unfold written
  rw [Bool.and_eq_true, inRange_iff]

/-! ### Admission -/

variable {s}

theorem whenAdmitted_faulted {adm : DState → Bool} {body : State → Out} (h : s.fault = true) :
    whenAdmitted adm s body = .next s := by simp [whenAdmitted, h]

theorem whenAdmitted_admitted {adm : DState → Bool} {body : State → Out} (h : s.fault = false)
    (ha : adm s.dstate = true) : whenAdmitted adm s body = body s := by
  simp [whenAdmitted, h, ha]

theorem whenAdmitted_refused {adm : DState → Bool} {body : State → Out} (h : s.fault = false)
    (ha : adm s.dstate = false) : whenAdmitted adm s body = .next (raise .illegalCmd s) := by
  simp [whenAdmitted, h, ha]

/-- Everything a command can answer before and at its own body. -/
theorem whenAdmitted_next {adm : DState → Bool} {body : State → Out} {t : State}
    (h : whenAdmitted adm s body = .next t) :
    (s.fault = true ∧ t = s) ∨
    (s.fault = false ∧ adm s.dstate = true ∧ body s = .next t) ∨
    (s.fault = false ∧ adm s.dstate = false ∧ t = raise .illegalCmd s) := by
  unfold whenAdmitted at h
  split at h
  · next hf => exact .inl ⟨hf, (Host.Outcome.next.inj h).symm⟩
  · next hf =>
    split at h
    · next ha => exact .inr (.inl ⟨by simpa using hf, ha, h⟩)
    · next ha =>
      exact .inr (.inr ⟨by simpa using hf, by simpa using ha, (Host.Outcome.next.inj h).symm⟩)

/-! ### The writer -/

theorem getLsbD_setBit (acc : BitVec 8) (i j : Nat) (b : Bool) (hj : j < 8) :
    (setBit acc i b).getLsbD j = if j = i then b else acc.getLsbD j := by
  unfold setBit
  by_cases h : j = i
  · subst h; simp [hj]
  · rcases Nat.lt_or_gt_of_ne h with h' | h'
    · simp [h, h', hj]
    · have : j - i ≠ 0 := by omega
      simp [hj, h, Nat.not_lt.mpr h'.le, this]

theorem putBit_full (b : Bool) (h : s.bwCnt = 7#3) :
    putBit b s = setWriter 0#8 0#3 (snkPut (setBit s.bwAcc 7 b) s) := by simp [putBit, h]

theorem putBit_partial (b : Bool) (h : s.bwCnt ≠ 7#3) :
    putBit b s = setWriter (setBit s.bwAcc s.bwCnt.toNat b) (s.bwCnt + 1#3) s := by
  simp [putBit, h]

/-- `PutBit` changes the accumulator, the count and SNK, and SNK only grows (R110). -/
theorem putBit_frame (b : Bool) (s : State) :
    ∃ (acc : BitVec 8) (cnt : BitVec 3) (bytes : List Byte),
      putBit b s = { s with bwAcc := acc, bwCnt := cnt, snk := s.snk ++ bytes } := by
  unfold putBit
  split
  · exact ⟨0#8, 0#3, [setBit s.bwAcc 7 b], rfl⟩
  · exact ⟨setBit s.bwAcc s.bwCnt.toNat b, s.bwCnt + 1#3, [], by simp [setWriter]⟩

theorem putBits_frame (bs : List Bool) (s : State) :
    ∃ (acc : BitVec 8) (cnt : BitVec 3) (bytes : List Byte),
      putBits bs s = { s with bwAcc := acc, bwCnt := cnt, snk := s.snk ++ bytes } := by
  induction bs generalizing s with
  | nil => exact ⟨s.bwAcc, s.bwCnt, [], by simp [putBits]⟩
  | cons b bs ih =>
    obtain ⟨a, c, ys, h⟩ := putBit_frame b s
    obtain ⟨a', c', ys', h'⟩ := ih (putBit b s)
    exact ⟨a', c', ys ++ ys', by simp only [putBits, h'] ; simp [h]⟩

theorem putBits_append (bs cs : List Bool) (s : State) :
    putBits (bs ++ cs) s = putBits cs (putBits bs s) := by
  induction bs generalizing s with
  | nil => rfl
  | cons b bs ih => simpa [putBits] using ih (putBit b s)

theorem flushWriter_frame (s : State) :
    ∃ (acc : BitVec 8) (cnt : BitVec 3) (bytes : List Byte),
      flushWriter s = { s with bwAcc := acc, bwCnt := cnt, snk := s.snk ++ bytes } := by
  unfold flushWriter
  split
  · exact ⟨s.bwAcc, s.bwCnt, [], by simp⟩
  · exact ⟨0#8, 0#3, [s.bwAcc], rfl⟩

/-! ### The reader -/

theorem srcNext_some {b : Byte} {t : State} (h : srcNext s = some (b, t)) :
    s.src[s.srcPos]? = some b ∧ t = { s with srcPos := s.srcPos + 1 } := by
  unfold srcNext at h
  split at h
  · next hb => simp only [Option.some.injEq, Prod.mk.injEq] at h; exact ⟨h.1 ▸ hb, h.2.symm⟩
  · simp at h

/-- END is answered exactly when no buffered bit is left and SRC has no further byte (R112). -/
theorem readBit_none : readBit s = none ↔ s.brPos = 8 ∧ s.src.length ≤ s.srcPos := by
  unfold readBit srcNext
  by_cases hp : s.brPos = 8
  · rcases hs : s.src[s.srcPos]? with _ | r
    · simpa [hp] using hs
    · have := (List.getElem?_eq_some_iff.mp hs).1
      simp [hp]; omega
  · simp [hp]

/-- The two ways `ReadBit` hands out a bit: from the buffer, or from a byte it pulls (R112). -/
theorem readBit_some {b : Bool} {t : State} (h : readBit s = some (b, t)) :
    (s.brPos.val < 8 ∧ b = s.brBuf.getLsbD s.brPos.val ∧
      t = { s with brPos := Fin.ofNat 9 (s.brPos.val + 1) }) ∨
    (s.brPos = 8 ∧ ∃ r, s.src[s.srcPos]? = some r ∧ b = r.getLsbD 0 ∧
      t = { s with brBuf := r, brPos := 1, srcPos := s.srcPos + 1 }) := by
  unfold readBit at h
  split at h
  · next hp =>
    split at h
    · simp at h
    · next r s' hr =>
      simp only [Option.some.injEq, Prod.mk.injEq] at h
      obtain ⟨h1, rfl⟩ := srcNext_some hr
      exact .inr ⟨hp, r, h1, h.1.symm, h.2.symm⟩
  · next hp =>
    simp only [Option.some.injEq, Prod.mk.injEq] at h
    refine .inl ⟨?_, h.1.symm, h.2.symm⟩
    have : s.brPos.val ≠ 8 := fun h8 => hp (Fin.ext h8)
    omega

/-- `ReadBit` changes the reader registers and SRC_POS only. -/
theorem readBit_frame {b : Bool} {t : State} (h : readBit s = some (b, t)) :
    ∃ buf pos n, t = { s with brBuf := buf, brPos := pos, srcPos := n } := by
  rcases readBit_some h with ⟨_, _, rfl⟩ | ⟨_, r, _, _, rfl⟩
  · exact ⟨s.brBuf, _, s.srcPos, rfl⟩
  · exact ⟨r, 1, s.srcPos + 1, rfl⟩

/-- Every bit handed out is one bit fewer left (R155). -/
theorem readBit_bitsLeft {b : Bool} {t : State} (h : readBit s = some (b, t)) :
    bitsLeft t + 1 = bitsLeft s := by
  rcases readBit_some h with ⟨hp, _, rfl⟩ | ⟨hp, r, hr, _, rfl⟩
  · have h9 : (s.brPos.val + 1) % 9 = s.brPos.val + 1 := Nat.mod_eq_of_lt (by omega)
    simp only [bitsLeft, Fin.ofNat_eq_cast, Fin.val_natCast, h9]
    omega
  · have hl := (List.getElem?_eq_some_iff.mp hr).1
    simp only [bitsLeft, hp]
    have h8 : ((8 : Fin 9) : Nat) = 8 := rfl
    have h1 : ((1 : Fin 9) : Nat) = 1 := rfl
    rw [h8, h1]; omega

/-! ### The decoder -/

/-- The ways a walk can arrive at a child (R153, R151). -/
theorem arrive_cases (next : Handle) (s : State) :
    (written s next = true ∧ nodeSym (nodeWord s next) = Config.nas ∧
      arrive next s = setCur next s) ∨
    (written s next = true ∧ nodeSym (nodeWord s next) = Config.peof ∧
      arrive next s = setDState .done (setCur next s)) ∨
    (written s next = true ∧ (nodeSym (nodeWord s next)).toNat ≤ 255 ∧
      arrive next s =
        setCur s.rootH (outPut ((nodeSym (nodeWord s next)).setWidth 8) s)) ∨
    ((written s next = false ∨ 258 ≤ (nodeSym (nodeWord s next)).toNat) ∧
      arrive next s = raise .badTree s) := by
  unfold arrive
  by_cases hw : written s next = true
  · rw [if_pos hw]
    by_cases h1 : nodeSym (nodeWord s next) = Config.nas
    · exact .inl ⟨hw, h1, by rw [if_pos h1]⟩
    · rw [if_neg h1]
      by_cases h2 : nodeSym (nodeWord s next) = Config.peof
      · exact .inr (.inl ⟨hw, h2, by rw [if_pos h2]⟩)
      · rw [if_neg h2]
        by_cases h3 : (nodeSym (nodeWord s next)).toNat ≤ Config.byteMax
        · exact .inr (.inr (.inl ⟨hw, by simpa using h3, by rw [if_pos h3]⟩))
        · rw [if_neg h3]
          refine .inr (.inr (.inr ⟨.inr ?_, rfl⟩))
          have h1' : (nodeSym (nodeWord s next)).toNat ≠ 257 := fun h => h1 (BitVec.eq_of_toNat_eq h)
          have h2' : (nodeSym (nodeWord s next)).toNat ≠ 256 := fun h => h2 (BitVec.eq_of_toNat_eq h)
          simp only [Config.byteMax] at h3
          omega
  · rw [if_neg hw]
    exact .inr (.inr (.inr ⟨.inl (by simpa using hw), rfl⟩))

/-- Everything `Step` can do (R153, R35). -/
theorem stepTree_cases (s : State) :
    (readBit s = none ∧ stepTree s = raise .malformedStream s) ∨
    (∃ b s', readBit s = some (b, s') ∧ s.cur.toNat ≤ 512 ∧
      stepTree s = arrive (nodeChild (nodeWord s s.cur) b) s') ∨
    (∃ b s', readBit s = some (b, s') ∧ 512 < s.cur.toNat ∧ stepTree s = raise .badTree s') := by
  unfold stepTree
  rcases hr : readBit s with _ | ⟨b, s'⟩
  · exact .inl ⟨rfl, rfl⟩
  · obtain ⟨buf, pos, n, rfl⟩ := readBit_frame hr
    by_cases hc : s.cur.toNat ≤ 512
    · exact .inr (.inl ⟨b, _, rfl, hc, if_pos ((inRange_iff _).mpr hc)⟩)
    · exact .inr (.inr ⟨b, _, rfl, by omega, if_neg (mt (inRange_iff _).mp hc)⟩)

/-- An induction over DRUN's loop: what every `Step` in RUN with no fault keeps, the loop keeps. -/
theorem runTree_induction {P : State → Prop}
    (hstep : ∀ s, s.dstate = .run → s.fault = false → P s → P (stepTree s))
    {fuel : Nat} {s : State} (hs : P s) : P (runTree fuel s) := by
  induction fuel generalizing s with
  | zero => exact hs
  | succ n ih =>
    unfold runTree
    split
    · next hc => exact ih (hstep s hc.1 hc.2 hs)
    · exact hs

/-- `Step` changes the reader, SRC_POS, CUR, DSTATE and the fault latch, and OUT only grows (R153). -/
theorem stepTree_frame (s : State) :
    ∃ buf pos n c d o f k, stepTree s = { s with
      brBuf := buf, brPos := pos, srcPos := n, cur := c, dstate := d, out := s.out ++ o,
      fault := f, cause := k } := by
  rcases stepTree_cases s with ⟨_, e⟩ | ⟨b, s', hb, _, e⟩ | ⟨b, s', hb, _, e⟩ <;> rw [e]
  · exact ⟨s.brBuf, s.brPos, s.srcPos, s.cur, s.dstate, [], true, .malformedStream, by
      rw [List.append_nil]; rfl⟩
  · obtain ⟨buf, pos, n, rfl⟩ := readBit_frame hb
    refine ⟨buf, pos, n, ?_⟩
    rcases arrive_cases (nodeChild (nodeWord s s.cur) b)
      { s with brBuf := buf, brPos := pos, srcPos := n } with
      ⟨_, _, e⟩ | ⟨_, _, e⟩ | ⟨_, _, e⟩ | ⟨_, e⟩ <;> rw [e]
    · exact ⟨nodeChild (nodeWord s s.cur) b, s.dstate, [], s.fault, s.cause, by
        rw [List.append_nil]; rfl⟩
    · exact ⟨nodeChild (nodeWord s s.cur) b, .done, [], s.fault, s.cause, by
        rw [List.append_nil]; rfl⟩
    · exact ⟨s.rootH, s.dstate, [_], s.fault, s.cause, rfl⟩
    · exact ⟨s.cur, s.dstate, [], true, .badTree, by rw [List.append_nil]; rfl⟩
  · obtain ⟨buf, pos, n, rfl⟩ := readBit_frame hb
    exact ⟨buf, pos, n, s.cur, s.dstate, [], true, .badTree, by rw [List.append_nil]; rfl⟩

/-- DRUN's loop changes what its steps change (R155). -/
theorem runTree_frame (fuel : Nat) (s : State) :
    ∃ buf pos n c d o f k, runTree fuel s = { s with
      brBuf := buf, brPos := pos, srcPos := n, cur := c, dstate := d, out := s.out ++ o,
      fault := f, cause := k } := by
  refine runTree_induction (P := fun u => ∃ buf pos n c d o f k, u = { s with
      brBuf := buf, brPos := pos, srcPos := n, cur := c, dstate := d, out := s.out ++ o,
      fault := f, cause := k }) ?_ ?_
  · rintro u _ _ ⟨buf, pos, n, c, d, o, f, k, rfl⟩
    obtain ⟨buf, pos, n, c, d, o', f, k, e⟩ := stepTree_frame { s with
      brBuf := buf, brPos := pos, srcPos := n, cur := c, dstate := d, out := s.out ++ o,
      fault := f, cause := k }
    exact ⟨buf, pos, n, c, d, o ++ o', f, k, by rw [e]; simp⟩
  · exact ⟨s.brBuf, s.brPos, s.srcPos, s.cur, s.dstate, [], s.fault, s.cause, by simp⟩

/-- A `Step` that latches no fault used up one bit (R155). -/
theorem stepTree_bitsLeft {s : State} (hf : (stepTree s).fault = false) :
    bitsLeft (stepTree s) + 1 = bitsLeft s := by
  rcases stepTree_cases s with ⟨_, e⟩ | ⟨b, s', hb, _, e⟩ | ⟨b, s', hb, _, e⟩
  · rw [e] at hf; cases hf
  · rw [← readBit_bitsLeft hb, e]
    rcases arrive_cases (nodeChild (nodeWord s s.cur) b) s' with
      ⟨_, _, e⟩ | ⟨_, _, e⟩ | ⟨_, _, e⟩ | ⟨_, e⟩ <;> rw [e] <;> rfl
  · rw [e] at hf; cases hf

/-- With more iterations than bits left, DRUN's loop ends because the decoder is out of RUN or a fault
is latched (R155). -/
theorem runTree_ends {fuel : Nat} {s : State} (h : bitsLeft s < fuel) :
    ¬ ((runTree fuel s).dstate = .run ∧ (runTree fuel s).fault = false) := by
  induction fuel generalizing s with
  | zero => omega
  | succ n ih =>
    unfold runTree
    split
    · by_cases hc : (stepTree s).dstate = .run ∧ (stepTree s).fault = false
      · exact ih (by have := stepTree_bitsLeft hc.2; omega)
      · cases n with
        | zero => exact hc
        | succ m => unfold runTree; rw [if_neg hc]; exact hc
    · next hc => exact hc

end Sys2Proof.Machine
end

