-- ==== Sys2Proof/Laws/Exec.lean ====
section
/-! SUPPORT. What each command and each step can answer, said once: if it answers `next t`, then one
of the listed cases holds. Every invariant and frame is derived from these. -/

namespace Sys2Proof.Machine

variable {s t : State}

/-- A latched fault makes every command but RELEASE ignored (R187). -/
theorem exec_faulted (i : Instr) (hi : i ≠ .release) (h : s.fault = true) : exec i s = .next s := by
  cases i
  case release => exact absurd rfl hi
  case setroot x =>
    simp only [exec, execSetroot]
    split <;> exact whenAdmitted_faulted h
  case wbit => simp only [exec, execWbit]; exact whenAdmitted_faulted h
  case enc => simp only [exec, execEnc]; exact whenAdmitted_faulted h
  case nop => simp only [exec, execNop]; exact whenAdmitted_faulted h
  case wflush => simp only [exec, execWflush]; exact whenAdmitted_faulted h
  case rbit => simp only [exec, execRbit]; exact whenAdmitted_faulted h
  case ctdrv => simp only [exec, execCtdrv]; exact whenAdmitted_faulted h
  case dstart => simp only [exec, execDstart]; exact whenAdmitted_faulted h
  case dstep => simp only [exec, execDstep]; exact whenAdmitted_faulted h
  case drun => simp only [exec, execDrun]; exact whenAdmitted_faulted h

theorem exec_release : exec .release s = .next (clearBlock s) := rfl

theorem exec_nop (s : State) : exec .nop s = .next s := by
  by_cases h : s.fault = true
  · exact exec_faulted _ (by simp) h
  · simp only [exec, execNop]
    exact whenAdmitted_admitted (by simpa using h) (by cases s.dstate <;> rfl)

theorem inAny_true (d : DState) : inAny d = true := by cases d <;> rfl

theorem inIdle_iff (d : DState) : inIdle d = true ↔ d = .idle := by cases d <;> simp [inIdle]

theorem inRunOrDone_iff (d : DState) : inRunOrDone d = true ↔ d ≠ .idle := by
  cases d <;> simp [inRunOrDone]

theorem exec_wbit (b : Bool) (h : s.fault = false) : exec (.wbit b) s = .next (putBit b s) := by
  simp only [exec, execWbit]
  exact whenAdmitted_admitted h (inAny_true _)

theorem exec_wflush (h : s.fault = false) : exec .wflush s = .next (flushWriter s) := by
  simp only [exec, execWflush]
  exact whenAdmitted_admitted h (inAny_true _)

theorem exec_rbit (h : s.fault = false) :
    exec .rbit s = match readBit s with
      | none => .next (setResult false true s)
      | some (b, s') => .next (setResult b false s') := by
  simp only [exec, execRbit]
  exact whenAdmitted_admitted h (inAny_true _)

theorem exec_enc (sym : Symbol) (h : s.fault = false) :
    exec (.enc sym) s = match encEntry s sym with
      | none => .next (raise .internalConsistency s)
      | some e => .next (putBits (ctCode e) s) := by
  simp only [exec, execEnc]
  exact whenAdmitted_admitted h (inAny_true _)

theorem encEntry_some {sym : Symbol} (h1 : sym.toNat ≤ 256)
    (h2 : (ctEntry s sym.toNat).valid = true) : encEntry s sym = some (ctEntry s sym.toNat) := by
  simp [encEntry, h1, h2]

theorem encEntry_none {sym : Symbol} (h : ¬ (sym.toNat ≤ 256 ∧ (ctEntry s sym.toNat).valid = true)) :
    encEntry s sym = none := by
  unfold encEntry; exact if_neg h

theorem exec_ctdrv (h : s.fault = false) (hd : s.dstate = .idle) :
    exec .ctdrv s = if s.rootV then
      match derive s Config.maxLen s.rootH [] [] with
      | .error c => .next (raise c s)
      | .ok t => .next (setCt t s)
    else .next (raise .emptyTree s) := by
  simp only [exec, execCtdrv]
  exact whenAdmitted_admitted h ((inIdle_iff _).mpr hd)

theorem exec_setroot {h : Handle} (hr : h.toNat ≤ 512) (hf : s.fault = false)
    (hd : s.dstate = .idle) : exec (.setroot h) s = .next (setRoot h s) := by
  simp only [exec, execSetroot, Config.hMax, hr, if_true]
  exact whenAdmitted_admitted hf ((inIdle_iff _).mpr hd)

theorem exec_setroot_outOfRange {h : Handle} (hr : ¬ h.toNat ≤ 512) (hf : s.fault = false) :
    exec (.setroot h) s = .next (raise .illegalCmd s) := by
  simp only [exec, execSetroot, Config.hMax, hr, if_false]
  exact whenAdmitted_admitted hf (inAny_true _)

theorem exec_dstart (h : s.fault = false) (hd : s.dstate = .idle) :
    exec .dstart s = if s.rootV then
      if written s s.rootH then .next (startAt (nodeSym (nodeWord s s.rootH)) s)
      else .next (raise .badTree s)
    else .next (raise .emptyTree s) := by
  simp only [exec, execDstart]
  exact whenAdmitted_admitted h ((inIdle_iff _).mpr hd)

theorem exec_dstep_run (h : s.fault = false) (hd : s.dstate = .run) :
    exec .dstep s = .next (stepTree s) := by
  have := whenAdmitted_admitted
    (body := fun s => if s.dstate = .run then Host.Outcome.next (stepTree s) else .next s)
    h ((inRunOrDone_iff s.dstate).mpr (by simp [hd]))
  simpa [exec, execDstep, hd] using this

theorem exec_drun_active (h : s.fault = false) (hd : s.dstate ≠ .idle) :
    exec .drun s = .next (runTree (bitsLeft s + 1) s) := by
  simp only [exec, execDrun]
  exact whenAdmitted_admitted h ((inRunOrDone_iff _).mpr hd)

/-- CTDRV and DSTART are admitted in IDLE only (R90 step 4, R92). -/
theorem exec_notIdle {i : Instr} (h : s.fault = false) (hd : s.dstate ≠ .idle)
    (hi : i = .ctdrv ∨ i = .dstart) : exec i s = .next (raise .illegalCmd s) := by
  have ha : inIdle s.dstate = false := by simpa using mt (inIdle_iff s.dstate).mp hd
  rcases hi with rfl | rfl
  · simp only [exec, execCtdrv]; exact whenAdmitted_refused h ha
  · simp only [exec, execDstart]; exact whenAdmitted_refused h ha

/-- So is SETROOT. -/
theorem exec_setroot_notIdle {x : Handle} (hr : x.toNat ≤ 512) (h : s.fault = false)
    (hd : s.dstate ≠ .idle) : exec (.setroot x) s = .next (raise .illegalCmd s) := by
  simp only [exec, execSetroot, Config.hMax, hr, if_true]
  exact whenAdmitted_refused h (by simpa using mt (inIdle_iff s.dstate).mp hd)

/-- DSTEP and DRUN are not admitted in IDLE (R90 step 4, R92). -/
theorem exec_idle {i : Instr} (h : s.fault = false) (hd : s.dstate = .idle)
    (hi : i = .dstep ∨ i = .drun) : exec i s = .next (raise .illegalCmd s) := by
  have ha : inRunOrDone s.dstate = false := by simp [hd, inRunOrDone]
  rcases hi with rfl | rfl
  · simp only [exec, execDstep]; exact whenAdmitted_refused h ha
  · simp only [exec, execDrun]; exact whenAdmitted_refused h ha

/-! ### Inversions -/

/-- The ways DSTART can put the decoder at the root (R152). -/
theorem startAt_cases (sym : Symbol) (s : State) :
    (sym = Config.peof ∧ startAt sym s = setDState .done (setCur s.rootH s)) ∨
    (sym = Config.nas ∧ startAt sym s = setDState .run (setCur s.rootH s)) ∨
    (sym ≠ Config.peof ∧ sym ≠ Config.nas ∧ startAt sym s = raise .badTree s) := by
  unfold startAt
  split
  · next h => exact .inl ⟨h, rfl⟩
  · next h =>
    split
    · next h' => exact .inr (.inl ⟨h', rfl⟩)
    · next h' => exact .inr (.inr ⟨h, h', rfl⟩)

theorem derive_unwritten {levels : Nat} {h : Handle} {path : List Bool} {tab : Memory CtEntry}
    (hw : written s h = false) : derive s levels h path tab = .error .badTree := by
  unfold derive; simp [hw]

theorem derive_leaf {levels : Nat} {h : Handle} {path : List Bool} {tab : Memory CtEntry}
    (hw : written s h = true) (hn : nodeSym (nodeWord s h) ≠ Config.nas) :
    derive s levels h path tab = recordLeaf (nodeSym (nodeWord s h)) path tab := by
  unfold derive; rw [if_pos hw, if_neg hn]

theorem derive_inner_zero {h : Handle} {path : List Bool} {tab : Memory CtEntry}
    (hw : written s h = true) (hn : nodeSym (nodeWord s h) = Config.nas) :
    derive s 0 h path tab = .error .badTree := by
  unfold derive; rw [if_pos hw, if_pos hn]

theorem derive_inner_succ {levels : Nat} {h : Handle} {path : List Bool} {tab : Memory CtEntry}
    (hw : written s h = true) (hn : nodeSym (nodeWord s h) = Config.nas) :
    derive s (levels + 1) h path tab =
      match derive s levels (nodeZc (nodeWord s h)) (path ++ [false]) tab with
      | .error c => .error c
      | .ok tab' => derive s levels (nodeOc (nodeWord s h)) (path ++ [true]) tab' := by
  conv_lhs => unfold derive
  exact (if_pos hw).trans (if_pos hn)

/-- A leaf is recorded, or refused with BAD_TREE (R134). -/
theorem recordLeaf_cases (sym : Symbol) (path : List Bool) (tab : Memory CtEntry) :
    (sym.toNat ≤ 256 ∧ (tab.read CtEntry.empty sym.toNat).valid = false ∧
      recordLeaf sym path tab = .ok (tab.write CtEntry.empty sym.toNat (entryOfPath path))) ∨
    ((256 < sym.toNat ∨ (tab.read CtEntry.empty sym.toNat).valid = true) ∧
      recordLeaf sym path tab = .error .badTree) := by
  unfold recordLeaf
  by_cases h1 : sym.toNat ≤ Config.symMax
  · rw [if_pos h1]
    by_cases h2 : (tab.read CtEntry.empty sym.toNat).valid = true
    · exact .inr ⟨.inr h2, by rw [if_pos h2]⟩
    · exact .inl ⟨h1, by simpa using h2, by rw [if_neg h2]⟩
  · rw [if_neg h1]; exact .inr ⟨.inl (by simpa using h1), rfl⟩

/-- Derive refuses with BAD_TREE and nothing else (R134). -/
theorem derive_error {levels : Nat} {h : Handle} {path : List Bool} {tab : Memory CtEntry} {c : Cause}
    (e : derive s levels h path tab = .error c) : c = .badTree := by
  induction levels generalizing h path tab with
  | zero =>
    by_cases hw : written s h = true
    · by_cases hn : nodeSym (nodeWord s h) = Config.nas
      · rw [derive_inner_zero hw hn] at e; exact (Except.error.inj e).symm
      · rw [derive_leaf hw hn] at e
        rcases recordLeaf_cases (nodeSym (nodeWord s h)) path tab with ⟨_, _, h'⟩ | ⟨_, h'⟩
        · rw [h'] at e; simp at e
        · rw [h'] at e; exact (Except.error.inj e).symm
    · rw [derive_unwritten (by simpa using hw)] at e; exact (Except.error.inj e).symm
  | succ n ih =>
    by_cases hw : written s h = true
    · by_cases hn : nodeSym (nodeWord s h) = Config.nas
      · rw [derive_inner_succ hw hn] at e
        split at e
        · next c' he => exact ih (he.trans e)
        · exact ih e
      · rw [derive_leaf hw hn] at e
        rcases recordLeaf_cases (nodeSym (nodeWord s h)) path tab with ⟨_, _, h'⟩ | ⟨_, h'⟩
        · rw [h'] at e; simp at e
        · rw [h'] at e; exact (Except.error.inj e).symm
    · rw [derive_unwritten (by simpa using hw)] at e; exact (Except.error.inj e).symm

/-- Everything a command can answer when it answers a next state. -/
theorem exec_next {i : Instr} (h : exec i s = .next t) :
    t = s ∨
    (i = .release ∧ t = clearBlock s) ∨
    (s.fault = false ∧ ∃ c, c ≠ .none ∧ t = raise c s) ∨
    (s.fault = false ∧ ((∃ b, i = .wbit b) ∨ ∃ y, i = .enc y) ∧ ∃ bs, t = putBits bs s) ∨
    (s.fault = false ∧ i = .wflush ∧ t = flushWriter s) ∨
    (s.fault = false ∧ i = .rbit ∧ readBit s = none ∧ t = setResult false true s) ∨
    (s.fault = false ∧ i = .rbit ∧ ∃ b s', readBit s = some (b, s') ∧ t = setResult b false s') ∨
    (s.fault = false ∧ i = .ctdrv ∧ s.dstate = .idle ∧ s.rootV = true ∧
      ∃ tab, derive s 256 s.rootH [] [] = .ok tab ∧ t = setCt tab s) ∨
    (s.fault = false ∧ s.dstate = .idle ∧ ∃ x : Handle, i = .setroot x ∧ x.toNat ≤ 512 ∧ t = setRoot x s) ∨
    (s.fault = false ∧ i = .dstart ∧ s.dstate = .idle ∧ s.rootV = true ∧ written s s.rootH = true ∧
      ((nodeSym (nodeWord s s.rootH) = Config.peof ∧ t = setDState .done (setCur s.rootH s)) ∨
       (nodeSym (nodeWord s s.rootH) = Config.nas ∧ t = setDState .run (setCur s.rootH s)))) ∨
    (s.fault = false ∧ i = .dstep ∧ s.dstate = .run ∧ t = stepTree s) ∨
    (s.fault = false ∧ i = .drun ∧ s.dstate = .run ∧ t = runTree (bitsLeft s + 1) s) := by
  by_cases hf : s.fault = true
  · by_cases hi : i = .release
    · subst hi; exact .inr (.inl ⟨rfl, (Host.Outcome.next.inj h).symm⟩)
    · rw [exec_faulted i hi hf] at h; exact .inl (Host.Outcome.next.inj h).symm
  · have hf : s.fault = false := by simpa using hf
    have bad : ∀ c, c ≠ .none → t = raise c s → (s.fault = false ∧ ∃ c, c ≠ .none ∧ t = raise c s) :=
      fun c hc ht => ⟨hf, c, hc, ht⟩
    cases i with
    | nop => rw [exec_nop] at h; exact .inl (Host.Outcome.next.inj h).symm
    | release => exact .inr (.inl ⟨rfl, (Host.Outcome.next.inj h).symm⟩)
    | wbit b =>
      rw [exec_wbit b hf] at h
      exact .inr (.inr (.inr (.inl ⟨hf, .inl ⟨b, rfl⟩, [b], (Host.Outcome.next.inj h).symm⟩)))
    | wflush =>
      rw [exec_wflush hf] at h
      exact .inr (.inr (.inr (.inr (.inl ⟨hf, rfl, (Host.Outcome.next.inj h).symm⟩))))
    | rbit =>
      rw [exec_rbit hf] at h
      split at h
      · next hr =>
        exact .inr (.inr (.inr (.inr (.inr (.inl ⟨hf, rfl, hr, (Host.Outcome.next.inj h).symm⟩)))))
      · next b s' hr =>
        exact .inr (.inr (.inr (.inr (.inr (.inr (.inl
          ⟨hf, rfl, b, s', hr, (Host.Outcome.next.inj h).symm⟩))))))
    | enc y =>
      rw [exec_enc y hf] at h
      split at h
      · exact .inr (.inr (.inl (bad _ (by simp) (Host.Outcome.next.inj h).symm)))
      · next e _ =>
        exact .inr (.inr (.inr (.inl ⟨hf, .inr ⟨y, rfl⟩, ctCode e, (Host.Outcome.next.inj h).symm⟩)))
    | ctdrv =>
      by_cases hd : s.dstate = .idle
      · rw [exec_ctdrv hf hd] at h
        split at h
        · next hv =>
          split at h
          · next c hc =>
            exact .inr (.inr (.inl (bad c (by rw [derive_error hc]; simp) (Host.Outcome.next.inj h).symm)))
          · next tab htab =>
            exact .inr (.inr (.inr (.inr (.inr (.inr (.inr (.inl
              ⟨hf, rfl, hd, hv, tab, htab, (Host.Outcome.next.inj h).symm⟩)))))))
        · exact .inr (.inr (.inl (bad _ (by simp) (Host.Outcome.next.inj h).symm)))
      · have : exec .ctdrv s = .next (raise .illegalCmd s) := exec_notIdle hf hd (by simp)
        rw [this] at h
        exact .inr (.inr (.inl (bad _ (by simp) (Host.Outcome.next.inj h).symm)))
    | setroot x =>
      by_cases hr : x.toNat ≤ 512
      · by_cases hd : s.dstate = .idle
        · rw [exec_setroot hr hf hd] at h
          exact .inr (.inr (.inr (.inr (.inr (.inr (.inr (.inr (.inl
            ⟨hf, hd, x, rfl, hr, (Host.Outcome.next.inj h).symm⟩))))))))
        · have : exec (.setroot x) s = .next (raise .illegalCmd s) := exec_setroot_notIdle hr hf hd
          rw [this] at h
          exact .inr (.inr (.inl (bad _ (by simp) (Host.Outcome.next.inj h).symm)))
      · rw [exec_setroot_outOfRange hr hf] at h
        exact .inr (.inr (.inl (bad _ (by simp) (Host.Outcome.next.inj h).symm)))
    | dstart =>
      by_cases hd : s.dstate = .idle
      · rw [exec_dstart hf hd] at h
        split at h
        · next hv =>
          split at h
          · next hw =>
            have ht := (Host.Outcome.next.inj h).symm
            rcases startAt_cases (nodeSym (nodeWord s s.rootH)) s with ⟨h1, h2⟩ | ⟨h1, h2⟩ | ⟨_, _, h2⟩
            · exact .inr (.inr (.inr (.inr (.inr (.inr (.inr (.inr (.inr (.inl
                ⟨hf, rfl, hd, hv, hw, .inl ⟨h1, ht.trans h2⟩⟩)))))))))
            · exact .inr (.inr (.inr (.inr (.inr (.inr (.inr (.inr (.inr (.inl
                ⟨hf, rfl, hd, hv, hw, .inr ⟨h1, ht.trans h2⟩⟩)))))))))
            · exact .inr (.inr (.inl (bad _ (by simp) (ht.trans h2))))
          · exact .inr (.inr (.inl (bad _ (by simp) (Host.Outcome.next.inj h).symm)))
        · exact .inr (.inr (.inl (bad _ (by simp) (Host.Outcome.next.inj h).symm)))
      · have : exec .dstart s = .next (raise .illegalCmd s) := exec_notIdle hf hd (by simp)
        rw [this] at h
        exact .inr (.inr (.inl (bad _ (by simp) (Host.Outcome.next.inj h).symm)))
    | dstep =>
      rcases hd : s.dstate with _ | _ | _
      · have : exec .dstep s = .next (raise .illegalCmd s) := exec_idle hf hd (by simp)
        rw [this] at h
        exact .inr (.inr (.inl (bad _ (by simp) (Host.Outcome.next.inj h).symm)))
      · rw [exec_dstep_run hf hd] at h
        simp [hf, (Host.Outcome.next.inj h).symm]
      · have : exec .dstep s = .next s := by
          simp [exec, execDstep, whenAdmitted, hf, hd, inRunOrDone]
        rw [this] at h; exact .inl (Host.Outcome.next.inj h).symm
    | drun =>
      rcases hd : s.dstate with _ | _ | _
      · have : exec .drun s = .next (raise .illegalCmd s) := exec_idle hf hd (by simp)
        rw [this] at h
        exact .inr (.inr (.inl (bad _ (by simp) (Host.Outcome.next.inj h).symm)))
      · rw [exec_drun_active hf (by simp [hd])] at h
        simp [hf, (Host.Outcome.next.inj h).symm]
      · rw [exec_drun_active hf (by simp [hd])] at h
        simp only [runTree, hd] at h
        simp at h
        exact .inl h.symm

/-- What a write outside CMD can do while no fault is latched (R71, R72). -/
theorem writeRegion_cases (r : Region) (data : Word) (s : State) :
    writeRegion r data s = raise .illegalAccess s ∨
    (s.dstate = .idle ∧
      ((∃ h, r = .node h ∧ writeRegion r data s = writeNode h data s) ∨
       (∃ h, r = .nodeW h ∧ writeRegion r data s = writeNodeW h data s) ∨
       (∃ k, r = .ctHead k ∧ ctHeadLen data ≤ 256 ∧
          writeRegion r data s = writeCt k (ctSetHead (ctEntry s k) data) s) ∨
       (∃ k j, r = .ctCode k j ∧
          writeRegion r data s = writeCt k (ctSetCodeWord (ctEntry s k) j data) s))) := by
  cases r
  case node h =>
    by_cases hd : s.dstate = .idle
    · exact .inr ⟨hd, .inl ⟨h, rfl, by simp [writeRegion, whenIdle, hd]⟩⟩
    · exact .inl (by simp [writeRegion, whenIdle, hd])
  case nodeW h =>
    by_cases hd : s.dstate = .idle
    · exact .inr ⟨hd, .inr (.inl ⟨h, rfl, by simp [writeRegion, whenIdle, hd]⟩)⟩
    · exact .inl (by simp [writeRegion, whenIdle, hd])
  case ctHead k =>
    by_cases hd : s.dstate = .idle
    · by_cases hl : ctHeadLen data ≤ 256
      · exact .inr ⟨hd, .inr (.inr (.inl ⟨k, rfl, hl, by simp [writeRegion, whenIdle, hd, hl]⟩))⟩
      · exact .inl (by simp [writeRegion, whenIdle, hd, hl])
    · exact .inl (by simp [writeRegion, whenIdle, hd])
  case ctCode k j =>
    by_cases hd : s.dstate = .idle
    · exact .inr ⟨hd, .inr (.inr (.inr ⟨k, j, rfl, by simp [writeRegion, whenIdle, hd]⟩))⟩
    · exact .inl (by simp [writeRegion, whenIdle, hd])
  all_goals exact .inl rfl

/-- Everything one step can answer when it answers a next state (R5, R70, R71, R210). -/
theorem step_next (h : step s = .next t) :
    (s.hostOps = [] ∧ t = s) ∨
    ∃ op ops, s.hostOps = op :: ops ∧
      ((∃ a, op = .read a ∧
          t = { s with hostOps := ops, hostReads := s.hostReads ++ [hostRead s a] }) ∨
       (op = .reset ∧ t = clearBlock { s with hostOps := ops }) ∨
       (∃ bytes, op = .openSrc bytes ∧ t = { s with hostOps := ops, src := bytes, srcPos := 0 }) ∨
       (∃ a d, op = .write a d ∧
          ((s.fault = true ∧ a = 0x0000#16 ∧ d = 0x00001000#32 ∧
              t = clearBlock { s with hostOps := ops }) ∨
           (s.fault = true ∧ ¬ (a = 0x0000#16 ∧ d = 0x00001000#32) ∧ t = { s with hostOps := ops }) ∨
           (s.fault = false ∧ a = 0x0000#16 ∧ ∃ i, decode d = .ok i ∧
              exec i { s with hostOps := ops } = .next t) ∨
           (s.fault = false ∧ a = 0x0000#16 ∧ (∃ e, decode d = .error e) ∧
              t = raise .illegalCmd { s with hostOps := ops }) ∨
           (s.fault = false ∧ a ≠ 0x0000#16 ∧
              t = writeRegion (region a) d { s with hostOps := ops })))) := by
  unfold step serveHost at h
  split at h
  · next ho => exact .inl ⟨ho, (Host.Outcome.next.inj h).symm⟩
  · next op ops ho =>
    refine .inr ⟨op, ops, ho, ?_⟩
    cases op with
    | read a => exact .inl ⟨a, rfl, (Host.Outcome.next.inj h).symm⟩
    | reset => exact .inr (.inl ⟨rfl, (Host.Outcome.next.inj h).symm⟩)
    | openSrc bytes => exact .inr (.inr (.inl ⟨bytes, rfl, (Host.Outcome.next.inj h).symm⟩))
    | write a d =>
      refine .inr (.inr (.inr ⟨a, d, rfl, ?_⟩))
      simp only [hostOp, hostWrite] at h
      by_cases hf : s.fault = true
      · rw [if_pos hf] at h
        split at h
        · next hc => exact .inl ⟨hf, hc.1, hc.2, (Host.Outcome.next.inj h).symm⟩
        · next hc => exact .inr (.inl ⟨hf, hc, (Host.Outcome.next.inj h).symm⟩)
      · have hf' : s.fault = false := by simpa using hf
        rw [if_neg hf] at h
        split at h
        · next ha =>
          unfold execute at h
          split at h
          · next i hi => exact .inr (.inr (.inl ⟨hf', ha, i, hi, h⟩))
          · next e he => exact .inr (.inr (.inr (.inl ⟨hf', ha, ⟨e, he⟩, (Host.Outcome.next.inj h).symm⟩)))
        · next ha => exact .inr (.inr (.inr (.inr ⟨hf', ha, (Host.Outcome.next.inj h).symm⟩)))

end Sys2Proof.Machine
end

