-- ==== Sys2Proof/Laws/Bus.lean ====
section
/-! SUPPORT. The address map (R62): which region an address names, and which address a region has. -/

namespace Sys2Proof.Machine

variable {a : BusAddr}

theorem region_register (h : a.toNat < 0x0800) : region a = regRegion a.toNat := by
  unfold region; rw [if_pos h]

theorem region_node {h : Nat} (hh : h ≤ 512) (e : a.toNat = 0x0800 + h) : region a = .node h := by
  unfold region
  rw [if_neg (by omega), if_pos (by omega), e, Nat.add_sub_cancel_left]

theorem region_nodeW {h : Nat} (hh : h ≤ 512) (e : a.toNat = 0x0C00 + h) : region a = .nodeW h := by
  unfold region
  rw [if_neg (by omega), if_neg (by omega), if_neg (by omega), if_pos (by omega), e,
    Nat.add_sub_cancel_left]

theorem region_codeTable (h1 : 0x1000 ≤ a.toNat) (h2 : a.toNat ≤ 0x200F) :
    region a = ctRegion (a.toNat - 0x1000) := by
  unfold region
  rw [if_neg (by omega), if_neg (by omega), if_neg (by omega), if_neg (by omega),
    if_neg (by omega), if_pos h2]

theorem region_ctHead {k : Nat} (hk : k ≤ 256) (e : a.toNat = 0x1000 + 16 * k) :
    region a = .ctHead k := by
  rw [region_codeTable (by omega) (by omega), e, Nat.add_sub_cancel_left]
  unfold ctRegion
  rw [if_pos (by omega), Nat.mul_div_cancel_left k (by omega)]

theorem region_ctCode {k j : Nat} (hk : k ≤ 256) (h1 : 1 ≤ j) (h8 : j ≤ 8)
    (e : a.toNat = 0x1000 + 16 * k + j) : region a = .ctCode k j := by
  have e' : a.toNat - 0x1000 = 16 * k + j := by omega
  rw [region_codeTable (by omega) (by omega), e']
  unfold ctRegion
  have hm : (16 * k + j) % 16 = j := by omega
  have hd : (16 * k + j) / 16 = k := by omega
  rw [hm, hd, if_neg (by omega), if_pos h8]

theorem regRegion_ge {n : Nat} (h : 7 ≤ n) : regRegion n = .unmapped := by
  unfold regRegion
  split <;> first | omega | rfl

theorem region_unmapped (h : (7 ≤ a.toNat ∧ a.toNat ≤ 0x07FF) ∨
    (0x0A01 ≤ a.toNat ∧ a.toNat ≤ 0x0BFF) ∨ (0x0E01 ≤ a.toNat ∧ a.toNat ≤ 0x0FFF) ∨
    0x2010 ≤ a.toNat ∨ (0x1000 ≤ a.toNat ∧ a.toNat ≤ 0x200F ∧ 9 ≤ a.toNat % 16)) :
    region a = .unmapped := by
  rcases h with ⟨h1, h2⟩ | ⟨h1, h2⟩ | ⟨h1, h2⟩ | h1 | ⟨h1, h2, h3⟩
  · rw [region_register (by omega), regRegion_ge h1]
  · unfold region
    rw [if_neg (by omega), if_neg (by omega), if_pos (by omega)]
  · unfold region
    rw [if_neg (by omega), if_neg (by omega), if_neg (by omega), if_neg (by omega), if_pos (by omega)]
  · unfold region
    rw [if_neg (by omega), if_neg (by omega), if_neg (by omega), if_neg (by omega), if_neg (by omega),
      if_neg (by omega)]
  · rw [region_codeTable h1 h2]
    unfold ctRegion
    rw [if_neg (by omega), if_neg (by omega)]

/-- Every address is one of these (R62). -/
theorem region_cases (a : BusAddr) :
    (a.toNat < 7 ∧ region a = regRegion a.toNat) ∨
    (∃ h, h ≤ 512 ∧ a.toNat = 0x0800 + h ∧ region a = .node h) ∨
    (∃ h, h ≤ 512 ∧ a.toNat = 0x0C00 + h ∧ region a = .nodeW h) ∨
    (∃ k, k ≤ 256 ∧ a.toNat = 0x1000 + 16 * k ∧ region a = .ctHead k) ∨
    (∃ k j, k ≤ 256 ∧ 1 ≤ j ∧ j ≤ 8 ∧ a.toNat = 0x1000 + 16 * k + j ∧ region a = .ctCode k j) ∨
    region a = .unmapped := by
  by_cases h0 : a.toNat < 7
  · exact .inl ⟨h0, region_register (by omega)⟩
  by_cases h1 : a.toNat ≤ 0x07FF
  · exact .inr (.inr (.inr (.inr (.inr (region_unmapped (.inl ⟨by omega, h1⟩))))))
  by_cases h2 : a.toNat ≤ 0x0A00
  · exact .inr (.inl ⟨a.toNat - 0x0800, by omega, by omega, region_node (by omega) (by omega)⟩)
  by_cases h3 : a.toNat ≤ 0x0BFF
  · exact .inr (.inr (.inr (.inr (.inr (region_unmapped (.inr (.inl ⟨by omega, h3⟩)))))))
  by_cases h4 : a.toNat ≤ 0x0E00
  · exact .inr (.inr (.inl ⟨a.toNat - 0x0C00, by omega, by omega, region_nodeW (by omega) (by omega)⟩))
  by_cases h5 : a.toNat ≤ 0x0FFF
  · exact .inr (.inr (.inr (.inr (.inr (region_unmapped (.inr (.inr (.inl ⟨by omega, h5⟩))))))))
  by_cases h6 : a.toNat ≤ 0x200F
  · by_cases h7 : a.toNat % 16 = 0
    · exact .inr (.inr (.inr (.inl ⟨(a.toNat - 0x1000) / 16, by omega, by omega,
        region_ctHead (by omega) (by omega)⟩)))
    · by_cases h8 : a.toNat % 16 ≤ 8
      · exact .inr (.inr (.inr (.inr (.inl ⟨(a.toNat - 0x1000) / 16, a.toNat % 16, by omega,
          by omega, h8, by omega, region_ctCode (by omega) (by omega) h8 (by omega)⟩))))
      · exact .inr (.inr (.inr (.inr (.inr (region_unmapped
          (.inr (.inr (.inr (.inr ⟨by omega, h6, by omega⟩)))))))))
  · exact .inr (.inr (.inr (.inr (.inr (region_unmapped (.inr (.inr (.inr (.inl (by omega))))))))))

/-- The registers are no table entry. -/
theorem regRegion_cases (n : Nat) (hn : n < 7) :
    regRegion n = .cmd ∨ regRegion n = .status ∨ regRegion n = .result ∨ regRegion n = .root ∨
      regRegion n = .cur ∨ regRegion n = .bwstate ∨ regRegion n = .brstate := by
  interval_cases n <;> simp [regRegion]

/-- An entry a table write reaches is inside its table. -/
theorem region_inRange (a : BusAddr) :
    (∀ h, region a = .node h → h ≤ 512) ∧ (∀ h, region a = .nodeW h → h ≤ 512) ∧
    (∀ k, region a = .ctHead k → k ≤ 256) ∧ (∀ k j, region a = .ctCode k j → k ≤ 256) := by
  rcases region_cases a with ⟨h0, e⟩ | ⟨h, hh, _, e⟩ | ⟨h, hh, _, e⟩ | ⟨k, hk, _, e⟩ |
    ⟨k, j, hk, _, _, _, e⟩ | e
  · rcases regRegion_cases _ h0 with h | h | h | h | h | h | h <;> rw [e, h] <;> simp
  all_goals rw [e]; simp <;> omega

end Sys2Proof.Machine
end

