-- ==== Sys2Proof/Laws/CodeTable.lean ====
section
/-! SUPPORT. What `Derive` does when it succeeds, said once: every node it reaches is written, every
leaf gets its path, every other entry keeps its value (R134, R136); and when it succeeds. -/

namespace Sys2Proof.Machine

variable {s : State}

/-- The code a recorded path gives back, for a path the deriver can have (R134). -/
theorem ctCode_entryOfPath {p : List Bool} (h : p.length ≤ 256) : ctCode (entryOfPath p) = p := by
  have hm : p.length % 257 = p.length := Nat.mod_eq_of_lt (by omega)
  apply List.ext_getElem
  · simp [ctCode, entryOfPath, hm]
  · intro i h1 h2
    have hi : i < 256 := by omega
    simp only [ctCode, entryOfPath, codeOfPath, List.getElem_map, List.getElem_range,
      BitVec.getLsbD_setWidth, BitVec.getLsbD_ofBoolListLE]
    simp [hi, h2]

theorem entryOfPath_valid (p : List Bool) : (entryOfPath p).valid = true := rfl

theorem entryOfPath_len {p : List Bool} (h : p.length ≤ 256) : (entryOfPath p).len.val = p.length := by
  simpa [entryOfPath] using Nat.mod_eq_of_lt (show p.length < 257 by omega)

theorem entryOfPath_clean (p : List Bool) (i : Nat) (h : p.length ≤ i) :
    (entryOfPath p).code.getLsbD i = false := by
  simp [entryOfPath, codeOfPath, h]

/-- A successful `Derive` reached only written nodes, recorded every leaf below `h` with its path in
an entry that was empty before, and left every other entry alone. -/
theorem derive_ok {levels : Nat} : ∀ {h : Handle} {path : List Bool} {tab tab' : Memory CtEntry},
    path.length + levels ≤ 256 → derive s levels h path tab = .ok tab' →
    (∀ c g, leadsTo s h c g → written s g = true ∧ (isInternal s g → (path ++ c).length < 256) ∧
      (¬ isInternal s g → (nodeSym (nodeWord s g)).toNat ≤ 256 ∧ (path ++ c).length ≤ 256 ∧
      (tab.read CtEntry.empty (nodeSym (nodeWord s g)).toNat).valid = false ∧
      tab'.read CtEntry.empty (nodeSym (nodeWord s g)).toNat = entryOfPath (path ++ c))) ∧
    (∀ k, (∃ c g, leadsTo s h c g ∧ ¬ isInternal s g ∧ (nodeSym (nodeWord s g)).toNat = k) ∨
      tab'.read CtEntry.empty k = tab.read CtEntry.empty k) := by
  have leafCase : ∀ {h : Handle} {path : List Bool} {tab tab' : Memory CtEntry},
      path.length ≤ 256 → written s h = true → ¬ isInternal s h →
      recordLeaf (nodeSym (nodeWord s h)) path tab = .ok tab' →
      (∀ c g, leadsTo s h c g → written s g = true ∧ (isInternal s g → (path ++ c).length < 256) ∧
        (¬ isInternal s g → (nodeSym (nodeWord s g)).toNat ≤ 256 ∧ (path ++ c).length ≤ 256 ∧
        (tab.read CtEntry.empty (nodeSym (nodeWord s g)).toNat).valid = false ∧
        tab'.read CtEntry.empty (nodeSym (nodeWord s g)).toNat = entryOfPath (path ++ c))) ∧
      (∀ k, (∃ c g, leadsTo s h c g ∧ ¬ isInternal s g ∧ (nodeSym (nodeWord s g)).toNat = k) ∨
        tab'.read CtEntry.empty k = tab.read CtEntry.empty k) := by
    intro h path tab tab' hp hw hn e
    rcases recordLeaf_cases (nodeSym (nodeWord s h)) path tab with ⟨h1, h2, h3⟩ | ⟨_, h3⟩
    · rw [h3] at e
      cases e
      refine ⟨fun c g hl => ?_, fun k => ?_⟩
      · cases c with
        | nil =>
          obtain rfl : g = h := hl
          exact ⟨hw, fun hi => absurd hi hn, fun _ => ⟨h1, by simpa using hp, h2, by simp⟩⟩
        | cons b bs => exact absurd hl.1 hn
      · by_cases hk : k = (nodeSym (nodeWord s h)).toNat
        · exact .inl ⟨[], h, rfl, hn, hk.symm⟩
        · exact .inr (by simp [hk])
    · rw [h3] at e; cases e
  induction levels with
  | zero =>
    intro h path tab tab' hp e
    by_cases hw : written s h = true
    · by_cases hn : isInternal s h
      · rw [derive_inner_zero hw hn] at e; cases e
      · rw [derive_leaf hw hn] at e; exact leafCase (by omega) hw hn e
    · rw [derive_unwritten (by simpa using hw)] at e; cases e
  | succ n ih =>
    intro h path tab tab' hp e
    by_cases hw : written s h = true
    · by_cases hn : isInternal s h
      · rw [derive_inner_succ hw hn] at e
        split at e
        · cases e
        · next t1 h1 =>
          obtain ⟨a1, b1⟩ := ih (by simp; omega) h1
          obtain ⟨a2, b2⟩ := ih (by simp; omega) e
          refine ⟨fun c g hl => ?_, fun k => ?_⟩
          · cases c with
            | nil =>
              obtain rfl : g = h := hl
              exact ⟨hw, fun _ => by simp; omega, fun hg => absurd hn hg⟩
            | cons b bs =>
              cases b with
              | false =>
                obtain ⟨hwg, hlen, hg⟩ := a1 bs g hl.2
                rw [List.append_assoc] at hlen
                refine ⟨hwg, hlen, fun hi => ?_⟩
                obtain ⟨g1, g2, g3, g4⟩ := hg hi
                rw [List.append_assoc] at g2 g4
                refine ⟨g1, g2, g3, ?_⟩
                rcases b2 (nodeSym (nodeWord s g)).toNat with ⟨c2, g', hl', hi', hs'⟩ | h2
                · have := ((a2 c2 g' hl').2.2 hi').2.2.1
                  rw [hs', g4] at this
                  simp [entryOfPath] at this
                · exact h2.trans g4
              | true =>
                obtain ⟨hwg, hlen, hg⟩ := a2 bs g hl.2
                rw [List.append_assoc] at hlen
                refine ⟨hwg, hlen, fun hi => ?_⟩
                obtain ⟨g1, g2, g3, g4⟩ := hg hi
                rw [List.append_assoc] at g2 g4
                refine ⟨g1, g2, ?_, g4⟩
                rcases b1 (nodeSym (nodeWord s g)).toNat with ⟨c2, g', hl', hi', hs'⟩ | h2
                · have := ((a1 c2 g' hl').2.2 hi').2.2.2
                  rw [hs'] at this
                  rw [this] at g3
                  simp [entryOfPath] at g3
                · rw [← h2]; exact g3
          · rcases b2 k with ⟨c, g, hl, hi, hs⟩ | h2
            · exact .inl ⟨true :: c, g, ⟨hn, hl⟩, hi, hs⟩
            · rcases b1 k with ⟨c, g, hl, hi, hs⟩ | h3
              · exact .inl ⟨false :: c, g, ⟨hn, hl⟩, hi, hs⟩
              · exact .inr (h2.trans h3)
      · rw [derive_leaf hw hn] at e; exact leafCase (by omega) hw hn e
    · rw [derive_unwritten (by simpa using hw)] at e; cases e

/-- What makes `Derive` succeed: every node below `h` is written and is an internal node above depth 256
or a leaf of a symbol of at most 256, no symbol stands on two paths, and none has an entry yet. -/
theorem derive_succeeds {levels : Nat} : ∀ {h : Handle} {path : List Bool} {tab : Memory CtEntry},
    path.length + levels = 256 →
    (∀ c g, leadsTo s h c g → written s g = true ∧
      ((isInternal s g ∧ (path ++ c).length < 256) ∨ (nodeSym (nodeWord s g)).toNat ≤ 256)) →
    (∀ c d g g', leadsTo s h c g → leadsTo s h d g' → (nodeSym (nodeWord s g)).toNat ≤ 256 →
      nodeSym (nodeWord s g) = nodeSym (nodeWord s g') → c = d) →
    (∀ c g, leadsTo s h c g → ¬ isInternal s g →
      (tab.read CtEntry.empty (nodeSym (nodeWord s g)).toNat).valid = false) →
    ∃ tab', derive s levels h path tab = .ok tab' := by
  have leafCase : ∀ {h : Handle} {path : List Bool} {tab : Memory CtEntry},
      (nodeSym (nodeWord s h)).toNat ≤ 256 → ¬ isInternal s h →
      (∀ c g, leadsTo s h c g → ¬ isInternal s g →
        (tab.read CtEntry.empty (nodeSym (nodeWord s g)).toNat).valid = false) →
      ∃ tab', recordLeaf (nodeSym (nodeWord s h)) path tab = .ok tab' := by
    intro h path tab hs hn hv
    rcases recordLeaf_cases (nodeSym (nodeWord s h)) path tab with ⟨_, _, h3⟩ | ⟨h1 | h1, _⟩
    · exact ⟨_, h3⟩
    · omega
    · rw [hv [] h rfl hn] at h1; cases h1
  induction levels with
  | zero =>
    intro h path tab hl hg _ hv
    obtain ⟨hw, hk⟩ := hg [] h rfl
    by_cases hn : isInternal s h
    · rcases hk with ⟨_, hk⟩ | hk
      · simp at hk; omega
      · rw [hn] at hk; simp at hk
    · rw [derive_leaf hw hn]
      exact leafCase (hk.resolve_left fun h => hn h.1) hn hv
  | succ n ih =>
    intro h path tab hl hg hu hv
    obtain ⟨hw, hk⟩ := hg [] h rfl
    by_cases hn : isInternal s h
    · have below : ∀ b c g, leadsTo s (childOf s h b) c g → written s g = true ∧
          ((isInternal s g ∧ ((path ++ [b]) ++ c).length < 256) ∨
            (nodeSym (nodeWord s g)).toNat ≤ 256) := fun b c g hc => by
        rw [List.append_assoc]; exact hg (b :: c) g ⟨hn, hc⟩
      have apart : ∀ b c d g g', leadsTo s (childOf s h b) c g → leadsTo s (childOf s h b) d g' →
          (nodeSym (nodeWord s g)).toNat ≤ 256 →
          nodeSym (nodeWord s g) = nodeSym (nodeWord s g') → c = d := fun b c d g g' hc hd hs e =>
        (List.cons.inj (hu (b :: c) (b :: d) g g' ⟨hn, hc⟩ ⟨hn, hd⟩ hs e)).2
      rw [derive_inner_succ hw hn]
      obtain ⟨t1, h1⟩ := ih (tab := tab) (by simp; omega) (below false) (apart false)
        fun c g hc hi => hv (false :: c) g ⟨hn, hc⟩ hi
      have h1' : derive s n (nodeZc (nodeWord s h)) (path ++ [false]) tab = .ok t1 := h1
      rw [h1']
      refine ih (by simp; omega) (below true) (apart true) fun c g hc hi => ?_
      rcases (derive_ok (by simp; omega) h1').2 (nodeSym (nodeWord s g)).toNat with
        ⟨c', g', hc', hi', e⟩ | e
      · have hs := (below true c g hc).2.resolve_left fun h => hi h.1
        have := hu (false :: c') (true :: c) g' g ⟨hn, hc'⟩ ⟨hn, hc⟩ (e ▸ hs) (BitVec.eq_of_toNat_eq e)
        simp at this
      · rw [e]; exact hv (true :: c) g ⟨hn, hc⟩ hi
    · rw [derive_leaf hw hn]
      exact leafCase (hk.resolve_left fun h => hn h.1) hn hv

/-- `Derive` keeps the canonical form of the table it fills. -/
theorem derive_wf {levels : Nat} {h : Handle} {path : List Bool} {tab tab' : Memory CtEntry}
    (hw : tab.wf 257 CtEntry.empty) (e : derive s levels h path tab = .ok tab') :
    tab'.wf 257 CtEntry.empty := by
  have leafCase : ∀ (y : Symbol) (p : List Bool) (t t' : Memory CtEntry),
      t.wf 257 CtEntry.empty → recordLeaf y p t = .ok t' → t'.wf 257 CtEntry.empty := by
    intro y p t t' ht h
    rcases recordLeaf_cases y p t with ⟨h1, _, h2⟩ | ⟨_, h2⟩
    · rw [h2] at h; cases h; exact Memory.wf_write _ ht (by omega)
    · rw [h2] at h; cases h
  induction levels generalizing h path tab tab' with
  | zero =>
    by_cases hw' : written s h = true
    · by_cases hn : nodeSym (nodeWord s h) = Config.nas
      · rw [derive_inner_zero hw' hn] at e; cases e
      · rw [derive_leaf hw' hn] at e; exact leafCase _ _ _ _ hw e
    · rw [derive_unwritten (by simpa using hw')] at e; cases e
  | succ n ih =>
    by_cases hw' : written s h = true
    · by_cases hn : nodeSym (nodeWord s h) = Config.nas
      · rw [derive_inner_succ hw' hn] at e
        split at e
        · cases e
        · next t1 h1 => exact ih (ih hw h1) e
      · rw [derive_leaf hw' hn] at e; exact leafCase _ _ _ _ hw e
    · rw [derive_unwritten (by simpa using hw')] at e; cases e

end Sys2Proof.Machine
end

