-- ==== Sys2Proof/Laws/Decode.lean ====
section
/-! SUPPORT. The fields of a command word (R91): a word is its three fields, so two words with the
same fields are one word. -/

namespace Sys2Proof

theorem getLsbD_fieldArg (cw : Word) (i : Nat) :
    (fieldArg cw).getLsbD i = (decide (i < 12) && cw.getLsbD i) := by
  simp [fieldArg]

theorem getLsbD_fieldOp (cw : Word) (i : Nat) :
    (fieldOp cw).getLsbD i = (decide (i < 4) && cw.getLsbD (12 + i)) := by
  simp [fieldOp]

theorem getLsbD_fieldZ (cw : Word) (i : Nat) :
    (fieldZ cw).getLsbD i = (decide (i < 16) && cw.getLsbD (16 + i)) := by
  simp [fieldZ]

/-- Two words with the same `Z`, `OP` and `ARG` are one word. -/
theorem word_ext {a b : Word} (hz : fieldZ a = fieldZ b) (ho : fieldOp a = fieldOp b)
    (ha : fieldArg a = fieldArg b) : a = b := by
  apply BitVec.eq_of_getLsbD_eq
  intro i hi
  by_cases h1 : i < 12
  · have := congrArg (fun v => v.getLsbD i) ha
    simpa only [getLsbD_fieldArg, h1, decide_true, Bool.true_and] using this
  · by_cases h2 : i < 16
    · have := congrArg (fun v => v.getLsbD (i - 12)) ho
      simpa only [getLsbD_fieldOp, show i - 12 < 4 by omega, show 12 + (i - 12) = i by omega,
        decide_true, Bool.true_and] using this
    · have := congrArg (fun v => v.getLsbD (i - 16)) hz
      simpa only [getLsbD_fieldZ, show i - 16 < 16 by omega, show 16 + (i - 16) = i by omega,
        decide_true, Bool.true_and] using this

/-- A word that decodes has its upper half 0 (R90 step 1). -/
theorem decode_ok {cw : Word} {i : Instr} (h : decode cw = .ok i) :
    fieldZ cw = 0 ∧ decodeRow (fieldOp cw).toNat (fieldArg cw) = .ok i := by
  unfold decode at h
  split at h
  · next hz => exact ⟨hz, h⟩
  · cases h

end Sys2Proof
end

