-- ==== Sys2Proof/Laws/HostProc.lean ====
section
/-! SUPPORT. The frequency table procedures: what counting a symbol changes, and that every table R214
builds is a map over the symbols with PEOF present. -/

namespace Sys2Proof.Machine

@[simp] theorem countSymbol_read (k j : Nat) (f : FreqTable) :
    (countSymbol k f).read 0 j = if j = k then f.read 0 k + 1 else f.read 0 j := by
  simp [countSymbol]

theorem countSymbol_wf {k : Nat} {f : FreqTable} (h : f.wf) (hk : k ≤ 256) : (countSymbol k f).wf :=
  Memory.wf_write _ h (Nat.lt_succ_of_le hk)

/-- Every table of R214 is a map over the symbols. -/
theorem buildFrequencyTable_wf (bytes : List Byte) : (buildFrequencyTable bytes).wf := by
  have h : ∀ f : FreqTable, f.wf →
      FreqTable.wf (bytes.foldl (fun f b => countSymbol b.toNat f) f) := by
    induction bytes with
    | nil => exact fun _ h => h
    | cons b bs ih => exact fun _ h => ih _ (countSymbol_wf h (by have := b.isLt; omega))
  exact countSymbol_wf (h [] (Memory.wf_nil _ _)) (Nat.le_refl 256)

theorem mem_presentSymbols {f : FreqTable} {k : Nat} :
    k ∈ presentSymbols f ↔ k ≤ 256 ∧ 1 ≤ f.read 0 k := by
  simp [presentSymbols, Nat.lt_succ_iff]

/-- PEOF is always present (R214). -/
theorem buildFrequencyTable_peof (bytes : List Byte) :
    256 ∈ presentSymbols (buildFrequencyTable bytes) := by
  simp [mem_presentSymbols, buildFrequencyTable]

end Sys2Proof.Machine
end

