-- ==== Sys2Proof/Laws/PerInstr.lean ====
section
/-! SUPPORT. Facts about every command as syntax, one lemma per constructor. -/

namespace Sys2Proof.Laws.CommandWord

/-- The opcode of R92. -/
def opcode : Instr → Nat
  | .nop => 0x0
  | .release => 0x1
  | .wbit _ => 0x2
  | .wflush => 0x3
  | .rbit => 0x4
  | .enc _ => 0x5
  | .ctdrv => 0x6
  | .setroot _ => 0x7
  | .dstart => 0x8
  | .dstep => 0x9
  | .drun => 0xA

/-- The command word has the format of R91: upper half zero, the row's opcode in [15:12]. -/
def Statement (i : Instr) : Prop :=
  fieldZ (encode i) = 0#16 ∧ fieldOp (encode i) = BitVec.ofNat 4 (opcode i)

theorem nop : Statement .nop := ⟨rfl, rfl⟩
theorem release : Statement .release := ⟨rfl, rfl⟩
theorem wbit (b : Bool) : Statement (.wbit b) := by cases b <;> exact ⟨rfl, rfl⟩
theorem wflush : Statement .wflush := ⟨rfl, rfl⟩
theorem rbit : Statement .rbit := ⟨rfl, rfl⟩

theorem enc (sym : Symbol) : Statement (.enc sym) := by
  constructor <;>
    (apply BitVec.eq_of_getLsbD_eq; intro j hj; interval_cases j <;> simp [fieldZ, fieldOp, encode, opcode])

theorem ctdrv : Statement .ctdrv := ⟨rfl, rfl⟩

theorem setroot (h : Handle) : Statement (.setroot h) := by
  constructor <;>
    (apply BitVec.eq_of_getLsbD_eq; intro j hj; interval_cases j <;> simp [fieldZ, fieldOp, encode, opcode])

theorem dstart : Statement .dstart := ⟨rfl, rfl⟩
theorem dstep : Statement .dstep := ⟨rfl, rfl⟩
theorem drun : Statement .drun := ⟨rfl, rfl⟩

end Sys2Proof.Laws.CommandWord
end

