-- ==== Sys2Proof/Laws/Streams.lean ====
section
/-! SUPPORT. The streams as bits: what PutBit adds to the bits written, what ReadBit takes from the
bits remaining, and command sequences. -/

namespace Sys2Proof.Machine

variable {s t : State}

/-- A byte is eight bits. -/
theorem byteBits_length (b : Byte) : (byteBits b).length = 8 := by simp [byteBits]

/-- The bits of two byte sequences in a row. -/
theorem streamBits_append (x y : List Byte) : streamBits (x ++ y) = streamBits x ++ streamBits y := by
  simp [streamBits]

/-- `PutBit` appends its bit to the bits written (R110). -/
theorem writtenBits_putBit (b : Bool) (s : State) : writtenBits (putBit b s) = writtenBits s ++ [b] := by
  by_cases h : s.bwCnt = 7#3
  · rw [putBit_full b h]
    have hb : byteBits (setBit s.bwAcc 7 b) = (byteBits s.bwAcc).take 7 ++ [b] := by
      have hj : ∀ j (hj : j < 8), (setBit s.bwAcc 7 b)[j] = if j = 7 then b else s.bwAcc[j] := by
        intro j hj; simpa [BitVec.getLsbD_eq_getElem hj] using getLsbD_setBit s.bwAcc 7 j b hj
      simp [byteBits, List.range_succ, hj]
    simp [writtenBits, h, streamBits, hb]
  · rw [putBit_partial b h]
    have h7 : s.bwCnt.toNat ≠ 7 := fun e => h (BitVec.eq_of_toNat_eq e)
    have hl := s.bwCnt.isLt
    have hn : (s.bwCnt + 1#3).toNat = s.bwCnt.toNat + 1 := by simp [BitVec.toNat_add]; omega
    simp only [writtenBits, setWriter_snk, setWriter_bwAcc, setWriter_bwCnt, hn]
    rw [List.append_assoc]; congr 1
    apply List.ext_getElem
    · simp [byteBits]; omega
    · intro j h1 h2
      have hj : j ≤ s.bwCnt.toNat := by simp [byteBits] at h1; omega
      have hj8 : j < 8 := by omega
      simp only [byteBits, List.getElem_take, List.getElem_map, List.getElem_range, getLsbD_setBit _ _ _ _ hj8]
      split
      · next e => subst e; simp
      · next e => rw [List.getElem_append_left (by simp; omega)]; simp

/-- So does each bit of a string. -/
theorem writtenBits_putBits (bs : List Bool) (s : State) : writtenBits (putBits bs s) = writtenBits s ++ bs := by
  induction bs generalizing s with
  | nil => simp [putBits]
  | cons b bs ih => rw [putBits, ih, writtenBits_putBit]; simp

/-- `ReadBit` hands out the first bit remaining (R112). -/
theorem remainingBits_some {b : Bool} (h : readBit s = some (b, t)) : remainingBits s = b :: remainingBits t := by
  rcases readBit_some h with ⟨hp, rfl, rfl⟩ | ⟨hp, r, hr, rfl, rfl⟩
  · have h9 : (s.brPos.val + 1) % 9 = s.brPos.val + 1 := Nat.mod_eq_of_lt (by omega)
    simp only [remainingBits, Fin.ofNat_eq_cast, Fin.val_natCast, h9]
    rw [List.drop_eq_getElem_cons (by simpa [byteBits] using hp)]
    simp [byteBits]
  · have hl := (List.getElem?_eq_some_iff.mp hr)
    obtain ⟨hl, he⟩ := hl
    simp only [remainingBits, hp]
    have h1 : ((1 : Fin 9) : Nat) = 1 := rfl
    have h8 : ((8 : Fin 9) : Nat) = 8 := rfl
    rw [h1, h8, List.drop_eq_getElem_cons hl, he]
    simp [byteBits, streamBits, List.range_succ]

/-- END is answered exactly when no bit remains (R112). -/
theorem remainingBits_none : readBit s = none ↔ remainingBits s = [] := by
  constructor
  · intro h
    obtain ⟨hp, hl⟩ := readBit_none.mp h
    simp [remainingBits, hp, byteBits, streamBits, List.drop_eq_nil_of_le hl]
  · intro h
    rcases hr : readBit s with _ | ⟨b, t⟩
    · rfl
    · rw [remainingBits_some hr] at h; cases h

/-- The bound of R155 counts the bits remaining. -/
theorem bitsLeft_eq : bitsLeft s = (remainingBits s).length := by
  have := s.brPos.isLt
  have hs : ∀ l : List Byte, (streamBits l).length = 8 * l.length := by
    intro l; induction l with
    | nil => rfl
    | cons a l ih => simp [streamBits, byteBits] at *; omega
  simp [bitsLeft, remainingBits, hs, byteBits]; omega

/-- Commands run in two parts. -/
theorem execAll_append (xs ys : List Instr) (s : State) (h : execAll xs s = .next t) : execAll (xs ++ ys) s = execAll ys t := by
  induction xs generalizing s with
  | nil => cases h; rfl
  | cons i is ih =>
    simp only [execAll, List.cons_append] at *
    split at h
    · next s' e => exact ih _ h
    · cases h
    · cases h

/-- WBIT of each bit of a string is `PutBit` of each (R111). -/
theorem execAll_wbit (bs : List Bool) (h : s.fault = false) : execAll (bs.map .wbit) s = .next (putBits bs s) := by
  induction bs generalizing s with
  | nil => rfl
  | cons b bs ih =>
    simp only [List.map_cons, execAll, exec_wbit b h]
    have : (putBit b s).fault = false := by obtain ⟨_, _, _, e⟩ := putBit_frame b s; rw [e]; exact h
    rw [ih this]; rfl

end Sys2Proof.Machine
end

