-- ==== Sys2Proof/Laws/Tree.lean ====
section
/-! SUPPORT. Facts about a well-formed node image (R218): every reachable node has one path from the
root, no path is longer than `MAXLEN`, and so `Derive` never refuses (R134 corner case f). -/

namespace Sys2Proof.Machine

variable {s : State}

/-- A path depends on the node memory only. -/
theorem leadsTo_congr {u : State} (e : u.node = s.node) {h t : Handle} {c : List Bool} :
    leadsTo u h c t ↔ leadsTo s h c t := by
  have hn : ∀ g, nodeWord u g = nodeWord s g := fun g => by unfold nodeWord; rw [e]
  induction c generalizing h with
  | nil => rfl
  | cons b bs ih => simp only [leadsTo, isInternal, childOf, hn, ih]

/-- Whether a node is written depends on `NODE_V` only. -/
theorem written_congr {u : State} (e : u.nodeV = s.nodeV) (h : Handle) :
    written u h = written s h := by
  unfold written nodeValid; rw [e]

theorem leadsTo_append {h t : Handle} (c d : List Bool) :
    leadsTo s h (c ++ d) t ↔ ∃ m, leadsTo s h c m ∧ leadsTo s m d t := by
  induction c generalizing h with
  | nil => simp [leadsTo]
  | cons b bs ih => simp only [List.cons_append, leadsTo, ih]; tauto

theorem leadsTo_snoc {h t : Handle} (c : List Bool) (b : Bool) :
    leadsTo s h (c ++ [b]) t ↔ ∃ m, leadsTo s h c m ∧ isInternal s m ∧ t = childOf s m b := by
  rw [leadsTo_append]; rfl

theorem reachable_of_leadsTo {h t : Handle} {c : List Bool} (hr : Reachable s h)
    (e : leadsTo s h c t) : Reachable s t := by
  induction c generalizing h with
  | nil => obtain rfl : t = h := e; exact hr
  | cons b bs ih => exact ih (.child b hr e.1) e.2

theorem leadsTo_of_reachable {t : Handle} (hr : Reachable s t) : ∃ c, leadsTo s s.rootH c t := by
  induction hr with
  | root => exact ⟨[], rfl⟩
  | child b _ hi ih =>
    obtain ⟨c, hc⟩ := ih
    exact ⟨c ++ [b], (leadsTo_snoc c b).mpr ⟨_, hc, hi, rfl⟩⟩

/-- A bit string leads to one node only. -/
theorem leadsTo_node_unique {h t u : Handle} {c : List Bool} (e : leadsTo s h c t)
    (e' : leadsTo s h c u) : t = u := by
  induction c generalizing h with
  | nil => exact Eq.trans e (Eq.symm e')
  | cons b bs ih => exact ih e.2 e'.2

/-- In a well-formed image a node has one path from the root. -/
theorem leadsTo_path_unique (wf : WellFormedImage s) {t : Handle} {c d : List Bool}
    (hc : leadsTo s s.rootH c t) (hd : leadsTo s s.rootH d t) : c = d := by
  induction c using List.reverseRecOn generalizing d t with
  | nil =>
    obtain rfl : t = s.rootH := hc
    rcases List.eq_nil_or_concat d with rfl | ⟨d', b, rfl⟩
    · rfl
    · rw [List.concat_eq_append, leadsTo_snoc] at hd
      obtain ⟨m, hm, hi, e⟩ := hd
      exact absurd e.symm (wf.rootNoChild m b (reachable_of_leadsTo .root hm) hi)
  | append_singleton c' b ih =>
    obtain ⟨m, hm, hi, rfl⟩ := (leadsTo_snoc c' b).mp hc
    have hrm := reachable_of_leadsTo .root hm
    rcases List.eq_nil_or_concat d with rfl | ⟨d', b', rfl⟩
    · exact absurd (show childOf s m b = s.rootH from hd) (wf.rootNoChild m b hrm hi)
    · rw [List.concat_eq_append] at hd ⊢
      obtain ⟨m', hm', hi', e⟩ := (leadsTo_snoc d' b').mp hd
      obtain ⟨rfl, rfl⟩ := wf.oneParent m m' b b' hrm (reachable_of_leadsTo .root hm') hi hi' e
      rw [ih hm hm']

/-- The nodes on a path are different, so a path is shorter than the number of handles. -/
theorem leadsTo_length_lt (wf : WellFormedImage s) {t : Handle} {c : List Bool}
    (hc : leadsTo s s.rootH c t) : c.length < 1024 := by
  have node : ∀ i : Fin (c.length + 1), ∃ m, leadsTo s s.rootH (c.take i) m := fun i => by
    have : leadsTo s s.rootH (c.take i ++ c.drop i) t := by rw [List.take_append_drop]; exact hc
    obtain ⟨m, hm, _⟩ := (leadsTo_append _ _).mp this
    exact ⟨m, hm⟩
  choose f hf using node
  have hinj : Function.Injective fun i => (f i).toFin := fun i j e => by
    have e' : f i = f j := BitVec.eq_of_toFin_eq e
    have h1 := hf i
    rw [e'] at h1
    have := congrArg List.length (leadsTo_path_unique wf h1 (hf j))
    simp only [List.length_take] at this
    apply Fin.ext
    have := i.isLt
    have := j.isLt
    omega
  have := Fintype.card_le_of_injective _ hinj
  simp at this
  omega

/-- Below every reachable node there is a leaf. -/
theorem exists_leaf_below (wf : WellFormedImage s) {h : Handle} {c : List Bool}
    (hc : leadsTo s s.rootH c h) : ∃ d g, leadsTo s h d g ∧ ¬ isInternal s g := by
  induction hn : 1024 - c.length generalizing c h with
  | zero => have := leadsTo_length_lt wf hc; omega
  | succ n ih =>
    by_cases hi : isInternal s h
    · obtain ⟨d, g, hd, hg⟩ := ih (h := childOf s h false) (c := c ++ [false])
        ((leadsTo_snoc c false).mpr ⟨h, hc, hi, rfl⟩) (by simp; omega)
      exact ⟨false :: d, g, ⟨hi, hd⟩, hg⟩
    · exact ⟨[], h, rfl, hi⟩

/-- Two reachable leaves with one symbol are one leaf on one path. -/
theorem leaf_path_unique (wf : WellFormedImage s) {g g' : Handle} {c d : List Bool}
    (hc : leadsTo s s.rootH c g) (hd : leadsTo s s.rootH d g') (hg : ¬ isInternal s g)
    (hg' : ¬ isInternal s g') (e : nodeSym (nodeWord s g) = nodeSym (nodeWord s g')) : c = d := by
  have := wf.symbolsApart g g' (reachable_of_leadsTo .root hc) (reachable_of_leadsTo .root hd) hg hg' e
  subst this
  exact leadsTo_path_unique wf hc hd

theorem leaf_symbol_le (wf : WellFormedImage s) {g : Handle} {c : List Bool}
    (hc : leadsTo s s.rootH c g) (hg : ¬ isInternal s g) : (nodeSym (nodeWord s g)).toNat ≤ 256 := by
  rcases wf.leafOrInternal g (reachable_of_leadsTo .root hc) with ⟨h, _⟩ | h
  · exact h
  · exact absurd h hg

/-- No path of a well-formed image is longer than `MAXLEN`: at every branch of it another leaf hangs
off, and there are 257 symbols (R6, `MAXLEN`). -/
theorem leadsTo_length_le (wf : WellFormedImage s) {t : Handle} {p : List Bool}
    (hc : leadsTo s s.rootH p t) : p.length ≤ 256 := by
  have off : ∀ i : Fin (p.length + 1), ∃ (d : List Bool) (g : Handle), leadsTo s s.rootH d g ∧
      ¬ isInternal s g ∧
      (∀ hi : i.val < p.length, d[i.val]? = some (!p[i.val])) ∧
      (∀ j (hj : j < i.val), d[j]? = p[j]?) := fun i => by
    by_cases hi : i.val < p.length
    · have hsplit : leadsTo s s.rootH (p.take i ++ p[i.val] :: p.drop (i.val + 1)) t := by
        rw [← List.drop_eq_getElem_cons hi, List.take_append_drop]; exact hc
      obtain ⟨m, hm, hm'⟩ := (leadsTo_append _ _).mp hsplit
      have hsib := (leadsTo_snoc (p.take i) (!p[i.val])).mpr ⟨m, hm, hm'.1, rfl⟩
      obtain ⟨d, g, hd, hg⟩ := exists_leaf_below wf hsib
      have hl : (p.take i.val).length = i.val := by simp; omega
      refine ⟨(p.take i ++ [!p[i.val]]) ++ d, g, (leadsTo_append _ _).mpr ⟨_, hsib, hd⟩, hg, ?_, ?_⟩
      · intro _
        rw [List.append_assoc, List.getElem?_append_right (by omega), hl]
        simp
      · intro j hj
        rw [List.append_assoc, List.getElem?_append_left (by omega), List.getElem?_take_of_lt hj]
    · obtain ⟨d, g, hd, hg⟩ := exists_leaf_below wf hc
      refine ⟨p ++ d, g, (leadsTo_append _ _).mpr ⟨_, hc, hd⟩, hg, fun h => absurd h hi, ?_⟩
      intro j hj
      rw [List.getElem?_append_left (by have := i.isLt; omega)]
  choose d g hd hg hat hbelow using off
  have apart : ∀ i j : Fin (p.length + 1), i.val < j.val → d i ≠ d j := fun i j hij e => by
    have hi : i.val < p.length := by have := j.isLt; omega
    have h1 := hat i hi
    rw [e, hbelow j i.val hij, List.getElem?_eq_getElem hi] at h1
    simp at h1
  have hle := fun i => leaf_symbol_le wf (hd i) (hg i)
  have hinj : Function.Injective fun i => (⟨(nodeSym (nodeWord s (g i))).toNat,
      Nat.lt_succ_of_le (hle i)⟩ : Fin 257) := fun i j e => by
    have e' : nodeSym (nodeWord s (g i)) = nodeSym (nodeWord s (g j)) :=
      BitVec.eq_of_toNat_eq (Fin.mk.inj e)
    have hdd := leaf_path_unique wf (hd i) (hd j) (hg i) (hg j) e'
    rcases lt_trichotomy i.val j.val with h | h | h
    · exact absurd hdd (apart i j h)
    · exact Fin.ext h
    · exact absurd hdd.symm (apart j i h)
  have := Fintype.card_le_of_injective _ hinj
  simp at this
  omega

/-- On a well-formed image `Derive` succeeds from the root (R134). -/
theorem derive_wellFormed (wf : WellFormedImage s) :
    ∃ tab, derive s 256 s.rootH [] [] = .ok tab := by
  refine derive_succeeds rfl (fun c g hc => ⟨wf.inStore g (reachable_of_leadsTo .root hc), ?_⟩)
    (fun c d g g' hc hd hs e => ?_) (fun _ _ _ _ => by simp [CtEntry.empty])
  · by_cases hi : isInternal s g
    · have := leadsTo_length_le wf ((leadsTo_snoc c false).mpr ⟨g, hc, hi, rfl⟩)
      simp at this
      exact .inl ⟨hi, by simpa using this⟩
    · exact .inr (leaf_symbol_le wf hc hi)
  · have leaf : ∀ g, (nodeSym (nodeWord s g)).toNat ≤ 256 → ¬ isInternal s g := fun g hg hi => by
      rw [hi] at hg; simp at hg
    exact leaf_path_unique wf hc hd (leaf g hs) (leaf g' (e ▸ hs)) e

end Sys2Proof.Machine
end

