-- ==== Sys2Proof/Laws/Walk.lean ====
section
/-! SUPPORT. Walking the tree on a bit string: what DRUN's loop does on the code of a leaf, and on a
proper part of one (R153, R155, R158). -/

namespace Sys2Proof.Machine

variable {s : State}

/-- `Step` on a given next bit: the bit consumed and the child arrived at (R153). -/
theorem stepTree_bit {b : Bool} {bs : List Bool} (h : remainingBits s = b :: bs)
    (hc : s.cur.toNat ≤ 512) :
    ∃ buf pos n, stepTree s = arrive (childOf s s.cur b)
        { s with brBuf := buf, brPos := pos, srcPos := n } ∧
      remainingBits { s with brBuf := buf, brPos := pos, srcPos := n } = bs := by
  rcases stepTree_cases s with ⟨hr, _⟩ | ⟨b', u, hr, _, e⟩ | ⟨_, _, _, hc', _⟩
  · rw [remainingBits_none.mp hr] at h; cases h
  · have h' := remainingBits_some hr
    rw [h] at h'
    injection h' with h1 h2
    subst h1
    obtain ⟨buf, pos, n, rfl⟩ := readBit_frame hr
    exact ⟨buf, pos, n, e, h2.symm⟩
  · omega

/-- `Step` with no bit left (R154). -/
theorem stepTree_noBit (h : remainingBits s = []) : stepTree s = raise .malformedStream s := by
  unfold stepTree; rw [remainingBits_none.mpr h]

theorem runTree_stop {fuel : Nat} (h : ¬ (s.dstate = .run ∧ s.fault = false)) :
    runTree fuel s = s := by
  cases fuel with
  | zero => rfl
  | succ n => unfold runTree; rw [if_neg h]

theorem runTree_step {fuel : Nat} (hd : s.dstate = .run) (hf : s.fault = false) :
    runTree (fuel + 1) s = runTree fuel (stepTree s) := by
  rw [runTree, if_pos ⟨hd, hf⟩]

/-- Arriving at an internal node. -/
theorem arrive_inner {g : Handle} (hw : written s g = true) (hi : isInternal s g) :
    arrive g s = setCur g s := by
  unfold arrive; rw [if_pos hw, if_pos hi]

/-- A path seen after a step that passed an inner node. -/
theorem walked_leadsTo (s : State) (b : Bool) (buf : BitVec 8) (pos : Fin 9) (n : Nat) {h t : Handle}
    {p : List Bool} :
    leadsTo (setCur (childOf s s.cur b) { s with brBuf := buf, brPos := pos, srcPos := n }) h p t ↔
      leadsTo s h p t := by
  refine leadsTo_congr ?_; rfl

/-- DRUN's loop on the path from `CUR` to a node below it: the path is consumed, the inner nodes are
passed, and the last node is arrived at. -/
theorem runTree_path {p : List Bool} : ∀ {s : State} {g : Handle} {rest : List Bool},
    p ≠ [] → s.dstate = .run → s.fault = false → remainingBits s = p ++ rest →
    leadsTo s s.cur p g → (∀ d m, leadsTo s s.cur d m → written s m = true) →
    ∃ c buf pos n, (∀ fuel, runTree (p.length + fuel) s =
        runTree fuel (arrive g { s with cur := c, brBuf := buf, brPos := pos, srcPos := n })) ∧
      remainingBits { s with brBuf := buf, brPos := pos, srcPos := n } = rest := by
  induction p with
  | nil => intro _ _ _ h; exact absurd rfl h
  | cons b bs ih =>
    intro s g rest _ hd hf hr hl hw
    have hcur := ((written_iff s _).mp (hw [] s.cur rfl)).1
    obtain ⟨buf, pos, n, h1, h2⟩ := stepTree_bit hr hcur
    cases bs with
    | nil =>
      obtain rfl : g = childOf s s.cur b := hl.2
      exact ⟨s.cur, buf, pos, n, fun fuel => by
        rw [show [b].length + fuel = fuel + 1 by simp; omega, runTree_step hd hf, h1], h2⟩
    | cons b' bs' =>
      have hwc : written s (childOf s s.cur b) = true := hw [b] _ ⟨hl.1, rfl⟩
      rw [arrive_inner (s := { s with brBuf := buf, brPos := pos, srcPos := n }) hwc hl.2.1] at h1
      obtain ⟨c, buf', pos', n', h3, h4⟩ := ih
        (s := setCur (childOf s s.cur b) { s with brBuf := buf, brPos := pos, srcPos := n })
        (g := g) (rest := rest) (by simp) hd hf h2
        ((walked_leadsTo s b buf pos n).mpr hl.2)
        (fun d m hm => hw (b :: d) m ⟨hl.1, (walked_leadsTo s b buf pos n).mp hm⟩)
      refine ⟨c, buf', pos', n', fun fuel => ?_, h4⟩
      rw [show (b :: b' :: bs').length + fuel = ((b' :: bs').length + fuel) + 1 by simp; omega,
        runTree_step hd hf, h1]
      exact h3 fuel

/-- DRUN's loop when the bits end inside the tree: all are consumed, no leaf is arrived at, and the
end of the source is the fault (R154). -/
theorem runTree_short {p : List Bool} : ∀ {s : State} {g : Handle},
    s.dstate = .run → s.fault = false → remainingBits s = p → leadsTo s s.cur p g → isInternal s g →
    (∀ d m, leadsTo s s.cur d m → written s m = true) →
    ∃ buf pos n, ∀ fuel, runTree (p.length + 1 + fuel) s =
      raise .malformedStream { s with cur := g, brBuf := buf, brPos := pos, srcPos := n } := by
  induction p with
  | nil =>
    intro s g hd hf hr hl hi hw
    obtain rfl : g = s.cur := hl
    refine ⟨s.brBuf, s.brPos, s.srcPos, fun fuel => ?_⟩
    rw [show ([] : List Bool).length + 1 + fuel = fuel + 1 by simp; omega,
      runTree_step hd hf, stepTree_noBit hr, runTree_stop (by simp)]
  | cons b bs ih =>
    intro s g hd hf hr hl hi hw
    have hcur := ((written_iff s _).mp (hw [] s.cur rfl)).1
    obtain ⟨buf, pos, n, h1, h2⟩ := stepTree_bit hr hcur
    have hwc : written s (childOf s s.cur b) = true := hw [b] _ ⟨hl.1, rfl⟩
    have hic : isInternal s (childOf s s.cur b) := by
      cases bs with
      | nil => obtain rfl : g = childOf s s.cur b := hl.2; exact hi
      | cons b' bs' => exact hl.2.1
    rw [arrive_inner (s := { s with brBuf := buf, brPos := pos, srcPos := n }) hwc hic] at h1
    obtain ⟨buf', pos', n', h3⟩ := ih
      (s := setCur (childOf s s.cur b) { s with brBuf := buf, brPos := pos, srcPos := n })
      (g := g) hd hf h2 ((walked_leadsTo s b buf pos n).mpr hl.2) hi
      (fun d m hm => hw (b :: d) m ⟨hl.1, (walked_leadsTo s b buf pos n).mp hm⟩)
    refine ⟨buf', pos', n', fun fuel => ?_⟩
    rw [show (b :: bs).length + 1 + fuel = (bs.length + 1 + fuel) + 1 by simp; omega,
      runTree_step hd hf, h1]
    exact h3 fuel

end Sys2Proof.Machine
end

