-- ==== Sys2Proof/Tests/Slice0.lean ====
section
/-! SUPPORT. The model's own tests. Expected results are the spec's: command words from 30_encoding.md
R92, results from the examples of the command rules and the vectors of 95_test_vectors.md, named in
each comment. After them, for each statement with hypotheses, a witness that meets them all. -/

namespace Sys2Proof.Machine.Tests

/-- The operation answers a next state of which the check holds. -/
def answers (o : Out) (check : State → Bool) : Bool :=
  match o with
  | .next s => check s
  | .fault _ => false
  | .refused _ => false

/-- T_aaaa of 95_test_vectors.md: leaf 97, leaf 256, internal node with ZC = 1, OC = 0; SETROOT 2. -/
def treeAaaa : State :=
  { State.reset with
    node := [(0, 0xFFFFF061#32), (1, 0xFFFFF100#32), (2, 0x00001101#32)]
    nodeV := [(0, true), (1, true), (2, true)]
    rootH := 2#10, rootV := true }

/-- The same in RUN at the root, with SRC = [0F]. -/
def runAaaa : State := { treeAaaa with cur := 2#10, dstate := .run, src := [0x0F#8] }

/-- The same with all but the fifth bit consumed. -/
def lastBit : State := { runAaaa with brBuf := 0x0F#8, brPos := 4, srcPos := 1 }

/-- The same after the pseudo-EOF leaf. -/
def doneAaaa : State := { lastBit with brPos := 5, cur := 1#10, dstate := .done }

/-- T_empty: the one-leaf tree of the empty input. -/
def treeEmpty : State :=
  { State.reset with node := [(0, 0xFFFFF100#32)], nodeV := [(0, true)], rootV := true }

/-- Entry 97 is "101" (vector K1). -/
def codeK1 : State := { State.reset with ct := [(97, ⟨true, 3, 5⟩)] }

/-- A latched fault. -/
def faulted : State := { State.reset with fault := true, cause := .illegalCmd }

/-! ### WellFormed: the smoke test with an ill-formed term for the one check -/

theorem test_wf_refuses_handle_513 : Instr.wf (.setroot 513#10) = false := by decide
theorem test_wf_accepts_handle_512 : Instr.wf (.setroot 512#10) = true := by decide

/-! ### Decoding: words written out bit by bit from R91 and R92 -/

theorem test_decode_nop :
    decode 0b0000_0000_0000_0000_0000_0000_0000_0000#32 = .ok .nop := by decide
theorem test_decode_release :
    decode 0b0000_0000_0000_0000_0001_0000_0000_0000#32 = .ok .release := by decide
theorem test_decode_wbit :
    decode 0b0000_0000_0000_0000_0010_0000_0000_0001#32 = .ok (.wbit true) := by decide
theorem test_decode_wflush :
    decode 0b0000_0000_0000_0000_0011_0000_0000_0000#32 = .ok .wflush := by decide
theorem test_decode_rbit :
    decode 0b0000_0000_0000_0000_0100_0000_0000_0000#32 = .ok .rbit := by decide
theorem test_decode_enc :
    decode 0b0000_0000_0000_0000_0101_0001_0110_0001#32 = .ok (.enc 0b101100001#9) := by decide
theorem test_decode_ctdrv :
    decode 0b0000_0000_0000_0000_0110_0000_0000_0000#32 = .ok .ctdrv := by decide
theorem test_decode_setroot :
    decode 0b0000_0000_0000_0000_0111_0001_0000_1010#32 = .ok (.setroot 0b0100001010#10) := by decide
theorem test_decode_dstart :
    decode 0b0000_0000_0000_0000_1000_0000_0000_0000#32 = .ok .dstart := by decide
theorem test_decode_dstep :
    decode 0b0000_0000_0000_0000_1001_0000_0000_0000#32 = .ok .dstep := by decide
theorem test_decode_drun :
    decode 0b0000_0000_0000_0000_1010_0000_0000_0000#32 = .ok .drun := by decide

/-- Vectors S8, S9, K5 and V6: reserved words, each by the check it fails. -/
theorem test_decode_reserved :
    decode 0x00012000#32 = .error .upperHalf ∧ decode 0x0000B000#32 = .error .opcode ∧
    decode 0x00003001#32 = .error .reservedArg ∧ decode 0x00002002#32 = .error .reservedArg ∧
    decode 0x00005200#32 = .error .reservedArg ∧ decode 0x00007400#32 = .error .reservedArg ∧
    decode 0x00007201#32 = .error .operandRange := by decide

theorem test_decodeTableWord : decodeTableWord 32 0x7002 = some (.setroot 2#10) := by decide

/-! ### Serializer -/

/-- R111's example: from reset, WBIT 1 gives BW_ACC = 0x01, BW_CNT = 1. -/
theorem test_wbit_first :
    answers (exec (.wbit true) State.reset) (fun t => t.bwAcc == 0x01#8 && t.bwCnt == 1#3 && t.snk == []) := by
  decide

/-- The eighth bit of vector S1: BWSTATE 0x070D, then the byte 8D and an empty writer. -/
theorem test_wbit_eighth :
    answers (exec (.wbit true) { State.reset with bwAcc := 0x0D#8, bwCnt := 7#3 })
      (fun t => t.bwAcc == 0#8 && t.bwCnt == 0#3 && t.snk == [0x8D#8]) := by decide

/-- R114's example. -/
theorem test_wflush_pads :
    answers (exec .wflush { State.reset with bwAcc := 0x0F#8, bwCnt := 5#3 })
      (fun t => t.snk == [0x0F#8] && t.bwCnt == 0#3) := by decide

/-- Vector S4. -/
theorem test_wflush_empty : answers (exec .wflush State.reset) (fun t => t == State.reset) := by decide

/-- Vector S7: the ninth RBIT pulls the second byte. -/
theorem test_rbit_pulls :
    answers (exec .rbit { State.reset with src := [0x01#8, 0x80#8], brBuf := 0x01#8, srcPos := 1 })
      (fun t => t.brBuf == 0x80#8 && t.brPos == 1 && t.srcPos == 2 && !t.resultBit) := by decide

/-- Vector S6: END is a result, not a fault. -/
theorem test_rbit_end :
    answers (exec .rbit State.reset)
      (fun t => resultWord t == 0x2#32 && brstateWord t == 0x800#32 && statusWord t == 0#32) := by decide

/-! ### Code table -/

/-- Vector K1: BWSTATE = 0x0305. -/
theorem test_enc_k1 : answers (exec (.enc 97#9) codeK1) (fun t => bwstateWord t == 0x0305#32) := by decide

/-- Vector K5: ENC 257 is a legal encoding with no entry. -/
theorem test_enc_257 :
    answers (exec (.enc 257#9) codeK1) (fun t => statusWord t == 0x24#32 && t.bwCnt == 0#3) := by decide

/-- Vector K2. -/
theorem test_ctdrv_k2 :
    answers (exec .ctdrv treeAaaa) (fun t =>
      hostRead t 0x1610#16 == 0x80000001#32 && hostRead t 0x1611#16 == 1#32 &&
      hostRead t 0x2000#16 == 0x80000001#32 && hostRead t 0x2001#16 == 0#32 &&
      hostRead t 0x1620#16 == 0#32) := by decide

/-- Vector K7: the same symbol on two leaves; the table is kept. -/
theorem test_ctdrv_k7 :
    answers (exec .ctdrv { State.reset with
        node := [(0, 0xFFFFF061#32), (1, 0xFFFFF061#32), (2, 0x00400101#32)]
        nodeV := [(0, true), (1, true), (2, true)], rootH := 2#10, rootV := true
        ct := [(97, ⟨true, 2, 0⟩)] })
      (fun t => statusWord t == 0x44#32 && hostRead t 0x1610#16 == 0x80000002#32) := by decide

/-! ### Traversal -/

/-- Vector V6. -/
theorem test_setroot_512 :
    answers (exec (.setroot 512#10) State.reset) (fun t => rootWord t == 0x80000200#32) := by decide

/-- Vector V11: not admitted in RUN. -/
theorem test_setroot_in_run :
    answers (exec (.setroot 0#10) runAaaa) (fun t => statusWord t == 0x55#32 && t.rootH == 2#10) := by decide

/-- Vector V1: DSTART. -/
theorem test_dstart_run :
    answers (exec .dstart treeAaaa) (fun t => statusWord t == 0x01#32 && t.cur == 2#10 && t.srcPos == 0) := by
  decide

/-- Vector V2: the pseudo-EOF root. -/
theorem test_dstart_done :
    answers (exec .dstart treeEmpty) (fun t => statusWord t == 0x02#32 && t.cur == 0#10) := by decide

/-- Vector V1: the first DSTEP emits "a" and returns to the root. -/
theorem test_dstep_literal :
    answers (exec .dstep runAaaa)
      (fun t => t.out == [97#8] && t.cur == 2#10 && brstateWord t == 0x010F#32) := by decide

/-- Vector V12, step 2: the selected child is NULL; the bit stays consumed. -/
theorem test_dstep_null_child :
    answers (exec .dstep { State.reset with
        node := [(0, 0xFFFFF061#32), (1, 0xFFC00101#32)], nodeV := [(0, true), (1, true)]
        rootH := 1#10, rootV := true, cur := 1#10, dstate := .run, brBuf := 0x02#8, brPos := 1
        src := [0x02#8], srcPos := 1 })
      (fun t => statusWord t == 0x45#32 && t.cur == 1#10 && brstateWord t == 0x0202#32) := by decide

/-- Vector X2: DRUN on 0F. -/
theorem test_drun_aaaa :
    answers (exec .drun runAaaa) (fun t =>
      t.out == [97#8, 97#8, 97#8, 97#8] && statusWord t == 0x02#32 && t.cur == 1#10 &&
      brstateWord t == 0x050F#32 && t.srcPos == 1) := by decide

/-- R35, D15: a `CUR` above 512 is BAD_TREE, with the bit consumed (R186). -/
theorem test_dstep_cur_513 :
    answers (exec .dstep { runAaaa with cur := 513#10 })
      (fun t => statusWord t == 0x45#32 && t.cur == 513#10 && brstateWord t == 0x010F#32) := by decide

/-- R35, D15: so is a root above 512. -/
theorem test_dstart_root_513 :
    answers (exec .dstart { State.reset with rootH := 513#10, rootV := true })
      (fun t => statusWord t == 0x44#32 && t.cur == 0x3FF#10) := by decide

/-- Vector V17: a cyclic image ends because SRC is finite. -/
theorem test_drun_cycle :
    answers (exec .drun { State.reset with
        node := [(0, 0x00000101#32)], nodeV := [(0, true)], rootV := true, cur := 0#10
        dstate := .run, src := [0x00#8, 0x00#8] })
      (fun t => statusWord t == 0x15#32 && t.srcPos == 2 && t.out == []) := by decide

/-! ### System and bus -/

/-- Vector V8: RELEASE after a truncated decode; OUT and SRC_POS stay. -/
theorem test_release :
    answers (exec .release { lastBit with fault := true, cause := .malformedStream, out := [97#8] })
      (fun t => statusWord t == 0#32 && rootWord t == 0#32 && curWord t == 0x3FF#32 &&
        brstateWord t == 0x800#32 && hostRead t 0x0800#16 == 0#32 && t.out == [97#8] && t.srcPos == 1) := by
  decide

/-- Vector Y1. -/
theorem test_nop : answers (exec .nop runAaaa) (fun t => t == runAaaa) := by decide

/-- Vector Y2: 0x1001 is not the RELEASE word. -/
theorem test_faulted_ignores :
    answers (hostWrite 0x0000#16 0x00001001#32 faulted) (fun t => t == faulted) := by decide

/-- Vector B4. -/
theorem test_node_write :
    answers (hostWrite 0x0801#16 0xFFFFFFFF#32 State.reset)
      (fun t => hostRead t 0x0801#16 == 0xFFFFF9FF#32 && hostRead t 0x0803#16 == 0#32) := by decide

/-- Vector B6: LEN = 257. -/
theorem test_len_257 :
    answers (hostWrite 0x1000#16 0x00000101#32 State.reset)
      (fun t => statusWord t == 0x64#32 && hostRead t 0x1000#16 == 0#32) := by decide

/-- Vector K10: bit 32 of a code is bit 0 of word 2. -/
theorem test_code_word_two :
    answers (hostWrite 0x1052#16 0x00000001#32 State.reset)
      (fun t => (ctEntry t 5).code.getLsbD 32 && hostRead t 0x1051#16 == 0#32) := by decide

/-- A word placed for fetch is what the very next step executes. -/
theorem test_withFetchWord :
    answers (step (State.reset.withFetchWord 32 0x7003)) (fun t => rootWord t == 0x80000003#32) := by decide

/-- The queue of R215: the tree of "abracadabra", vector T_abra, has root 10 of weight 12. -/
theorem test_buildTree_abra :
    (buildTree [(97, 5), (98, 2), (99, 1), (100, 1), (114, 2), (256, 1)]).map
      (fun t => (t.seq, t.weight)) = some (10, 12) := by decide

/-! ### Witnesses: for each statement with hypotheses, a state and operands that meet them all -/

/-- An operation that answers a checked next state answers a next state. -/
theorem next_of_answers {o : Out} {check : State → Bool} (h : answers o check = true) :
    ∃ t, o = .next t ∧ check t = true := by
  cases o with
  | next t => exact ⟨t, rfl, h⟩
  | fault r => cases h
  | refused r => cases h

/-- The host about to write a word to CMD. -/
def issuing (cw : Word) (s : State) : State := { s with hostOps := [.write 0x0000#16 cw] }

/-- The RUN state of T_aaaa meets the invariant. -/
theorem inv_runAaaa : Inv runAaaa where
  writerClean i _ := by simp [runAaaa, treeAaaa, State.reset]
  causeLatched := by decide
  running _ := by decide
  stopped h := by cases h
  waiting h := by cases h
  rootRange := by decide
  nodeReserved h := by
    simp only [runAaaa, treeAaaa, Memory.read]
    split_ifs <;> decide
  srcRange := by decide
  nodeWf := by decide
  nodeVWf := by decide
  nodeWWf := by decide
  ctWf := by decide

/-- The nodes of T_aaaa that its root reaches. -/
theorem reachable_treeAaaa {h : Handle} (hr : Reachable treeAaaa h) :
    h = 2#10 ∨ h = 1#10 ∨ h = 0#10 := by
  induction hr with
  | root => exact .inl rfl
  | child b _ hi ih =>
    rcases ih with rfl | rfl | rfl
    · cases b
      · exact .inr (.inl (by decide))
      · exact .inr (.inr (by decide))
    · exact absurd hi (by decide)
    · exact absurd hi (by decide)

theorem wellFormed_treeAaaa : WellFormedImage treeAaaa where
  rootSet := rfl
  inStore h hr := by rcases reachable_treeAaaa hr with rfl | rfl | rfl <;> decide
  leafOrInternal h hr := by rcases reachable_treeAaaa hr with rfl | rfl | rfl <;> decide
  oneParent h₁ h₂ b₁ b₂ r₁ r₂ i₁ i₂ e := by
    rcases reachable_treeAaaa r₁ with rfl | rfl | rfl
    · rcases reachable_treeAaaa r₂ with rfl | rfl | rfl
      · cases b₁ <;> cases b₂ <;> first | exact ⟨rfl, rfl⟩ | exact absurd e (by decide)
      · exact absurd i₂ (by decide)
      · exact absurd i₂ (by decide)
    · exact absurd i₁ (by decide)
    · exact absurd i₁ (by decide)
  rootNoChild h b hr hi := by
    rcases reachable_treeAaaa hr with rfl | rfl | rfl
    · cases b <;> decide
    · exact absurd hi (by decide)
    · exact absurd hi (by decide)
  symbolsApart h₁ h₂ r₁ r₂ i₁ i₂ e := by
    rcases reachable_treeAaaa r₁ with rfl | rfl | rfl <;>
      rcases reachable_treeAaaa r₂ with rfl | rfl | rfl <;>
      first | rfl | exact absurd rfl i₁ | exact absurd rfl i₂ | exact absurd e (by decide)
  hasPeof := ⟨1#10, .child (h := 2#10) false .root (by decide), by decide⟩

/-- The leaf of "a" is reachable in T_aaaa. -/
theorem reachable_a : ∃ h, Reachable treeAaaa h ∧ (nodeSym (nodeWord treeAaaa h)).toNat = (97#8).toNat :=
  ⟨0#10, .child (h := 2#10) true .root (by decide), by decide⟩

theorem witness_EveryStepKeepsTheInvariant :
    Inv { runAaaa with hostOps := [.write 0x0000#16 0x00009000#32] } ∧
      ∃ t, step { runAaaa with hostOps := [.write 0x0000#16 0x00009000#32] } = .next t ∧
        (t.out == [97#8]) = true := by
  refine ⟨?_, next_of_answers (check := fun t => t.out == [97#8]) (by decide)⟩
  obtain ⟨h1, h2, h3, h4, h5, h6, h7, h8, h9, h10, h11, h12⟩ := inv_runAaaa
  exact ⟨h1, h2, h3, h4, h5, h6, h7, h8, h9, h10, h11, h12⟩

theorem witness_DecodeOfEncodeIsTheCommand : Instr.wf (.setroot 512#10) = true := by decide

theorem witness_DecodedWordIsTheEncoding : decode 0x00007200#32 = .ok (.setroot 512#10) := by decide

theorem witness_ReservedWordsRaiseIllegalCmd :
    State.reset.fault = false ∧ (∀ i : Instr, i.wf = true → encode i ≠ 0x0000B000#32) ∧
    (Instr.wf .ctdrv = true ∧ encode .ctdrv = 0x00006000#32 ∧ runAaaa.fault = false ∧
      runAaaa.dstate ≠ .idle) ∧
    (Instr.wf .dstep = true ∧ encode .dstep = 0x00009000#32 ∧ State.reset.dstate = .idle) := by
  refine ⟨rfl, fun i _ e => ?_, by decide, by decide⟩
  have h15 := congrArg (fun w : Word => w.getLsbD 15) e
  have h13 := congrArg (fun w : Word => w.getLsbD 13) e
  have h12 := congrArg (fun w : Word => w.getLsbD 12) e
  cases i <;> simp [encode] at h15 h13 h12

theorem witness_StepRunsTheDecodedCommand :
    ((issuing 0x00007002#32 State.reset).hostOps = [.write 0x0000#16 0x00007002#32] ∧
      decode 0x00007002#32 = .ok (.setroot 2#10) ∧ (issuing 0x00007002#32 State.reset).fault = false) ∧
    (decode 0x00001000#32 = .ok .release ∧ (issuing 0x00001000#32 faulted).fault = true) := by
  decide

theorem witness_TableWordsOnTheBus :
    (0x0800#16).toNat = 0x0800 + (0#10).toNat ∧ (0x0A00#16).toNat = 0x0800 + (512#10).toNat ∧
    (0x0C00#16).toNat = 0x0C00 + (0#10).toNat ∧ (0x0E00#16).toNat = 0x0C00 + (512#10).toNat ∧
    (0x1000#16).toNat = 0x1000 + 16 * 0 ∧ (0x2000#16).toNat = 0x1000 + 16 * 256 ∧
    (0x1001#16).toNat = 0x1000 + 16 * 0 + 1 ∧ (0x2008#16).toNat = 0x1000 + 16 * 256 + 8 ∧
    (7 ≤ (0x0007#16).toNat ∧ (0x07FF#16).toNat ≤ 0x07FF) ∧
    (0x0A01 ≤ (0x0A01#16).toNat ∧ (0x0BFF#16).toNat ≤ 0x0BFF) ∧
    (0x0E01 ≤ (0x0E01#16).toNat ∧ (0x0FFF#16).toNat ≤ 0x0FFF) ∧
    (0x2010 ≤ (0x2010#16).toNat ∧ 0x2010 ≤ (0xFFFF#16).toNat) ∧
    (0x1000 ≤ (0x1009#16).toNat ∧ 9 ≤ (0x1009#16).toNat % 16) ∧
    ((0x200F#16).toNat ≤ 0x200F ∧ 9 ≤ (0x200F#16).toNat % 16) := by decide

theorem witness_HostReadChangesNothing :
    ({ faulted with hostOps := [.read 0x0001#16] } : State).hostOps = [.read 0x0001#16] := rfl

theorem witness_TableWritesStoreTheirWord :
    State.reset.fault = false ∧ State.reset.dstate = .idle ∧
    (0x0A00#16).toNat = 0x0800 + (512#10).toNat ∧ (0x0E00#16).toNat = 0x0C00 + (512#10).toNat ∧
    ((0x2000#16).toNat = 0x1000 + 16 * 256 ∧
      ((0x80000100#32).extractLsb' 0 9).toNat ≤ 256) ∧
    (0x1001#16).toNat = 0x1000 + 16 * 0 + 1 ∧ (0x2008#16).toNat = 0x1000 + 16 * 256 + 8 := by decide

theorem witness_IllegalAccessesRaise :
    State.reset.fault = false ∧ runAaaa.fault = false ∧
    (1 ≤ (0x0001#16).toNat ∧ (0x07FF#16).toNat ≤ 0x07FF) ∧
    (0x0A01 ≤ (0x0A01#16).toNat ∧ (0x0BFF#16).toNat ≤ 0x0BFF) ∧
    (0x0E01 ≤ (0x0E01#16).toNat ∧ (0x0FFF#16).toNat ≤ 0x0FFF) ∧
    0x2010 ≤ (0xFFFF#16).toNat ∧
    (0x1000 ≤ (0x1009#16).toNat ∧ (0x1009#16).toNat ≤ 0x200F ∧ 9 ≤ (0x1009#16).toNat % 16) ∧
    (0x0800 ≤ (0x0800#16).toNat ∧ runAaaa.dstate ≠ .idle) ∧
    (0x1000 ≤ (0x2000#16).toNat ∧ (0x2000#16).toNat ≤ 0x2000 ∧ (0x2000#16).toNat % 16 = 0 ∧
      256 < ((0x00000101#32).extractLsb' 0 9).toNat) := by decide

theorem witness_BusWritesLeaveTheRegisters :
    0x0800#16 ≠ 0x0000#16 ∧ ∃ t, hostWrite 0x0800#16 0xFFFFF061#32 State.reset = .next t ∧
      nodeValid t 0#10 = true :=
  ⟨by decide, next_of_answers (check := fun t => nodeValid t 0#10) (by decide)⟩

theorem witness_FaultedBlockIsInert :
    faulted.fault = true ∧ ¬ (0x0000#16 = 0x0000#16 ∧ 0x00001001#32 = 0x00001000#32) := by decide

theorem witness_CommandsAreIgnoredWhileFaulted :
    faulted.fault = true ∧ Instr.drun ≠ .release := by decide

theorem witness_OnlyReleaseOrResetClearsAFault :
    faulted.fault = true ∧ clearsBlock faulted.hostOps = false ∧
    clearsBlock (issuing 0x00001000#32 faulted).hostOps = true ∧
    (∃ t, step faulted = .next t ∧ t.fault = true) ∧
    (∃ t, step (issuing 0x00001000#32 faulted) = .next t ∧ (!t.fault) = true) :=
  ⟨rfl, rfl, by decide, next_of_answers (check := fun t => t.fault) (by decide),
    next_of_answers (check := fun t => !t.fault) (by decide)⟩

theorem witness_OutputStreamsOnlyGrow :
    ∃ t, step (issuing 0x00009000#32 runAaaa) = .next t ∧ (t.out == [97#8]) = true :=
  next_of_answers (check := fun t => t.out == [97#8]) (by decide)

theorem witness_TablesAreFrozenWhileDecoding :
    (issuing 0x00006000#32 runAaaa).dstate ≠ .idle ∧
    clearsBlock (issuing 0x00006000#32 runAaaa).hostOps = false ∧
    ∃ t, step (issuing 0x00006000#32 runAaaa) = .next t ∧ t.fault = true :=
  ⟨by decide, by decide, next_of_answers (check := fun t => t.fault) (by decide)⟩

theorem witness_OnlyReleaseOrResetLeavesDone :
    doneAaaa.dstate = .done ∧
    (∃ t, step (issuing 0x0000A000#32 doneAaaa) = .next t ∧ (!t.fault) = true) ∧
    clearsBlock (issuing 0x0000A000#32 doneAaaa).hostOps = false ∧
    clearsBlock ({ doneAaaa with hostOps := [.reset] } : State).hostOps = true ∧
    (∃ t, step { doneAaaa with hostOps := [.reset] } = .next t ∧ (!t.rootV) = true) :=
  ⟨rfl, next_of_answers (check := fun t => !t.fault) (by decide), by decide, rfl,
    next_of_answers (check := fun t => !t.rootV) (by decide)⟩

theorem witness_CommandsNotAdmittedRaiseIllegalCmd :
    runAaaa.fault = false ∧ runAaaa.dstate ≠ .idle ∧ doneAaaa.fault = false ∧
    doneAaaa.dstate ≠ .idle ∧ treeAaaa.fault = false ∧ treeAaaa.dstate = .idle := by decide

theorem witness_DStateTransitions :
    treeAaaa.fault = false ∧ ∃ t, exec .dstart treeAaaa = .next t ∧ (t.dstate == .run) = true :=
  ⟨rfl, next_of_answers (check := fun t => t.dstate == .run) (by decide)⟩

theorem witness_NopChangesNothing :
    runAaaa.fault = false ∧ (0x00000001#32).extractLsb' 12 4 = 0x0#4 ∧
      0x00000001#32 ≠ 0x00000000#32 := by decide

theorem witness_ReleaseClearsTheBlock :
    (0x00001001#32).extractLsb' 12 4 = 0x1#4 ∧ 0x00001001#32 ≠ 0x00001000#32 ∧
      runAaaa.fault = false ∧ faulted.fault = true := by decide

theorem witness_WbitPlacesTheBit :
    State.reset.fault = false ∧ (0x00002002#32).extractLsb' 12 4 = 0x2#4 ∧
    (0x00002002#32).extractLsb' 1 11 ≠ 0#11 ∧ (0x00012000#32).extractLsb' 12 4 = 0x2#4 ∧
    (0x00012000#32).extractLsb' 16 16 ≠ 0#16 := by decide

theorem witness_WflushCompletesTheByte : runAaaa.fault = false := rfl

theorem witness_RbitReportsTheNextBit :
    ({ runAaaa with brPos := 7 } : State).fault = false ∧
    (({ runAaaa with brPos := 7 } : State).brPos.val < 8 ∧ (8 : Fin 9).val = 7 + 1) ∧
    (runAaaa.brPos.val = 8 ∧ runAaaa.src[runAaaa.srcPos]? = some 0x0F#8 ∧ (1 : Fin 9).val = 1) ∧
    (State.reset.brPos.val = 8 ∧ State.reset.src.length ≤ State.reset.srcPos) ∧
    ((0x00004001#32).extractLsb' 12 4 = 0x4#4 ∧ 0x00004001#32 ≠ 0x00004000#32) := by decide

theorem witness_WriterStreamPositionLaw :
    State.reset.fault = false ∧ State.reset.bwCnt = 0#3 ∧ State.reset.bwAcc = 0#8 := by decide

theorem witness_ReaderStreamPositionLaw :
    runAaaa.fault = false ∧ runAaaa.brPos.val = 8 ∧ runAaaa.srcPos ≤ runAaaa.src.length ∧
    runAaaa.src.drop runAaaa.srcPos = [0x0F#8] ∧ 7 < 8 * [0x0F#8].length ∧
    8 * [0x0F#8].length ≤ 8 := by decide

theorem witness_WriterAndReaderAreIndependent :
    (∃ t, exec (.wbit true) State.reset = .next t ∧ (t.bwCnt == 1#3) = true) ∧
    (∃ t, exec .rbit runAaaa = .next t ∧ t.resultBit = true) ∧
    (∃ t, exec .dstart treeAaaa = .next t ∧ (t.dstate == .run) = true) ∧
    (∃ t, exec .dstep runAaaa = .next t ∧ (t.out == [97#8]) = true) ∧
    (∃ t, exec .drun runAaaa = .next t ∧ (t.dstate == .done) = true) :=
  ⟨next_of_answers (check := fun t => t.bwCnt == 1#3) (by decide),
    next_of_answers (check := fun t => t.resultBit) (by decide),
    next_of_answers (check := fun t => t.dstate == .run) (by decide),
    next_of_answers (check := fun t => t.out == [97#8]) (by decide),
    next_of_answers (check := fun t => t.dstate == .done) (by decide)⟩

theorem witness_WriterCommandsFrame :
    (∃ t, exec .wflush { State.reset with bwAcc := 1#8, bwCnt := 1#3 } = .next t ∧
      (t.snk == [1#8]) = true) ∧
    (∃ t, exec (.enc 257#9) State.reset = .next t ∧ t.fault = true) :=
  ⟨next_of_answers (check := fun t => t.snk == [1#8]) (by decide),
    next_of_answers (check := fun t => t.fault) (by decide)⟩

theorem witness_RbitFrame : ∃ t, exec .rbit runAaaa = .next t ∧ t.resultBit = true :=
  next_of_answers (check := fun t => t.resultBit) (by decide)

/-- Entry 97 of vector K1, and the entry of symbol 256 under the one-leaf tree (an empty code). -/
theorem witness_EncWritesTheCode :
    codeK1.fault = false ∧ ((97#9).toNat ≤ 256 ∧ (ctEntry codeK1 (97#9).toNat).valid = true) ∧
    ((256#9).toNat ≤ 256 ∧
      (ctEntry { codeK1 with ct := [(256, ⟨true, 0, 0⟩)] } (256#9).toNat).valid = true) := by decide

theorem witness_EncOfAMissingSymbolFaults :
    codeK1.fault = false ∧ 256 < (257#9).toNat ∧ (ctEntry codeK1 (256#9).toNat).valid = false := by
  decide

theorem witness_CtdrvDerivesAWellFormedTree :
    treeAaaa.fault = false ∧ treeAaaa.dstate = .idle ∧ WellFormedImage treeAaaa :=
  ⟨rfl, rfl, wellFormed_treeAaaa⟩

/-- The root of the test image with another word, for the clauses of CTDRV and DSTART. -/
def rootWordIs (w : Word) : State :=
  { State.reset with node := [(512, w)], nodeV := [(512, true)], rootH := 512#10, rootV := true }

/-- One image without a root, one that is refused, one that is derived; and of the images refused, the
one whose root no node is written at, and a cyclic one, where a path of any length meets an internal
node (vector K8). -/
theorem witness_CtdrvIsAllOrNothing :
    (State.reset.fault = false ∧ State.reset.dstate = .idle ∧ State.reset.rootV = false) ∧
    (∃ t, exec .ctdrv { State.reset with rootV := true } = .next t ∧ t.fault = true) ∧
    (∃ t, exec .ctdrv treeAaaa = .next t ∧ (!t.fault) = true) ∧
    (leadsTo { State.reset with rootV := true } 0#10 [] 0#10 ∧
      written { State.reset with rootV := true } 0#10 = false) ∧
    (leadsTo (rootWordIs 0x80200101#32) 512#10 [false, true, false] 512#10 ∧
      isInternal (rootWordIs 0x80200101#32) 512#10) :=
  ⟨by decide, next_of_answers (check := fun t => t.fault) (by decide),
    next_of_answers (check := fun t => !t.fault) (by decide), ⟨rfl, by decide⟩,
    ⟨⟨by decide, by decide, by decide, by rfl⟩, by decide⟩⟩

theorem witness_DerivedTableIsPrefixFree :
    treeAaaa.fault = false ∧ treeAaaa.dstate = .idle ∧
    ∃ t, exec .ctdrv treeAaaa = .next t ∧ (!t.fault && (ctEntry t 97).valid && (ctEntry t 256).valid) = true :=
  ⟨rfl, rfl, next_of_answers
    (check := fun t => !t.fault && (ctEntry t 97).valid && (ctEntry t 256).valid) (by decide)⟩

theorem witness_WeightsAreNeverRead :
    (∃ t, exec .ctdrv treeAaaa = .next t ∧ (!t.fault) = true) ∧
    (∃ t, exec .release treeAaaa = .next t ∧ (!t.rootV) = true) :=
  ⟨next_of_answers (check := fun t => !t.fault) (by decide),
    next_of_answers (check := fun t => !t.rootV) (by decide)⟩

theorem witness_CommandsLeaveTheTree : ∃ t, exec .drun runAaaa = .next t ∧ (!t.fault) = true :=
  next_of_answers (check := fun t => !t.fault) (by decide)

theorem witness_CtdrvAndSetrootFrame :
    (∃ t, exec .ctdrv treeAaaa = .next t ∧ (!t.fault) = true) ∧
    (∃ t, exec (.setroot 512#10) treeAaaa = .next t ∧ (t.rootH == 512#10) = true) :=
  ⟨next_of_answers (check := fun t => !t.fault) (by decide),
    next_of_answers (check := fun t => t.rootH == 512#10) (by decide)⟩

theorem witness_SetrootDeclaresTheRoot :
    treeAaaa.fault = false ∧ treeAaaa.dstate = .idle ∧ (512#10).toNat ≤ 512 ∧
      512 < (513#10).toNat := by decide

theorem witness_DstartGoesToTheRoot :
    (State.reset.fault = false ∧ State.reset.dstate = .idle ∧ State.reset.rootV = false) ∧
    ((rootWordIs 0xFFFFF100#32).rootH.toNat ≤ 512 ∧
      nodeValid (rootWordIs 0xFFFFF100#32) 512#10 = true ∧
      nodeSym (nodeWord (rootWordIs 0xFFFFF100#32) 512#10) = 256#9) ∧
    (nodeValid (rootWordIs 0x00001101#32) 512#10 = true ∧
      nodeSym (nodeWord (rootWordIs 0x00001101#32) 512#10) = 257#9) ∧
    ((nodeSym (nodeWord (rootWordIs 0xFFFFF0FF#32) 512#10)).toNat = 255 ∧
      (nodeSym (nodeWord (rootWordIs 0xFFFFF102#32) 512#10)).toNat = 258) ∧
    nodeValid ({ State.reset with rootH := 512#10, rootV := true } : State) 512#10 = false := by
  decide

/-- The image of one internal node at 0 whose oneChild is `n`, with node 1 holding the word `w`;
the next bit is a 1. -/
def oneChildIs (n : Handle) (w : Word) : State :=
  { State.reset with
    node := [(0, nodePack 257#9 1#10 n), (1, w)], nodeV := [(0, true), (1, true)]
    rootV := true, cur := 0#10, dstate := .run, src := [0x01#8] }

theorem witness_DstepWalksOneEdge :
    ((oneChildIs 1#10 0#32).fault = false ∧ (oneChildIs 1#10 0#32).dstate = .run ∧
      (oneChildIs 1#10 0#32).cur.toNat ≤ 512) ∧
    (∃ r, exec .rbit { oneChildIs 1#10 0#32 with src := [] } = .next r ∧ r.resultEnd = true) ∧
    (∃ r, exec .rbit (oneChildIs 1#10 0#32) = .next r ∧ (!r.resultEnd && r.resultBit) = true) ∧
    (childOf (oneChildIs 1#10 0#32) 0#10 true = 1#10 ∧
      nodeValid (oneChildIs 1#10 0#32) 1#10 = true) ∧
    nodeSym (nodeWord (oneChildIs 1#10 0x101#32) 1#10) = 257#9 ∧
    nodeSym (nodeWord (oneChildIs 1#10 0x100#32) 1#10) = 256#9 ∧
    (nodeSym (nodeWord (oneChildIs 1#10 0x0FF#32) 1#10)).toNat ≤ 255 ∧
    258 ≤ (nodeSym (nodeWord (oneChildIs 1#10 0x102#32) 1#10)).toNat ∧
    512 < (childOf (oneChildIs 513#10 0#32) 0#10 true).toNat ∧
    nodeValid (oneChildIs 512#10 0#32) (childOf (oneChildIs 512#10 0#32) 0#10 true) = false :=
  ⟨by decide, next_of_answers (check := fun r => r.resultEnd) (by decide),
    next_of_answers (check := fun r => !r.resultEnd && r.resultBit) (by decide),
    by decide, by decide, by decide, by decide, by decide, by decide, by decide⟩

/-- A literal, the pseudo-EOF leaf and an internal node as the child the bit selects, at the largest
handle of the node memory too. -/
theorem witness_DstepCompletes :
    ((oneChildIs 1#10 0x0FF#32).fault = false ∧ (oneChildIs 1#10 0x0FF#32).dstate = .run ∧
      (oneChildIs 1#10 0x0FF#32).cur.toNat ≤ 512 ∧
      remainingBits (oneChildIs 1#10 0x0FF#32) =
        true :: [false, false, false, false, false, false, false] ∧
      1#10 = childOf (oneChildIs 1#10 0x0FF#32) (oneChildIs 1#10 0x0FF#32).cur true ∧
      (1#10).toNat ≤ 512 ∧ nodeValid (oneChildIs 1#10 0x0FF#32) 1#10 = true) ∧
    (nodeSym (nodeWord (oneChildIs 1#10 0x0FF#32) 1#10)).toNat = 255 ∧
    (nodeSym (nodeWord (oneChildIs 1#10 0x100#32) 1#10)).toNat = 256 ∧
    (nodeSym (nodeWord (oneChildIs 1#10 0x101#32) 1#10)).toNat = 257 ∧
    (nodeValid { oneChildIs 512#10 0#32 with nodeV := [(0, true), (512, true)] } 512#10 = true ∧
      (nodeSym (nodeWord (oneChildIs 512#10 0#32) 512#10)).toNat ≤ 257) := by decide

theorem witness_DstepAndDrunAreNoOpsInDone : doneAaaa.dstate = .done := rfl

theorem witness_DrunEndsDoneOrFaulted :
    Inv runAaaa ∧ runAaaa.fault = false ∧ runAaaa.dstate = .run := ⟨inv_runAaaa, rfl, rfl⟩

/-- T_aaaa from its RUN state: the same image, so the same well-formedness. -/
theorem wellFormed_runAaaa : WellFormedImage runAaaa := by
  have hr : ∀ h, Reachable runAaaa h → Reachable treeAaaa h := fun h hr => by
    induction hr with
    | root => exact .root
    | child b _ hi ih => exact .child b ih hi
  have hr' : ∀ h, Reachable treeAaaa h → Reachable runAaaa h := fun h hr => by
    induction hr with
    | root => exact .root
    | child b _ hi ih => exact .child b ih hi
  obtain ⟨h1, h2, h3, h4, h5, h6, ⟨p, h7, h8⟩⟩ := wellFormed_treeAaaa
  exact ⟨h1, fun h r => h2 h (hr h r), fun h r => h3 h (hr h r),
    fun a b x y ra rb => h4 a b x y (hr a ra) (hr b rb), fun h b r => h5 h b (hr h r),
    fun a b ra rb => h6 a b (hr a ra) (hr b rb), ⟨p, hr' p h7, h8⟩⟩

theorem witness_DrunDecodesTheMessage :
    (runAaaa.fault = false ∧ runAaaa.dstate = .run ∧ WellFormedImage runAaaa ∧
      runAaaa.cur = runAaaa.rootH ∧ isInternal runAaaa runAaaa.rootH) ∧
    List.Forall₂ (fun (b : Byte) c => ∃ h, leadsTo runAaaa runAaaa.rootH c h ∧
      (nodeSym (nodeWord runAaaa h)).toNat = b.toNat)
      [97#8, 97#8, 97#8, 97#8] [[true], [true], [true], [true]] ∧
    (leadsTo runAaaa runAaaa.rootH [false] 1#10 ∧ nodeSym (nodeWord runAaaa 1#10) = 256#9) ∧
    remainingBits runAaaa =
      [[true], [true], [true], [true]].flatten ++ [false] ++ [false, false, false] := by
  have ha : ∃ h, leadsTo runAaaa runAaaa.rootH [true] h ∧
      (nodeSym (nodeWord runAaaa h)).toNat = (97#8).toNat := ⟨0#10, ⟨by decide, by rfl⟩, by decide⟩
  exact ⟨⟨rfl, rfl, wellFormed_runAaaa, rfl, by decide⟩,
    .cons ha (.cons ha (.cons ha (.cons ha .nil))), ⟨⟨by decide, by rfl⟩, by decide⟩, by decide⟩

theorem witness_HandlesAbove512RaiseBadTree :
    (({ State.reset with rootH := 513#10, rootV := true } : State).fault = false ∧
      ({ State.reset with rootH := 513#10, rootV := true } : State).dstate = .idle ∧
      512 < ({ State.reset with rootH := 513#10, rootV := true } : State).rootH.toNat) ∧
    (({ runAaaa with cur := 513#10 } : State).fault = false ∧
      ({ runAaaa with cur := 513#10 } : State).dstate = .run ∧
      512 < ({ runAaaa with cur := 513#10 } : State).cur.toNat ∧
      remainingBits { runAaaa with cur := 513#10, src := [] } = [] ∧
      remainingBits { runAaaa with cur := 513#10 } =
        true :: [true, true, true, false, false, false, false]) := by decide

theorem witness_DecoderCommandsFrame :
    (∃ t, exec .dstart treeAaaa = .next t ∧ (!t.fault) = true) ∧
    (∃ t, exec .drun runAaaa = .next t ∧ (!t.fault) = true) :=
  ⟨next_of_answers (check := fun t => !t.fault) (by decide),
    next_of_answers (check := fun t => !t.fault) (by decide)⟩

/-- The reader at the last bit, and another one whose padding is all ones. -/
theorem witness_BitsAfterTheEndCannotMatter :
    lastBit.fault = false ∧ lastBit.dstate = .run ∧
    (∃ t, exec .drun lastBit = .next t ∧
      (t.dstate == .done && remainingBits lastBit == [false] ++ remainingBits t) = true) ∧
    remainingBits { lastBit with brBuf := 0xEF#8 } = [false] ++ [true, true, true] :=
  ⟨rfl, rfl, next_of_answers
    (check := fun t => t.dstate == .done && remainingBits lastBit == [false] ++ remainingBits t)
    (by decide), by decide⟩

/-- The message "a" on T_aaaa: the codes 1 and 0, pushed as the byte 01, which another state holds. -/
theorem witness_DecodingInvertsEncoding :
    (treeAaaa.fault = false ∧ treeAaaa.dstate = .idle ∧ WellFormedImage treeAaaa ∧
      treeAaaa.bwCnt = 0#3) ∧
    (∃ t, exec .ctdrv treeAaaa = .next t ∧ (!t.fault &&
      answers (execAll (encodeCommands [97#8]) t) fun w => w.snk == [0x01#8]) = true) ∧
    (∀ b ∈ [97#8], ∃ h, Reachable treeAaaa h ∧
      (nodeSym (nodeWord treeAaaa h)).toNat = (b : Byte).toNat) ∧
    (SameImage treeAaaa { treeAaaa with src := [0x01#8] } ∧
      ({ treeAaaa with src := [0x01#8] } : State).brPos.val = 8) :=
  ⟨⟨rfl, rfl, wellFormed_treeAaaa, rfl⟩, next_of_answers
    (check := fun t => !t.fault && answers (execAll (encodeCommands [97#8]) t) fun w => w.snk == [0x01#8])
    (by decide), by simpa using reachable_a, ⟨rfl, rfl, rfl, rfl⟩, rfl⟩

/-- The same, with SRC cut to nothing. -/
theorem witness_TruncatedStreamIsMalformed :
    (treeAaaa.fault = false ∧ treeAaaa.dstate = .idle ∧ WellFormedImage treeAaaa ∧
      treeAaaa.bwCnt = 0#3) ∧
    (∃ t, exec .ctdrv treeAaaa = .next t ∧ (!t.fault &&
      answers (execAll (encodeCommands [97#8]) t) fun w => w.snk == [0x01#8]) = true) ∧
    (∀ b ∈ [97#8], ∃ h, Reachable treeAaaa h ∧
      (nodeSym (nodeWord treeAaaa h)).toNat = (b : Byte).toNat) ∧
    (SameImage treeAaaa treeAaaa ∧ treeAaaa.brPos.val = 8 ∧
      treeAaaa.src.drop treeAaaa.srcPos = [] ∧ ([] : List Byte) <+: [0x01#8] ∧
      ([] : List Byte) ≠ [0x01#8]) :=
  ⟨⟨rfl, rfl, wellFormed_treeAaaa, rfl⟩, next_of_answers
    (check := fun t => !t.fault && answers (execAll (encodeCommands [97#8]) t) fun w => w.snk == [0x01#8])
    (by decide), by simpa using reachable_a, ⟨rfl, rfl, rfl, rfl⟩, by decide⟩

theorem witness_BuildTreeHoldsThePresentSymbols :
    ∃ t, buildTree [(97, 4), (256, 1)] = some t ∧ t.seq = 2 := ⟨_, rfl, rfl⟩

/-- A serialised form for the tests: each key and each count in unary, ended by a zero. -/
def unaryNat (n : Nat) : List Byte := List.replicate n 1#8 ++ [0#8]

/-- Its reading: the number of bytes before the first zero, and the bytes after it. -/
def readUnary : List Byte → Option (Nat × List Byte)
  | [] => none
  | b :: bs => if b = 0#8 then some (0, bs) else (readUnary bs).map fun r => (r.1 + 1, r.2)

/-- The table's length, then its cells. -/
def unarySerialise (f : FreqTable) : List Byte :=
  unaryNat f.length ++ f.flatMap fun c => unaryNat c.1 ++ unaryNat c.2

/-- So many cells, and nothing after them. -/
def readCells : Nat → List Byte → Option FreqTable
  | 0, bs => if bs = [] then some [] else none
  | n + 1, bs => (readUnary bs).bind fun k => (readUnary k.2).bind fun c =>
      (readCells n c.2).map fun f => (k.1, c.1) :: f

/-- The parser of that form, which takes frequency tables only. -/
def unaryParse (bs : List Byte) : Option FreqTable :=
  ((readUnary bs).bind fun r => readCells r.1 r.2).bind fun f => if f.wf then some f else none

theorem readUnary_unaryNat (n : Nat) (bs : List Byte) :
    readUnary (unaryNat n ++ bs) = some (n, bs) := by
  induction n with
  | zero => rfl
  | succ n ih =>
    have : readUnary (1#8 :: (unaryNat n ++ bs)) = some (n + 1, bs) := by simp [readUnary, ih]
    simpa [unaryNat, List.replicate_succ] using this

theorem readCells_serialise (f : FreqTable) :
    readCells f.length (f.flatMap fun c => unaryNat c.1 ++ unaryNat c.2) = some f := by
  induction f with
  | nil => rfl
  | cons c f ih => simp [readCells, readUnary_unaryNat, ih]

/-- The round trip, on every map over the symbols. -/
theorem unaryParse_serialise {f : FreqTable} (hf : f.wf) : unaryParse (unarySerialise f) = some f := by
  unfold unaryParse unarySerialise
  rw [readUnary_unaryNat]
  simp only [Option.bind_some, readCells_serialise, if_pos hf]

theorem unaryParse_wf {bs : List Byte} {f : FreqTable} (h : unaryParse bs = some f) : f.wf := by
  simp only [unaryParse, Option.bind_eq_some_iff] at h
  obtain ⟨g, -, h⟩ := h
  split at h
  · next hw => cases h; exact hw
  · cases h

/-- A TABLE_FORMAT that reads an empty table as one. -/
def unaryFormat : TableFormat where
  serialise := unarySerialise
  parse := unaryParse
  parse_wf _ _ := unaryParse_wf
  parse_serialise input _ := unaryParse_serialise (buildFrequencyTable_wf input)

theorem unaryFormat_roundTrip (f : FreqTable) (hf : f.wf) :
    unaryFormat.parse (unaryFormat.serialise f) = some f := unaryParse_serialise hf

/-- A TABLE_FORMAT that refuses every table without PEOF, the empty one among them (R181, C1). -/
def strictFormat : TableFormat where
  serialise := unarySerialise
  parse bs := (unaryParse bs).filter fun f => decide (256 ∈ presentSymbols f)
  parse_wf _ _ h := unaryParse_wf (Option.filter_eq_some_iff.mp h).1
  parse_serialise input _ := by
    rw [unaryParse_serialise (buildFrequencyTable_wf input)]
    simp [Option.filter, buildFrequencyTable_peof]

/-- The host that refuses an empty table is a format of the model. -/
theorem test_strictFormat_refuses_empty : strictFormat.parse (strictFormat.serialise []) = none := by
  decide

/-- An input a call may start with; stored bytes that do not parse; stored tables with a symbol (the
least key and the greatest) and with none. -/
theorem witness_StoredTableDecompressesAlike :
    mayStart (buildFrequencyTable [97#8]) = true ∧
    unaryFormat.parse [1#8] = none ∧
    (unaryFormat.parse (unaryFormat.serialise [(0, 1)]) = some [(0, 1)] ∧
      1 ≤ Memory.read 0 [(0, 1)] 0) ∧
    (unaryFormat.parse (unaryFormat.serialise [(256, 1)]) = some [(256, 1)] ∧
      1 ≤ Memory.read 0 [(256, 1)] 256) ∧
    (unaryFormat.parse [0#8] = some [] ∧ ∀ k, k ≤ 256 → Memory.read 0 ([] : FreqTable) k = 0) :=
  ⟨by decide, rfl, ⟨unaryFormat_roundTrip [(0, 1)] (by decide), by decide⟩,
    ⟨unaryFormat_roundTrip [(256, 1)] (by decide), by decide⟩, by decide, fun _ _ => rfl⟩

end Sys2Proof.Machine.Tests
end

section
/-! Totality (00_scope.md R10, 60_exceptions.md R185): every command, every bus write and every step
answers a next state, in every state. -/

namespace Sys2Proof.Machine

/-- The checks made before a command's own (R188) answer a next state wherever its body does. -/
theorem whenAdmitted_answers {adm : DState → Bool} {body : State → Out} {s : State}
    (hb : ∃ t, body s = .next t) : ∃ t, whenAdmitted adm s body = .next t := by
  cases hf : s.fault with
  | true => exact ⟨s, whenAdmitted_faulted hf⟩
  | false =>
    cases ha : adm s.dstate with
    | true => rw [whenAdmitted_admitted hf ha]; exact hb
    | false => exact ⟨_, whenAdmitted_refused hf ha⟩

/-- Every command has an outcome in every state: each raises or does its effect (R187, R188). -/
theorem exec_answers (i : Instr) (s : State) : ∃ t, exec i s = .next t := by
  cases i with
  | nop => exact ⟨s, exec_nop s⟩
  | release => exact ⟨_, exec_release⟩
  | wbit b =>
    simp only [exec, execWbit]
    exact whenAdmitted_answers ⟨_, rfl⟩
  | wflush =>
    simp only [exec, execWflush]
    exact whenAdmitted_answers ⟨_, rfl⟩
  | rbit =>
    simp only [exec, execRbit]
    apply whenAdmitted_answers
    split <;> exact ⟨_, rfl⟩
  | enc sym =>
    simp only [exec, execEnc]
    apply whenAdmitted_answers
    split <;> exact ⟨_, rfl⟩
  | ctdrv =>
    simp only [exec, execCtdrv]
    apply whenAdmitted_answers
    split
    · split <;> exact ⟨_, rfl⟩
    · exact ⟨_, rfl⟩
  | setroot h =>
    simp only [exec, execSetroot]
    split <;> exact whenAdmitted_answers ⟨_, rfl⟩
  | dstart =>
    simp only [exec, execDstart]
    apply whenAdmitted_answers
    split
    · split <;> exact ⟨_, rfl⟩
    · exact ⟨_, rfl⟩
  | dstep =>
    simp only [exec, execDstep]
    apply whenAdmitted_answers
    split <;> exact ⟨_, rfl⟩
  | drun =>
    simp only [exec, execDrun]
    exact whenAdmitted_answers ⟨_, rfl⟩

/-- A command word has an outcome: its command's, or ILLEGAL_CMD when it decodes to none (R94). -/
theorem execute_answers (cw : Word) (s : State) : ∃ t, execute cw s = .next t := by
  unfold execute
  cases decode cw with
  | ok i => exact exec_answers i s
  | error e => exact ⟨_, rfl⟩

/-- A bus write has an outcome at every address: while a fault is latched only RELEASE acts (R187),
else CMD executes its word and any other address is written or refused by a latched fault (R71). -/
theorem hostWrite_answers (a : BusAddr) (d : Word) (s : State) : ∃ t, hostWrite a d s = .next t := by
  unfold hostWrite
  split
  · split
    · exact exec_answers .release s
    · exact ⟨s, rfl⟩
  · split
    · exact execute_answers d s
    · exact ⟨_, rfl⟩

/-- Every operation of the host or the environment has an outcome (R5). -/
theorem hostOp_answers (op : HostOp) (s : State) : ∃ t, hostOp op s = .next t := by
  cases op with
  | read a => exact ⟨_, rfl⟩
  | write a d => exact hostWrite_answers a d s
  | reset => exact ⟨_, rfl⟩
  | openSrc bytes => exact ⟨_, rfl⟩

/-- Every step has an outcome: the next operation's, or the same state when none waits (R201). -/
theorem step_answers (s : State) : ∃ t, step s = .next t := by
  unfold step serveHost
  cases s.hostOps with
  | nil => exact ⟨s, rfl⟩
  | cons op ops => exact hostOp_answers op _

/-- Settles O5: it holds, each operation's outcome reduced to that of the operations it is made of,
down to the checks every command shares. -/
theorem everyOperationAnswers : Obligations.EveryOperationAnswers := fun s =>
  ⟨fun i => exec_answers i s, fun a d => hostWrite_answers a d s, step_answers s⟩

end Sys2Proof.Machine
end

section
/-! What one step can do, by whether it clears the block (70_reset_and_hazards.md R210, 60_exceptions.md
R190): the operation is taken off the host's list, and then either the block is cleared or one of the
other operations acts. -/

namespace Sys2Proof.Machine

variable {s t : State}

/-- A row without operands decodes to its own command, and only from the argument 0. -/
theorem decodePlain_eq_ok {arg : BitVec 12} {i j : Instr} :
    decodePlain arg i = .ok j ↔ arg = 0 ∧ i = j := by
  unfold decodePlain
  split <;> simp_all

/-- The row of RELEASE is the only one that decodes to it (R92). -/
theorem decodeRow_eq_release {op : Nat} {arg : BitVec 12} (h : decodeRow op arg = .ok .release) :
    op = 1 ∧ arg = 0 := by
  unfold decodeRow at h
  split at h
  case h_2 => exact ⟨rfl, (decodePlain_eq_ok.mp h).1⟩
  case h_3 => unfold decodeWbit at h; split at h <;> simp at h
  case h_6 => unfold decodeEnc at h; split at h <;> simp at h
  case h_8 =>
    unfold decodeSetroot at h
    split at h
    · split at h <;> simp at h
    · simp at h
  all_goals simp [decodePlain_eq_ok] at h

/-- The word 0x00001000 is the only encoding of RELEASE (R170). -/
theorem decode_eq_release_iff {cw : Word} : decode cw = .ok .release ↔ cw = 0x00001000#32 := by
  constructor
  · intro h
    obtain ⟨hz, hrow⟩ := decode_ok h
    obtain ⟨hop, harg⟩ := decodeRow_eq_release hrow
    exact word_ext hz (BitVec.eq_of_toNat_eq hop) harg
  · rintro rfl
    rfl

/-- The state with the host's next operation taken off its list, before it acts. -/
def afterIssue (s : State) : State := { s with hostOps := s.hostOps.tail }

/-- With no operation waiting there is nothing to take off. -/
theorem afterIssue_of_nil (h : s.hostOps = []) : afterIssue s = s := by
  have htail : s.hostOps.tail = s.hostOps := by rw [h]; rfl
  unfold afterIssue
  rw [htail]

/-- Everything one step can do: clear the block, which it does exactly when `clearsBlock` says so, or
else act on the state whose next operation is taken off the list (R5, R70, R71, R190). -/
theorem step_effects (h : step s = .next t) :
    (clearsBlock s.hostOps = true ∧ t = clearBlock (afterIssue s)) ∨
    (clearsBlock s.hostOps = false ∧
      (t = afterIssue s ∨
       (∃ a, t = { afterIssue s with hostReads := s.hostReads ++ [hostRead s a] }) ∨
       (∃ bytes, t = { afterIssue s with src := bytes, srcPos := 0 }) ∨
       (s.fault = false ∧
         ((∃ i, i ≠ .release ∧ exec i (afterIssue s) = .next t) ∨
          t = raise .illegalCmd (afterIssue s) ∨
          ∃ a d, t = writeRegion (region a) d (afterIssue s))))) := by
  rcases step_next h with ⟨ho, rfl⟩ | ⟨op, ops, ho, hop⟩
  · exact .inr ⟨by rw [ho]; rfl, .inl (afterIssue_of_nil ho).symm⟩
  unfold afterIssue
  rw [ho, List.tail_cons]
  rcases hop with ⟨a, rfl, rfl⟩ | ⟨rfl, rfl⟩ | ⟨bytes, rfl, rfl⟩ | ⟨a, d, rfl, hw⟩
  · exact .inr ⟨rfl, .inr (.inl ⟨a, rfl⟩)⟩
  · exact .inl ⟨rfl, rfl⟩
  · exact .inr ⟨rfl, .inr (.inr (.inl ⟨bytes, rfl⟩))⟩
  have clears : clearsBlock (.write a d :: ops) = decide (a = 0x0000#16 ∧ d = 0x00001000#32) := rfl
  rw [clears]
  rcases hw with ⟨_, ha, hd, rfl⟩ | ⟨_, hn, rfl⟩ | ⟨hf, ha, i, hi, he⟩ | ⟨hf, _, ⟨e, he⟩, rfl⟩ |
    ⟨hf, ha, rfl⟩
  · exact .inl ⟨decide_eq_true ⟨ha, hd⟩, rfl⟩
  · exact .inr ⟨decide_eq_false hn, .inl rfl⟩
  · by_cases hr : i = .release
    · subst hr
      exact .inl ⟨decide_eq_true ⟨ha, decode_eq_release_iff.mp hi⟩, (Host.Outcome.next.inj he).symm⟩
    · refine .inr ⟨decide_eq_false fun hc => hr ?_, .inr (.inr (.inr ⟨hf, .inl ⟨i, hr, he⟩⟩))⟩
      rw [decode_eq_release_iff.mpr hc.2] at hi
      exact (Except.ok.inj hi).symm
  · refine .inr ⟨decide_eq_false fun hc => ?_, .inr (.inr (.inr ⟨hf, .inr (.inl rfl)⟩))⟩
    rw [decode_eq_release_iff.mpr hc.2] at he
    cases he
  · exact .inr ⟨decide_eq_false fun hc => ha hc.1, .inr (.inr (.inr ⟨hf, .inr (.inr ⟨a, d, rfl⟩)⟩))⟩

end Sys2Proof.Machine
end

section
/-! The invariant (10_state.md R41): each operation of the block keeps it, said once per operation; then
every command, every bus write and every step does. -/

namespace Sys2Proof.Machine

variable {s t : State}

/-! ### Clearing, faults and the host's side -/

/-- The reset values meet the invariant, whatever the streams hold (R40). -/
theorem inv_clearBlock (h : s.srcPos ≤ s.src.length) : Inv (clearBlock s) where
  writerClean := by simp
  causeLatched := by simp
  running := by simp
  stopped := by simp
  waiting := by simp
  rootRange := by simp
  nodeReserved := by simp
  srcRange := h
  nodeWf := Memory.wf_nil _ _
  nodeVWf := Memory.wf_nil _ _
  nodeWWf := Memory.wf_nil _ _
  ctWf := Memory.wf_nil _ _

/-- A raise latches a cause together with its fault (R186). -/
theorem inv_raise {c : Cause} (h : Inv s) (hc : c ≠ .none) : Inv (raise c s) :=
  { h with causeLatched := by simp [hc] }

/-- The host's list and record are no part of the invariant. -/
theorem inv_afterIssue (h : Inv s) : Inv (afterIssue s) := { h with }

/-- A read's record is no part of the invariant. -/
theorem inv_recordRead (h : Inv s) (w : List Word) : Inv { s with hostReads := w } := { h with }

/-- A new SRC starts at its first byte. -/
theorem inv_openSrc (h : Inv s) (bytes : List Byte) : Inv { s with src := bytes, srcPos := 0 } :=
  { h with srcRange := Nat.zero_le _ }

/-! ### The writer and the reader -/

/-- `PutBit` leaves every bit at or above the count 0 (R110). -/
theorem putBit_writerClean (b : Bool) (h : ∀ i, s.bwCnt.toNat ≤ i → s.bwAcc.getLsbD i = false) :
    ∀ i, (putBit b s).bwCnt.toNat ≤ i → (putBit b s).bwAcc.getLsbD i = false := by
  by_cases h7 : s.bwCnt = 7#3
  · simp [putBit_full b h7]
  · intro i hi
    have hcnt : (s.bwCnt + 1#3).toNat = s.bwCnt.toNat + 1 := by
      have : s.bwCnt.toNat ≠ 7 := fun e => h7 (BitVec.eq_of_toNat_eq e)
      have := s.bwCnt.isLt
      simp only [BitVec.toNat_add, BitVec.toNat_ofNat]
      omega
    rw [putBit_partial b h7, setWriter_bwCnt, hcnt] at hi
    rw [putBit_partial b h7, setWriter_bwAcc]
    by_cases h8 : i < 8
    · rw [getLsbD_setBit _ _ _ _ h8, if_neg (by omega)]
      exact h i (by omega)
    · exact BitVec.getLsbD_of_ge _ _ (by omega)

/-- The writer's registers and SNK are in one item of the invariant only (R41 item 1). -/
theorem inv_withWriter {acc : BitVec 8} {cnt : BitVec 3} (h : Inv s) (bytes : List Byte)
    (hclean : ∀ i, cnt.toNat ≤ i → acc.getLsbD i = false) :
    Inv { s with bwAcc := acc, bwCnt := cnt, snk := bytes } :=
  { h with writerClean := hclean }

theorem inv_putBit (h : Inv s) (b : Bool) : Inv (putBit b s) := by
  have hclean := putBit_writerClean b h.writerClean
  obtain ⟨acc, cnt, bytes, e⟩ := putBit_frame b s
  rw [e] at hclean ⊢
  exact inv_withWriter h _ hclean

theorem inv_putBits (h : Inv s) (bs : List Bool) : Inv (putBits bs s) := by
  induction bs generalizing s with
  | nil => exact h
  | cons b bs ih => exact ih (inv_putBit h b)

theorem inv_flushWriter (h : Inv s) : Inv (flushWriter s) := by
  unfold flushWriter
  split
  · exact h
  · exact inv_withWriter h _ (by simp)

/-- A pulled byte was still in SRC, so SRC_POS stays within it (R112). -/
theorem inv_readBit {b : Bool} (h : Inv s) (hr : readBit s = some (b, t)) : Inv t := by
  rcases readBit_some hr with ⟨_, _, rfl⟩ | ⟨_, r, hsrc, _, rfl⟩
  · exact { h with }
  · exact { h with srcRange := (List.getElem?_eq_some_iff.mp hsrc).1 }

theorem inv_setResult (h : Inv s) (b e : Bool) : Inv (setResult b e s) := { h with }

/-! ### The tables and the root -/

/-- Only IDLE, where `CUR` names no node, lets the root change (R150). -/
theorem inv_setRoot {x : Handle} (h : Inv s) (hd : s.dstate = .idle) (hx : x.toNat ≤ 512) :
    Inv (setRoot x s) :=
  { h with
    running := by simp [hd]
    rootRange := hx }

theorem inv_setCt {tab : Memory CtEntry} (h : Inv s) (hw : tab.wf 257 CtEntry.empty) :
    Inv (setCt tab s) := { h with ctWf := hw }

/-- What a write stores has the reserved bits 0 (R71). -/
theorem nodeStored_reserved (d : Word) : (nodeStored d).extractLsb' 9 3 = 0#3 := by
  apply BitVec.eq_of_getLsbD_eq
  intro i hi
  interval_cases i <;> simp [nodeStored]

theorem inv_writeNode {k : Nat} (h : Inv s) (hd : s.dstate = .idle) (hk : k ≤ 512) (d : Word) :
    Inv (writeNode k d s) :=
  { h with
    running := by simp [hd]
    stopped := by simp [hd]
    nodeReserved := fun j => by
      rw [writeNode_node, Memory.read_write]
      split
      · exact nodeStored_reserved d
      · exact h.nodeReserved j
    nodeWf := Memory.wf_write (nodeStored d) h.nodeWf (Nat.lt_succ_of_le hk)
    nodeVWf := Memory.wf_write true h.nodeVWf (Nat.lt_succ_of_le hk) }

theorem inv_writeNodeW {k : Nat} (h : Inv s) (hk : k ≤ 512) (d : Word) : Inv (writeNodeW k d s) :=
  { h with nodeWWf := Memory.wf_write _ h.nodeWWf (Nat.lt_succ_of_le hk) }

theorem inv_writeCt {k : Nat} (h : Inv s) (hk : k ≤ 256) (e : CtEntry) : Inv (writeCt k e s) :=
  { h with ctWf := Memory.wf_write _ h.ctWf (Nat.lt_succ_of_le hk) }

/-- A bus write outside CMD writes an entry inside its table, in IDLE, or raises (R71, R72). -/
theorem inv_writeRegion (h : Inv s) (a : BusAddr) (d : Word) : Inv (writeRegion (region a) d s) := by
  obtain ⟨hnode, hnodeW, hhead, hcode⟩ := region_inRange a
  rcases writeRegion_cases (region a) d s with e |
    ⟨hd, ⟨k, hr, e⟩ | ⟨k, hr, e⟩ | ⟨k, hr, _, e⟩ | ⟨k, j, hr, e⟩⟩ <;> rw [e]
  · exact inv_raise h (by simp)
  · exact inv_writeNode h hd (hnode k hr) d
  · exact inv_writeNodeW h (hnodeW k hr) d
  · exact inv_writeCt h (hhead k hr) _
  · exact inv_writeCt h (hcode k j hr) _

/-! ### The decoder -/

/-- The decoder in RUN at a written internal node, with the root one too (R41 item 5). -/
theorem inv_enterRun {h : Handle} (hi : Inv s) (hv : s.rootV = true)
    (hroot : written s s.rootH = true ∧ isInternal s s.rootH)
    (hcur : written s h = true ∧ isInternal s h) : Inv (setDState .run (setCur h s)) :=
  { hi with
    running := fun _ => ⟨hv, hcur.1, hcur.2, hroot.1, hroot.2⟩
    stopped := by simp
    waiting := by simp }

/-- The decoder in DONE at the written pseudo-EOF leaf (R41 item 6). -/
theorem inv_enterDone {h : Handle} (hi : Inv s) (hw : written s h = true)
    (hp : nodeSym (nodeWord s h) = Config.peof) : Inv (setDState .done (setCur h s)) :=
  { hi with
    running := by simp
    stopped := fun _ => ⟨hw, hp⟩
    waiting := by simp }

theorem inv_outPut (h : Inv s) (b : Byte) : Inv (outPut b s) := { h with }

/-- In RUN, moving `CUR` is entering RUN there. -/
theorem inv_moveCur {h : Handle} (hi : Inv s) (hd : s.dstate = .run)
    (hcur : written s h = true ∧ isInternal s h) : Inv (setCur h s) := by
  obtain ⟨hv, _, _, hroot⟩ := hi.running hd
  have e : setDState .run (setCur h s) = setCur h s := by simp [setDState, setCur, hd]
  exact e ▸ inv_enterRun hi hv hroot hcur

/-- Arriving at a child leaves `CUR` at an inner node, at the pseudo-EOF leaf in DONE, or back at the
root (R153). -/
theorem inv_arrive {g : Handle} (h : Inv s) (hd : s.dstate = .run) : Inv (arrive g s) := by
  rcases arrive_cases g s with ⟨hw, hn, e⟩ | ⟨hw, hp, e⟩ | ⟨_, _, e⟩ | ⟨_, e⟩ <;> rw [e]
  · exact inv_moveCur h hd ⟨hw, hn⟩
  · exact inv_enterDone h hw hp
  · obtain ⟨_, _, _, hroot⟩ := h.running hd
    exact inv_moveCur (inv_outPut h _) hd hroot
  · exact inv_raise h (by simp)

theorem inv_stepTree (h : Inv s) (hd : s.dstate = .run) : Inv (stepTree s) := by
  rcases stepTree_cases s with ⟨_, e⟩ | ⟨b, u, hr, _, e⟩ | ⟨b, u, hr, _, e⟩ <;> rw [e]
  · exact inv_raise h (by simp)
  · refine inv_arrive (inv_readBit h hr) ?_
    obtain ⟨_, _, _, rfl⟩ := readBit_frame hr
    exact hd
  · exact inv_raise (inv_readBit h hr) (by simp)

theorem inv_runTree (h : Inv s) (fuel : Nat) : Inv (runTree fuel s) :=
  runTree_induction (P := Inv) (fun _ hd _ hu => inv_stepTree hu hd) h

/-! ### Commands and steps -/

/-- Every command keeps the invariant. -/
theorem inv_exec {i : Instr} (h : Inv s) (he : exec i s = .next t) : Inv t := by
  rcases exec_next he with rfl | ⟨_, rfl⟩ | ⟨_, c, hc, rfl⟩ | ⟨_, _, bs, rfl⟩ | ⟨_, _, rfl⟩ |
    ⟨_, _, _, rfl⟩ | ⟨_, _, b, u, hr, rfl⟩ | ⟨_, _, _, _, tab, htab, rfl⟩ |
    ⟨_, hd, x, _, hx, rfl⟩ | ⟨_, _, _, hv, hw, ⟨hp, rfl⟩ | ⟨hn, rfl⟩⟩ | ⟨_, _, hd, rfl⟩ |
    ⟨_, _, _, rfl⟩
  · exact h
  · exact inv_clearBlock h.srcRange
  · exact inv_raise h hc
  · exact inv_putBits h bs
  · exact inv_flushWriter h
  · exact inv_setResult h _ _
  · exact inv_setResult (inv_readBit h hr) _ _
  · exact inv_setCt h (derive_wf (Memory.wf_nil _ _) htab)
  · exact inv_setRoot h hd hx
  · exact inv_enterDone h hw hp
  · exact inv_enterRun h hv ⟨hw, hn⟩ ⟨hw, hn⟩
  · exact inv_stepTree h hd
  · exact inv_runTree h _

/-- Every step keeps the invariant. -/
theorem inv_step (h : Inv s) (hs : step s = .next t) : Inv t := by
  have hi := inv_afterIssue h
  rcases step_effects hs with ⟨_, rfl⟩ | ⟨_, rfl | ⟨a, rfl⟩ | ⟨bytes, rfl⟩ |
    ⟨_, ⟨i, _, he⟩ | rfl | ⟨a, d, rfl⟩⟩⟩
  · exact inv_clearBlock h.srcRange
  · exact hi
  · exact inv_recordRead hi _
  · exact inv_openSrc hi bytes
  · exact inv_exec hi he
  · exact inv_raise hi (by simp)
  · exact inv_writeRegion hi a d

/-- Settles O4: it holds, each of the effects a step can have keeping every item of R41. -/
theorem everyStepKeepsTheInvariant : Obligations.EveryStepKeepsTheInvariant :=
  fun _ _ h hs => inv_step h hs

/-- Settles O3: it holds, the reset state being what clearing it leaves. -/
theorem invariantHoldsAtReset : Obligations.InvariantHoldsAtReset :=
  inv_clearBlock (s := State.reset) (Nat.le_refl 0)

end Sys2Proof.Machine
end

section
/-! The register words on the bus (10_state.md R28): each word as a number, then its fields, then the
statements about the registers and the values they have after reset. -/

namespace Sys2Proof.Machine

variable {s t : State}

/-! ### Words as numbers -/

/-- A field shifted above a word that leaves room for it adds to that word. -/
theorem toNat_shiftLeft_or {m k : Nat} (hi : BitVec m) {lo : Word} (hm : m + k ≤ 32)
    (hlo : lo.toNat < 2 ^ k) :
    ((hi.setWidth 32 <<< k) ||| lo).toNat = hi.toNat * 2 ^ k + lo.toNat := by
  have hhi : hi.toNat * 2 ^ k < 2 ^ 32 := calc
    hi.toNat * 2 ^ k < 2 ^ m * 2 ^ k := Nat.mul_lt_mul_of_pos_right hi.isLt (Nat.two_pow_pos k)
    _ = 2 ^ (m + k) := (Nat.pow_add 2 m k).symm
    _ ≤ 2 ^ 32 := Nat.pow_le_pow_right (by decide) hm
  have hset : (hi.setWidth 32).toNat = hi.toNat := BitVec.toNat_setWidth_of_le (by omega)
  rw [BitVec.toNat_or, BitVec.toNat_shiftLeft, hset, Nat.shiftLeft_eq, Nat.mod_eq_of_lt hhi,
    ← Nat.shiftLeft_eq, Nat.shiftLeft_add_eq_or_of_lt hlo]

/-- A field of a word is a quotient and a remainder of its number. -/
theorem extractLsb'_eq_iff {w : Word} {j r : Nat} {x : BitVec r} :
    w.extractLsb' j r = x ↔ w.toNat / 2 ^ j % 2 ^ r = x.toNat := by
  rw [← BitVec.toNat_inj, BitVec.extractLsb'_toNat, Nat.shiftRight_eq_div_pow]

/-- A bit of a word is one of its number's binary digits. -/
theorem getLsbD_eq_iff {w : Word} {j : Nat} {b : Bool} :
    w.getLsbD j = b ↔ w.toNat / 2 ^ j % 2 = b.toNat := by
  rw [BitVec.getLsbD, Nat.testBit_eq_decide_div_mod_eq]
  cases b <;> simp

/-- Two fields side by side in one word. -/
theorem toNat_twoFields {m n k : Nat} (hi : BitVec m) (lo : BitVec n) (hm : m + k ≤ 32) (hn : n ≤ k) :
    ((hi.setWidth 32 <<< k) ||| lo.setWidth 32).toNat = hi.toNat * 2 ^ k + lo.toNat := by
  have hset : (lo.setWidth 32).toNat = lo.toNat := BitVec.toNat_setWidth_of_le (by omega)
  have hlo : lo.toNat < 2 ^ k := Nat.lt_of_lt_of_le lo.isLt (Nat.pow_le_pow_right (by decide) hn)
  rw [toNat_shiftLeft_or hi hm (hset ▸ hlo), hset]

theorem statusWord_toNat (s : State) :
    (statusWord s).toNat = s.cause.code.toNat * 16 + (s.fault.toNat * 4 + s.dstate.code.toNat) := by
  have hd := s.dstate.code.isLt
  have hf := s.fault.toNat_lt
  have hlow := toNat_twoFields (k := 2) (BitVec.ofBool s.fault) s.dstate.code (by decide) (by decide)
  rw [BitVec.toNat_ofBool] at hlow
  rw [statusWord, BitVec.or_assoc, toNat_shiftLeft_or _ (by decide) (by omega), hlow]
  rfl

theorem resultWord_toNat (s : State) :
    (resultWord s).toNat = s.resultEnd.toNat * 2 + s.resultBit.toNat := by
  rw [resultWord, toNat_twoFields _ _ (by decide) (by decide), BitVec.toNat_ofBool, BitVec.toNat_ofBool]
  rfl

theorem rootWord_toNat (s : State) :
    (rootWord s).toNat = s.rootV.toNat * 2147483648 + s.rootH.toNat := by
  rw [rootWord, toNat_twoFields _ _ (by decide) (by decide), BitVec.toNat_ofBool]
  rfl

theorem curWord_toNat (s : State) : (curWord s).toNat = s.cur.toNat :=
  BitVec.toNat_setWidth_of_le (by decide)

theorem bwstateWord_toNat (s : State) :
    (bwstateWord s).toNat = s.bwCnt.toNat * 256 + s.bwAcc.toNat := by
  rw [bwstateWord, toNat_twoFields _ _ (by decide) (by decide)]
  rfl

theorem brstateWord_toNat (s : State) :
    (brstateWord s).toNat = s.brPos.val * 256 + s.brBuf.toNat := by
  have hp := s.brPos.isLt
  have hpos : BitVec.ofNat 32 s.brPos.val = (BitVec.ofNat 4 s.brPos.val).setWidth 32 := by
    apply BitVec.eq_of_toNat_eq
    simp only [BitVec.toNat_ofNat, BitVec.toNat_setWidth]
    omega
  rw [brstateWord, hpos, toNat_twoFields _ _ (by decide) (by decide), BitVec.toNat_ofNat]
  omega

/-! ### The fields of each word (R28) -/

/-- DSTATE [1:0], FAULT [2], CAUSE [7:4]. -/
theorem statusWord_fields (s : State) :
    (statusWord s).extractLsb' 0 2 = s.dstate.code ∧ (statusWord s).getLsbD 2 = s.fault ∧
    (statusWord s).getLsbD 3 = false ∧ (statusWord s).extractLsb' 4 4 = s.cause.code ∧
    (statusWord s).extractLsb' 8 24 = 0#24 := by
  have hd := s.dstate.code.isLt
  have hc := s.cause.code.isLt
  have hf := s.fault.toNat_lt
  have h3 : s.dstate.code.toNat ≠ 3 := by cases s.dstate <;> decide
  simp only [extractLsb'_eq_iff, getLsbD_eq_iff, statusWord_toNat, BitVec.toNat_ofNat, Bool.toNat_false]
  omega

/-- BIT [0], END [1]. -/
theorem resultWord_fields (s : State) :
    (resultWord s).getLsbD 0 = s.resultBit ∧ (resultWord s).getLsbD 1 = s.resultEnd ∧
    (resultWord s).extractLsb' 2 30 = 0#30 := by
  have hb := s.resultBit.toNat_lt
  have he := s.resultEnd.toNat_lt
  simp only [extractLsb'_eq_iff, getLsbD_eq_iff, resultWord_toNat, BitVec.toNat_ofNat]
  omega

/-- H [9:0], V [31]. -/
theorem rootWord_fields (s : State) :
    (rootWord s).extractLsb' 0 10 = s.rootH ∧ (rootWord s).extractLsb' 10 21 = 0#21 ∧
    (rootWord s).getLsbD 31 = s.rootV := by
  have hh := s.rootH.isLt
  have hv := s.rootV.toNat_lt
  simp only [extractLsb'_eq_iff, getLsbD_eq_iff, rootWord_toNat, BitVec.toNat_ofNat]
  omega

/-- H [9:0]. -/
theorem curWord_fields (s : State) :
    (curWord s).extractLsb' 0 10 = s.cur ∧ (curWord s).extractLsb' 10 22 = 0#22 := by
  have hc := s.cur.isLt
  simp only [extractLsb'_eq_iff, curWord_toNat, BitVec.toNat_ofNat]
  omega

/-- ACC [7:0], CNT [10:8]. -/
theorem bwstateWord_fields (s : State) :
    (bwstateWord s).extractLsb' 0 8 = s.bwAcc ∧ (bwstateWord s).extractLsb' 8 3 = s.bwCnt ∧
    (bwstateWord s).extractLsb' 11 21 = 0#21 := by
  have ha := s.bwAcc.isLt
  have hc := s.bwCnt.isLt
  simp only [extractLsb'_eq_iff, bwstateWord_toNat, BitVec.toNat_ofNat]
  omega

/-- BUF [7:0], POS [11:8]. -/
theorem brstateWord_fields (s : State) :
    (brstateWord s).extractLsb' 0 8 = s.brBuf ∧
    ((brstateWord s).extractLsb' 8 4).toNat = s.brPos.val ∧
    (brstateWord s).extractLsb' 12 20 = 0#20 := by
  have hb := s.brBuf.isLt
  have hp := s.brPos.isLt
  simp only [extractLsb'_eq_iff, BitVec.extractLsb'_toNat, Nat.shiftRight_eq_div_pow, brstateWord_toNat,
    BitVec.toNat_ofNat]
  omega

/-! ### The words at their addresses -/

theorem hostRead_cmd (s : State) : hostRead s 0x0000#16 = 0#32 := rfl
theorem hostRead_status (s : State) : hostRead s 0x0001#16 = statusWord s := rfl
theorem hostRead_result (s : State) : hostRead s 0x0002#16 = resultWord s := rfl
theorem hostRead_root (s : State) : hostRead s 0x0003#16 = rootWord s := rfl
theorem hostRead_cur (s : State) : hostRead s 0x0004#16 = curWord s := rfl
theorem hostRead_bwstate (s : State) : hostRead s 0x0005#16 = bwstateWord s := rfl
theorem hostRead_brstate (s : State) : hostRead s 0x0006#16 = brstateWord s := rfl

/-- Settles O12: it holds, each word being its fields side by side with room left at 0. -/
theorem registerFieldsOnTheBus : Obligations.RegisterFieldsOnTheBus := by
  intro s
  rw [hostRead_cmd, hostRead_status, hostRead_result, hostRead_root, hostRead_cur, hostRead_bwstate,
    hostRead_brstate]
  obtain ⟨hDstate, hFault, hBit3, hCause, hStatus⟩ := statusWord_fields s
  obtain ⟨hBit, hEnd, hResult⟩ := resultWord_fields s
  obtain ⟨hRootH, hRoot, hRootV⟩ := rootWord_fields s
  obtain ⟨hCurH, hCur⟩ := curWord_fields s
  obtain ⟨hAcc, hCnt, hBw⟩ := bwstateWord_fields s
  exact ⟨rfl, hDstate, hFault, hBit3, hCause, hStatus, hBit, hEnd, hResult, hRootH, hRoot, hRootV, hCurH,
    hCur, hAcc, hCnt, hBw, brstateWord_fields s⟩

/-! ### Reset and RELEASE -/

/-- Clearing the block gives every element its reset value (R40, R170, R210). -/
theorem atReset_clearBlock (s : State) : AtReset (clearBlock s) where
  writer := ⟨rfl, rfl⟩
  reader := ⟨rfl, rfl⟩
  current := rfl
  root := ⟨rfl, rfl⟩
  decoder := rfl
  noFault := ⟨rfl, rfl⟩
  result := ⟨rfl, rfl⟩
  nodes := fun _ => ⟨rfl, rfl, rfl⟩
  codes := fun _ => ⟨rfl, rfl, rfl⟩

/-- Clearing the block keeps the ports (R40). -/
theorem samePorts_clearBlock (s : State) : SamePorts s (clearBlock s) := ⟨rfl, rfl, rfl, rfl⟩

/-- Settles O1: it holds, RELEASE and reset being the one clearing of the block. -/
theorem resetAndReleaseLeaveTheResetValues : Obligations.ResetAndReleaseLeaveTheResetValues :=
  ⟨atReset_clearBlock State.reset, fun s ops =>
    ⟨⟨clearBlock s, exec_release, atReset_clearBlock s, samePorts_clearBlock s⟩,
      ⟨clearBlock { s with hostOps := ops }, rfl, atReset_clearBlock _, samePorts_clearBlock _, rfl⟩⟩⟩

/-- After reset every table entry and every unmapped address reads 0 (R40, R70). -/
theorem hostRead_reset_table {a : BusAddr} (ha : 7 ≤ a.toNat) : hostRead State.reset a = 0#32 := by
  have hnode : nodeOnBus 0#32 false = 0#32 := by decide
  have hhead : ctHeadWord CtEntry.empty = 0#32 := by decide
  have hcode : ∀ j, ctCodeWord CtEntry.empty j = 0#32 := fun j => BitVec.extractLsb'_zero
  unfold hostRead
  rcases region_cases a with ⟨h7, _⟩ | ⟨h, _, _, e⟩ | ⟨h, _, _, e⟩ | ⟨k, _, _, e⟩ |
    ⟨k, j, _, _, _, _, e⟩ | e
  · omega
  · rw [e]; exact hnode
  · rw [e]; rfl
  · rw [e]; exact hhead
  · rw [e]; exact hcode j
  · rw [e]; rfl

/-- Settles O2: it holds, the seven registers reading their reset words and every other address 0. -/
theorem resetReadingsOnTheBus : Obligations.ResetReadingsOnTheBus := by
  intro a
  by_cases ha : a.toNat < 7
  · have e : a = BitVec.ofNat 16 a.toNat := by simp
    generalize a.toNat = n at ha e
    subst e
    interval_cases n <;> decide
  · rw [hostRead_reset_table (by omega), if_neg (by rintro rfl; simp at ha),
      if_neg (by rintro rfl; simp at ha)]

/-! ### Bus writes outside CMD -/

/-- Settles O17: it holds, a write being ignored while a fault is latched and else a table write or a
latched ILLEGAL_ACCESS. -/
theorem busWritesLeaveTheRegisters : Obligations.BusWritesLeaveTheRegisters := by
  intro s t a d ha h
  unfold hostWrite at h
  by_cases hf : s.fault = true
  · rw [if_pos hf, if_neg (fun hc => ha hc.1)] at h
    obtain rfl := Host.Outcome.next.inj h
    simp [SameDecoder, SamePorts]
  · rw [if_neg hf, if_neg ha] at h
    obtain rfl := Host.Outcome.next.inj h
    rcases writeRegion_cases (region a) d s with e |
      ⟨_, ⟨_, _, e⟩ | ⟨_, _, e⟩ | ⟨_, _, _, e⟩ | ⟨_, _, _, e⟩⟩ <;> rw [e] <;>
      simp [SameDecoder, SamePorts]

end Sys2Proof.Machine
end

section
/-! Frames of the commands and of a step (10_state.md R25, R36, R41 item 10): the tree, the root and SRC,
the output streams, and DSTATE. -/

namespace Sys2Proof.Machine

variable {s t : State}

/-! ### What a command leaves in place -/

/-- The tables, the root, SRC and the host's side as they were, and nothing taken back from SNK and OUT. -/
structure KeepsTree (s t : State) : Prop where
  tables : SameTables s t
  root : t.rootH = s.rootH ∧ t.rootV = s.rootV
  source : t.src = s.src
  outputs : s.snk <+: t.snk ∧ s.out <+: t.out

theorem keepsTree_refl (s : State) : KeepsTree s s where
  tables := ⟨rfl, rfl, rfl, rfl, rfl, rfl⟩
  root := ⟨rfl, rfl⟩
  source := rfl
  outputs := ⟨List.prefix_rfl, List.prefix_rfl⟩

theorem keepsTree_raise (c : Cause) (s : State) : KeepsTree s (raise c s) := { keepsTree_refl s with }

theorem keepsTree_setResult (b e : Bool) (h : KeepsTree s t) : KeepsTree s (setResult b e t) := { h with }

theorem keepsTree_putBits (bs : List Bool) (s : State) : KeepsTree s (putBits bs s) := by
  obtain ⟨acc, cnt, bytes, e⟩ := putBits_frame bs s
  rw [e]
  exact { keepsTree_refl s with outputs := ⟨List.prefix_append _ _, List.prefix_rfl⟩ }

theorem keepsTree_flushWriter (s : State) : KeepsTree s (flushWriter s) := by
  obtain ⟨acc, cnt, bytes, e⟩ := flushWriter_frame s
  rw [e]
  exact { keepsTree_refl s with outputs := ⟨List.prefix_append _ _, List.prefix_rfl⟩ }

theorem keepsTree_readBit {b : Bool} (h : readBit s = some (b, t)) : KeepsTree s t := by
  obtain ⟨buf, pos, n, rfl⟩ := readBit_frame h
  exact { keepsTree_refl s with }

theorem keepsTree_enter (d : DState) (h : Handle) (s : State) : KeepsTree s (setDState d (setCur h s)) :=
  { keepsTree_refl s with }

theorem keepsTree_runTree (fuel : Nat) (s : State) : KeepsTree s (runTree fuel s) := by
  obtain ⟨buf, pos, n, c, d, o, f, k, e⟩ := runTree_frame fuel s
  rw [e]
  exact { keepsTree_refl s with outputs := ⟨List.prefix_rfl, List.prefix_append _ _⟩ }

theorem keepsTree_stepTree (s : State) : KeepsTree s (stepTree s) := by
  obtain ⟨buf, pos, n, c, d, o, f, k, e⟩ := stepTree_frame s
  rw [e]
  exact { keepsTree_refl s with outputs := ⟨List.prefix_rfl, List.prefix_append _ _⟩ }

/-- RELEASE clears the block, CTDRV and SETROOT write the code table and the root, and every other
command keeps the tree (R36). -/
theorem exec_keepsTree {i : Instr} (h : exec i s = .next t) :
    KeepsTree s t ∨
    (i = .release ∧ t = clearBlock s) ∨
    (i = .ctdrv ∧ ∃ tab, t = setCt tab s) ∨
    ∃ x, i = .setroot x ∧ t = setRoot x s := by
  rcases exec_next h with rfl | ⟨hi, rfl⟩ | ⟨_, c, _, rfl⟩ | ⟨_, _, bs, rfl⟩ | ⟨_, _, rfl⟩ |
    ⟨_, _, _, rfl⟩ | ⟨_, _, b, u, hr, rfl⟩ | ⟨_, hi, _, _, tab, _, rfl⟩ | ⟨_, _, x, hi, _, rfl⟩ |
    ⟨_, _, _, _, _, ⟨_, rfl⟩ | ⟨_, rfl⟩⟩ | ⟨_, _, _, rfl⟩ | ⟨_, _, _, rfl⟩
  · exact .inl (keepsTree_refl _)
  · exact .inr (.inl ⟨hi, rfl⟩)
  · exact .inl (keepsTree_raise c s)
  · exact .inl (keepsTree_putBits bs s)
  · exact .inl (keepsTree_flushWriter s)
  · exact .inl (keepsTree_setResult _ _ (keepsTree_refl s))
  · exact .inl (keepsTree_setResult _ _ (keepsTree_readBit hr))
  · exact .inr (.inr (.inl ⟨hi, tab, rfl⟩))
  · exact .inr (.inr (.inr ⟨x, hi, rfl⟩))
  · exact .inl (keepsTree_enter _ _ s)
  · exact .inl (keepsTree_enter _ _ s)
  · exact .inl (keepsTree_stepTree s)
  · exact .inl (keepsTree_runTree _ s)

/-- Settles O42: it holds, the three commands that write a table or the root being RELEASE, CTDRV and
SETROOT, each writing its own. -/
theorem commandsLeaveTheTree : Obligations.CommandsLeaveTheTree := by
  intro i s t h
  rcases exec_keepsTree h with k | ⟨rfl, rfl⟩ | ⟨rfl, tab, rfl⟩ | ⟨x, rfl, rfl⟩
  · obtain ⟨hnode, hnodeV, hnodeW, hct, hops, hreads⟩ := k.tables
    exact ⟨fun _ => ⟨hnode, hnodeV, hnodeW⟩, fun _ _ => hct, fun _ _ => k.root, k.source, hops, hreads⟩
  · simp
  · simp
  · simp

/-! ### The output streams -/

/-- No command takes anything back from SNK and OUT (R65). -/
theorem exec_outputs {i : Instr} (h : exec i s = .next t) : s.snk <+: t.snk ∧ s.out <+: t.out := by
  rcases exec_keepsTree h with k | ⟨_, rfl⟩ | ⟨_, tab, rfl⟩ | ⟨x, _, rfl⟩
  · exact k.outputs
  · simp
  · simp
  · simp

/-- A bus write outside CMD emits nothing and leaves DSTATE (R71). -/
theorem writeRegion_outputs_dstate (r : Region) (d : Word) (s : State) :
    (writeRegion r d s).snk = s.snk ∧ (writeRegion r d s).out = s.out ∧
    (writeRegion r d s).dstate = s.dstate := by
  rcases writeRegion_cases r d s with e | ⟨_, ⟨_, _, e⟩ | ⟨_, _, e⟩ | ⟨_, _, _, e⟩ | ⟨_, _, _, e⟩⟩ <;>
    rw [e] <;> simp

/-- Settles O21: it holds, every effect a step can have leaving the streams or appending to them. -/
theorem outputStreamsOnlyGrow : Obligations.OutputStreamsOnlyGrow := by
  intro s t h
  rcases step_effects h with ⟨_, rfl⟩ | ⟨_, rfl | ⟨a, rfl⟩ | ⟨bytes, rfl⟩ |
    ⟨_, ⟨i, _, he⟩ | rfl | ⟨a, d, rfl⟩⟩⟩
  case inr.inr.inr.inr.inl => exact (exec_outputs he :)
  case inr.inr.inr.inr.inr.inr =>
    obtain ⟨hsnk, hout, _⟩ := writeRegion_outputs_dstate (region a) d (afterIssue s)
    rw [hsnk, hout]
    exact ⟨List.prefix_rfl, List.prefix_rfl⟩
  all_goals exact ⟨List.prefix_rfl, List.prefix_rfl⟩

/-! ### DSTATE -/

/-- Only RELEASE, DSTART in IDLE, and DSTEP and DRUN in RUN can move DSTATE (R156). -/
theorem exec_dstate {i : Instr} (h : exec i s = .next t) :
    t.dstate = s.dstate ∨ (i = .release ∧ t.dstate = .idle) ∨ (i = .dstart ∧ s.dstate = .idle) ∨
    ((i = .dstep ∨ i = .drun) ∧ s.dstate = .run) := by
  rcases exec_next h with rfl | ⟨hi, rfl⟩ | ⟨_, c, _, rfl⟩ | ⟨_, _, bs, rfl⟩ | ⟨_, _, rfl⟩ |
    ⟨_, _, _, rfl⟩ | ⟨_, _, b, u, hr, rfl⟩ | ⟨_, _, _, _, tab, _, rfl⟩ | ⟨_, _, x, _, _, rfl⟩ |
    ⟨_, hi, hd, _⟩ | ⟨_, hi, hd, _⟩ | ⟨_, hi, hd, _⟩
  · exact .inl rfl
  · exact .inr (.inl ⟨hi, rfl⟩)
  · exact .inl rfl
  · obtain ⟨_, _, _, e⟩ := putBits_frame bs s
    exact .inl (by rw [e])
  · obtain ⟨_, _, _, e⟩ := flushWriter_frame s
    exact .inl (by rw [e])
  · exact .inl rfl
  · obtain ⟨_, _, _, rfl⟩ := readBit_frame hr
    exact .inl rfl
  · exact .inl rfl
  · exact .inl rfl
  · exact .inr (.inr (.inl ⟨hi, hd⟩))
  · exact .inr (.inr (.inr ⟨.inl hi, hd⟩))
  · exact .inr (.inr (.inr ⟨.inr hi, hd⟩))

/-- No command but RELEASE leaves DONE (R25, R156). -/
theorem exec_stays_done {i : Instr} (hd : s.dstate = .done) (hi : i ≠ .release)
    (h : exec i s = .next t) : t.dstate = .done := by
  rcases exec_dstate h with e | ⟨hr, _⟩ | ⟨_, h'⟩ | ⟨_, h'⟩
  · exact e.trans hd
  · exact absurd hr hi
  · rw [hd] at h'; cases h'
  · rw [hd] at h'; cases h'

/-- Settles O23: it holds, a step either clearing the block or having an effect that keeps DONE. -/
theorem onlyReleaseOrResetLeavesDone : Obligations.OnlyReleaseOrResetLeavesDone := by
  intro s t hd h
  have hd' : (afterIssue s).dstate = .done := hd
  rcases step_effects h with ⟨hc, rfl⟩ | ⟨hc, effects⟩
  · simp [hc]
  · refine ⟨fun hc' => (Bool.false_ne_true (hc.symm.trans hc')).elim, fun _ => ?_⟩
    rcases effects with rfl | ⟨a, rfl⟩ | ⟨bytes, rfl⟩ | ⟨_, ⟨i, hi, he⟩ | rfl | ⟨a, d, rfl⟩⟩
    · exact hd'
    · exact hd'
    · exact hd'
    · exact exec_stays_done hd' hi he
    · exact hd'
    · exact (writeRegion_outputs_dstate _ d _).2.2.trans hd'

end Sys2Proof.Machine
end

section
/-! Two facts about the tree a command walks: the weights are no part of it (10_state.md R32), and a
handle above 512 in ROOT or CUR names none of its nodes (10_state.md R35, 92_eei_decisions.md D15). -/

namespace Sys2Proof.Machine

variable {s t : State} {w : Memory Word}

/-! ### Replacing the weights -/

/-- The state with other weights. -/
def withWeights (w : Memory Word) (s : State) : State := { s with nodeW := w }

/-- An outcome with its next state changed. -/
def mapNext (f : State → State) : Out → Out
  | .next s => .next (f s)
  | .fault r => .fault r
  | .refused r => .refused r

theorem whenAdmitted_withWeights {adm : DState → Bool} {body : State → Out}
    (h : body (withWeights w s) = mapNext (withWeights w) (body s)) :
    whenAdmitted adm (withWeights w s) body = mapNext (withWeights w) (whenAdmitted adm s body) := by
  cases hf : s.fault with
  | true => rw [whenAdmitted_faulted hf, whenAdmitted_faulted (s := withWeights w s) hf]; rfl
  | false =>
    cases ha : adm s.dstate with
    | true =>
      rw [whenAdmitted_admitted hf ha, whenAdmitted_admitted (s := withWeights w s) hf ha, h]
    | false =>
      rw [whenAdmitted_refused hf ha, whenAdmitted_refused (s := withWeights w s) hf ha]; rfl

theorem putBit_withWeights (b : Bool) (s : State) :
    putBit b (withWeights w s) = withWeights w (putBit b s) := by
  unfold putBit
  rw [apply_ite (withWeights w)]
  rfl

theorem putBits_withWeights (bs : List Bool) (s : State) :
    putBits bs (withWeights w s) = withWeights w (putBits bs s) := by
  induction bs generalizing s with
  | nil => rfl
  | cons b bs ih =>
    rw [putBits, putBit_withWeights, ih, putBits]

theorem flushWriter_withWeights (s : State) :
    flushWriter (withWeights w s) = withWeights w (flushWriter s) := by
  unfold flushWriter
  rw [apply_ite (withWeights w)]
  rfl

theorem srcNext_withWeights (s : State) :
    srcNext (withWeights w s) = (srcNext s).map (Prod.map id (withWeights w)) := by
  unfold srcNext
  rw [show (withWeights w s).src[(withWeights w s).srcPos]? = s.src[s.srcPos]? from rfl]
  split <;> rfl

theorem readBit_withWeights (s : State) :
    readBit (withWeights w s) = (readBit s).map (Prod.map id (withWeights w)) := by
  unfold readBit
  rw [srcNext_withWeights, show (withWeights w s).brPos = s.brPos from rfl]
  split
  · cases srcNext s <;> rfl
  · rfl

/-- Derive reads NODE and NODE_V only (R134). -/
theorem derive_congr {u : State} (hnode : u.node = s.node) (hv : u.nodeV = s.nodeV) (levels : Nat)
    (h : Handle) (path : List Bool) (tab : Memory CtEntry) :
    derive u levels h path tab = derive s levels h path tab := by
  have hword : ∀ g, nodeWord u g = nodeWord s g := fun g => by simp only [nodeWord, hnode]
  induction levels generalizing h path tab with
  | zero => simp only [derive, written_congr hv, hword]
  | succ n ih => simp only [derive, written_congr hv, hword, ih]

theorem startAt_withWeights (sym : Symbol) (s : State) :
    startAt sym (withWeights w s) = withWeights w (startAt sym s) := by
  unfold startAt
  split
  · rfl
  · split <;> rfl

theorem arrive_withWeights (g : Handle) (s : State) :
    arrive g (withWeights w s) = withWeights w (arrive g s) := by
  have hw : written (withWeights w s) g = written s g := rfl
  have hn : nodeWord (withWeights w s) g = nodeWord s g := rfl
  unfold arrive
  rw [hw, hn]
  simp only [apply_ite (withWeights w)]
  rfl

theorem stepTree_withWeights (s : State) :
    stepTree (withWeights w s) = withWeights w (stepTree s) := by
  unfold stepTree
  rw [readBit_withWeights]
  cases readBit s with
  | none => rfl
  | some p =>
    obtain ⟨b, u⟩ := p
    have hc : inRange (withWeights w u).cur = inRange u.cur := rfl
    show (if inRange (withWeights w u).cur then _ else _) = withWeights w (if inRange u.cur then _ else _)
    rw [hc, apply_ite (withWeights w), ← arrive_withWeights]
    rfl

theorem runTree_withWeights (fuel : Nat) (s : State) :
    runTree fuel (withWeights w s) = withWeights w (runTree fuel s) := by
  induction fuel generalizing s with
  | zero => rfl
  | succ n ih =>
    by_cases h : s.dstate = .run ∧ s.fault = false
    · rw [runTree_step h.1 h.2, ← ih, ← stepTree_withWeights]
      exact runTree_step h.1 h.2
    · rw [runTree_stop h]
      exact runTree_stop h

/-- No command but RELEASE sees the weights (R32). -/
theorem exec_withWeights {i : Instr} (hi : i ≠ .release) (s : State) :
    exec i (withWeights w s) = mapNext (withWeights w) (exec i s) := by
  cases i with
  | release => exact absurd rfl hi
  | nop =>
    simp only [exec, execNop]
    exact whenAdmitted_withWeights rfl
  | wbit b =>
    simp only [exec, execWbit]
    apply whenAdmitted_withWeights
    rw [putBit_withWeights, mapNext]
  | wflush =>
    simp only [exec, execWflush]
    apply whenAdmitted_withWeights
    rw [flushWriter_withWeights, mapNext]
  | rbit =>
    simp only [exec, execRbit]
    apply whenAdmitted_withWeights
    rw [readBit_withWeights]
    cases readBit s <;> rfl
  | enc sym =>
    have he : encEntry (withWeights w s) sym = encEntry s sym := rfl
    simp only [exec, execEnc]
    apply whenAdmitted_withWeights
    rw [he]
    cases encEntry s sym with
    | none => rfl
    | some e => simp only [putBits_withWeights, mapNext]
  | ctdrv =>
    have hv : (withWeights w s).rootV = s.rootV := rfl
    have hh : (withWeights w s).rootH = s.rootH := rfl
    simp only [exec, execCtdrv]
    apply whenAdmitted_withWeights
    rw [derive_congr (s := s) (u := withWeights w s) rfl rfl, hv, hh, apply_ite (mapNext (withWeights w))]
    cases derive s Config.maxLen s.rootH [] [] <;> rfl
  | setroot h =>
    simp only [exec, execSetroot]
    split <;> exact whenAdmitted_withWeights rfl
  | dstart =>
    simp only [exec, execDstart]
    apply whenAdmitted_withWeights
    simp only [startAt_withWeights, apply_ite (mapNext (withWeights w))]
    rfl
  | dstep =>
    simp only [exec, execDstep]
    apply whenAdmitted_withWeights
    rw [stepTree_withWeights, apply_ite (mapNext (withWeights w))]
    rfl
  | drun =>
    have hb : bitsLeft (withWeights w s) = bitsLeft s := rfl
    simp only [exec, execDrun]
    apply whenAdmitted_withWeights
    rw [hb, runTree_withWeights, mapNext]

/-- Settles O41: it holds, every command but RELEASE commuting with a replacement of the weights, and
RELEASE clearing whatever weights it finds. -/
theorem weightsAreNeverRead : Obligations.WeightsAreNeverRead := by
  intro i s t w h
  refine ⟨fun hi => ?_, ?_⟩
  · exact (exec_withWeights hi s).trans (congrArg (mapNext (withWeights w)) h)
  · rintro rfl
    exact h

/-! ### A handle above 512 in ROOT or CUR -/

/-- A handle above 512 is not followed (R35). -/
theorem written_outOfRange {h : Handle} (hh : 512 < h.toNat) : written s h = false := by
  rw [Bool.eq_false_iff]
  intro hw
  have := ((written_iff s h).mp hw).1
  omega

/-- `Step` from a `CUR` above 512: the bit is consumed and the fault is BAD_TREE (R35, R186). -/
theorem stepTree_outOfRange {b : Bool} {bs : List Bool} (h : remainingBits s = b :: bs)
    (hc : 512 < s.cur.toNat) :
    ∃ buf pos n, remainingBits { s with brBuf := buf, brPos := pos, srcPos := n } = bs ∧
      stepTree s = raise .badTree { s with brBuf := buf, brPos := pos, srcPos := n } := by
  rcases stepTree_cases s with ⟨hr, _⟩ | ⟨_, _, _, hc', _⟩ | ⟨b', u, hr, _, e⟩
  · rw [remainingBits_none.mp hr] at h
    cases h
  · omega
  · have hbits := remainingBits_some hr
    obtain ⟨buf, pos, n, rfl⟩ := readBit_frame hr
    exact ⟨buf, pos, n, (List.cons.inj (hbits.symm.trans h)).2, e⟩

/-- DSTEP and DRUN in RUN both end with the first `Step` when it raises (R153, R155). -/
theorem exec_step_raises {i : Instr} {u : State} {c : Cause} (hi : i = .dstep ∨ i = .drun)
    (hf : s.fault = false) (hd : s.dstate = .run) (e : stepTree s = raise c u) :
    exec i s = .next (raise c u) := by
  rcases hi with rfl | rfl
  · rw [exec_dstep_run hf hd, e]
  · rw [exec_drun_active hf (by simp [hd]), runTree_step hd hf, e, runTree_stop (by simp)]

/-- Settles O51: it holds, the range check coming before NODE is read at either handle and the
invariant putting both handles in range. -/
theorem handlesAbove512RaiseBadTree : Obligations.HandlesAbove512RaiseBadTree := by
  intro s hf
  refine ⟨fun hd hv hroot => ⟨?_, fun hinv => ?_⟩, fun hd hc => ⟨fun hinv => ?_, ?_, ?_⟩⟩
  · rw [exec_dstart hf hd, if_pos hv, written_outOfRange hroot]
    rfl
  · exact absurd hinv.rootRange (Nat.not_le.mpr hroot)
  · have hw := (hinv.running hd).2.1
    rw [written_outOfRange hc] at hw
    cases hw
  · intro hend i hi
    exact exec_step_raises hi hf hd (stepTree_noBit hend)
  · intro b rest hbits
    obtain ⟨buf, pos, n, hrest, e⟩ := stepTree_outOfRange hbits hc
    exact ⟨buf, pos, n, hrest, fun i hi => exec_step_raises hi hf hd e⟩

end Sys2Proof.Machine
end

section
/-! The tables on the host bus (20_memory.md R62, R70 to R72): what a table address reads as, what an
admitted write to one stores, which writes raise ILLEGAL_ACCESS, and that the tables and the root stand
still outside IDLE. -/

namespace Sys2Proof.Machine

variable {s t : State} {a : BusAddr} {d : Word}

/-! ### The fields of a node word on the bus and as stored -/

/-- Two words with the same bits at a field hold the same value there. -/
theorem extractLsb'_congr {w x : Word} {j n : Nat}
    (h : ∀ i < n, w.getLsbD (j + i) = x.getLsbD (j + i)) : w.extractLsb' j n = x.extractLsb' j n := by
  apply BitVec.eq_of_getLsbD_eq
  intro i hi
  simp [hi, h i hi]

/-- On the bus bit 11 of a node word shows `NODE_V`, and every other bit is the stored one (R70). -/
theorem getLsbD_nodeOnBus {i : Nat} (n : Word) (v : Bool) (hi : i < 32) :
    (nodeOnBus n v).getLsbD i = if i = 11 then v else n.getLsbD i := by
  have hmask : ∀ i < 32, (0xFFFFF7FF#32).getLsbD i = decide (i ≠ 11) := by decide
  have hbit : ∀ i < 32, (0x00000800#32).getLsbD i = decide (i = 11) := by decide
  rw [nodeOnBus, BitVec.getLsbD_or, BitVec.getLsbD_and, hmask i hi]
  by_cases h : i = 11 <;> cases v <;> simp [h, hbit i hi]

/-- A write stores every bit of its word but [11:9], which it forces to 0 (R71). -/
theorem getLsbD_nodeStored {i : Nat} (d : Word) (hi : i < 32) :
    (nodeStored d).getLsbD i = (d.getLsbD i && decide (i < 9 ∨ 12 ≤ i)) := by
  have hmask : ∀ i < 32, (0xFFFFF1FF#32).getLsbD i = decide (i < 9 ∨ 12 ≤ i) := by decide
  rw [nodeStored, BitVec.getLsbD_and, hmask i hi]

/-- A field away from bit 11 reads as stored (R70). -/
theorem nodeOnBus_field {j k : Nat} (n : Word) (v : Bool) (hk : j + k ≤ 32)
    (h : j + k ≤ 11 ∨ 12 ≤ j) : (nodeOnBus n v).extractLsb' j k = n.extractLsb' j k :=
  extractLsb'_congr fun i hi => by rw [getLsbD_nodeOnBus n v (by omega), if_neg (by omega)]

/-- A field away from bits [11:9] is stored as written (R71). -/
theorem nodeStored_field {j k : Nat} (d : Word) (hk : j + k ≤ 32) (h : j + k ≤ 9 ∨ 12 ≤ j) :
    (nodeStored d).extractLsb' j k = d.extractLsb' j k :=
  extractLsb'_congr fun i hi => by
    rw [getLsbD_nodeStored d (by omega), decide_eq_true (by omega), Bool.and_true]

/-! ### The words of a code table entry -/

/-- Word 0 of an entry is `VALID` above `LEN` (R70). -/
theorem ctHeadWord_toNat (e : CtEntry) :
    (ctHeadWord e).toNat = e.valid.toNat * 2147483648 + e.len.val := by
  have hl := e.len.isLt
  have hvalid : (if e.valid then 0x80000000#32 else 0#32) = (BitVec.ofBool e.valid).setWidth 32 <<< 31 := by
    cases e.valid <;> rfl
  have hlen : (BitVec.ofNat 32 e.len.val).toNat = e.len.val := by
    rw [BitVec.toNat_ofNat]
    omega
  rw [ctHeadWord, hvalid, toNat_shiftLeft_or _ (by decide) (by omega), hlen, BitVec.toNat_ofBool]
  rfl

/-- LEN [8:0], VALID [31]. -/
theorem ctHeadWord_fields (e : CtEntry) :
    ((ctHeadWord e).extractLsb' 0 9).toNat = e.len.val ∧ (ctHeadWord e).extractLsb' 9 22 = 0#22 ∧
    (ctHeadWord e).getLsbD 31 = e.valid := by
  have hl := e.len.isLt
  have hv := e.valid.toNat_lt
  simp only [extractLsb'_eq_iff, getLsbD_eq_iff, BitVec.extractLsb'_toNat, Nat.shiftRight_eq_div_pow,
    ctHeadWord_toNat, BitVec.toNat_ofNat]
  omega

/-- Word `j` of an entry is the code's bits from `32 * (j - 1)` on (R70). -/
theorem getLsbD_ctCodeWord {i : Nat} (e : CtEntry) (j : Nat) (hi : i < 32) :
    (ctCodeWord e j).getLsbD i = e.code.getLsbD (32 * (j - 1) + i) := by
  rw [ctCodeWord, BitVec.getLsbD_extractLsb', decide_eq_true hi, Bool.true_and]

/-- A write of word 0 with a length that fits sets LEN to it (R71). -/
theorem ctSetHead_len (e : CtEntry) (hl : ctHeadLen d ≤ 256) : (ctSetHead e d).len.val = ctHeadLen d :=
  Nat.mod_eq_of_lt (Nat.lt_succ_of_le hl)

/-- A write of word `w` puts its 32 bits at `32 * (w - 1)` and keeps the others (R71). -/
theorem getLsbD_ctSetCodeWord {i : Nat} (e : CtEntry) (w : Nat) (d : Word) (hi : i < 256) :
    (ctSetCodeWord e w d).code.getLsbD i =
      if 32 * (w - 1) ≤ i ∧ i < 32 * (w - 1) + 32 then d.getLsbD (i - 32 * (w - 1))
      else e.code.getLsbD i := by
  have hmask (j : Nat) : (0xFFFFFFFF#256).getLsbD j = decide (j < 32) :=
    Nat.testBit_two_pow_sub_one 32 j
  simp only [ctSetCodeWord, BitVec.getLsbD_or, BitVec.getLsbD_and, BitVec.getLsbD_not,
    BitVec.getLsbD_shiftLeft, hmask, BitVec.getLsbD_setWidth]
  generalize 32 * (w - 1) = off
  by_cases hlow : i < off
  · rw [if_neg (by omega)]
    simp [hi, hlow]
  · by_cases hhigh : i - off < 32
    · rw [if_pos (by omega)]
      simp [hi, hlow, hhigh, show i - off < 256 by omega]
    · rw [if_neg (by omega)]
      simp [hi, hlow, hhigh, Nat.not_lt.mp hhigh]

/-! ### Reads at their addresses -/

theorem hostRead_node {h : Handle} (hh : h.toNat ≤ 512) (e : a.toNat = 0x0800 + h.toNat) :
    hostRead s a = nodeOnBus (nodeWord s h) (nodeValid s h) := by
  rw [hostRead, region_node hh e]
  rfl

theorem hostRead_nodeW {h : Nat} (hh : h ≤ 512) (e : a.toNat = 0x0C00 + h) :
    hostRead s a = s.nodeW.read 0#32 h := by
  rw [hostRead, region_nodeW hh e]
  rfl

theorem hostRead_ctHead {k : Nat} (hk : k ≤ 256) (e : a.toNat = 0x1000 + 16 * k) :
    hostRead s a = ctHeadWord (ctEntry s k) := by
  rw [hostRead, region_ctHead hk e]
  rfl

theorem hostRead_ctCode {k j : Nat} (hk : k ≤ 256) (h1 : 1 ≤ j) (h8 : j ≤ 8)
    (e : a.toNat = 0x1000 + 16 * k + j) : hostRead s a = ctCodeWord (ctEntry s k) j := by
  rw [hostRead, region_ctCode hk h1 h8 e]
  rfl

theorem hostRead_unmapped (h : region a = .unmapped) : hostRead s a = 0#32 := by
  rw [hostRead, h]
  rfl

/-- Settles O13: it holds, each address reading the word of its own entry and that word's fields being
those of the entry. -/
theorem tableWordsOnTheBus : Obligations.TableWordsOnTheBus := by
  intro s a
  refine ⟨fun h hh e => ?_, fun h hh e => hostRead_nodeW hh e, fun k hk e => ?_,
    fun k j i hk h1 h8 hi e => ?_, fun hu => hostRead_unmapped (region_unmapped hu)⟩
  · rw [hostRead_node hh e]
    exact ⟨nodeOnBus_field _ _ (by decide) (by decide), nodeOnBus_field _ _ (by decide) (by decide),
      nodeOnBus_field _ _ (by decide) (by decide), getLsbD_nodeOnBus _ _ (by decide),
      nodeOnBus_field _ _ (by decide) (by decide)⟩
  · rw [hostRead_ctHead hk e]
    exact ctHeadWord_fields _
  · rw [hostRead_ctCode hk h1 h8 e]
    exact getLsbD_ctCodeWord _ j hi

/-- What a read answers does not depend on the operations still waiting (R70). -/
theorem hostRead_withHostOps (s : State) (a : BusAddr) (ops : List HostOp) :
    hostRead { s with hostOps := ops } a = hostRead s a := by
  unfold hostRead
  cases region a <;> rfl

/-- A step performs the next operation on the list (R5). -/
theorem step_cons {op : HostOp} {ops : List HostOp} (h : s.hostOps = op :: ops) :
    step s = hostOp op { s with hostOps := ops } := by
  simp only [step, serveHost, h]

/-- Settles O14: it holds, a read only appending its word to the host's record. -/
theorem hostReadChangesNothing : Obligations.HostReadChangesNothing := by
  intro s a ops h
  rw [step_cons h, hostOp, hostRead_withHostOps]

/-! ### Writes at their addresses -/

/-- With no fault latched a write outside CMD is a write to its region (R71). -/
theorem hostWrite_outsideCmd (hf : s.fault = false) (ha : a.toNat ≠ 0) :
    hostWrite a d s = .next (writeRegion (region a) d s) := by
  have ha' : a ≠ 0x0000#16 := fun h => ha (h ▸ rfl)
  unfold hostWrite
  rw [if_neg (by simp [hf]), if_neg ha']

/-- A table write in IDLE has its effect (R71). -/
theorem whenIdle_idle {body : State → State} (hd : s.dstate = .idle) : whenIdle s body = body s :=
  if_pos hd

theorem hostWrite_node {h : Nat} (hf : s.fault = false) (hd : s.dstate = .idle) (hh : h ≤ 512)
    (e : a.toNat = 0x0800 + h) : hostWrite a d s = .next (writeNode h d s) := by
  rw [hostWrite_outsideCmd hf (by omega), region_node hh e, writeRegion, whenIdle_idle hd]

theorem hostWrite_nodeW {h : Nat} (hf : s.fault = false) (hd : s.dstate = .idle) (hh : h ≤ 512)
    (e : a.toNat = 0x0C00 + h) : hostWrite a d s = .next (writeNodeW h d s) := by
  rw [hostWrite_outsideCmd hf (by omega), region_nodeW hh e, writeRegion, whenIdle_idle hd]

theorem hostWrite_ctHead {k : Nat} (hf : s.fault = false) (hd : s.dstate = .idle) (hk : k ≤ 256)
    (e : a.toNat = 0x1000 + 16 * k) (hl : ctHeadLen d ≤ 256) :
    hostWrite a d s = .next (writeCt k (ctSetHead (ctEntry s k) d) s) := by
  rw [hostWrite_outsideCmd hf (by omega), region_ctHead hk e, writeRegion, whenIdle_idle hd, if_pos hl]

theorem hostWrite_ctCode {k w : Nat} (hf : s.fault = false) (hd : s.dstate = .idle) (hk : k ≤ 256)
    (h1 : 1 ≤ w) (h8 : w ≤ 8) (e : a.toNat = 0x1000 + 16 * k + w) :
    hostWrite a d s = .next (writeCt k (ctSetCodeWord (ctEntry s k) w d) s) := by
  rw [hostWrite_outsideCmd hf (by omega), region_ctCode hk h1 h8 e, writeRegion, whenIdle_idle hd]

/-! ### The tables seen through the writes to them -/

theorem nodeWord_writeNode (h : Handle) (d : Word) (s : State) :
    nodeWord (writeNode h.toNat d s) h = nodeStored d := by
  rw [nodeWord, writeNode_node, Memory.read_write, if_pos rfl]

theorem nodeValid_writeNode (h : Handle) (d : Word) (s : State) :
    nodeValid (writeNode h.toNat d s) h = true := by
  rw [nodeValid, writeNode_nodeV, Memory.read_write, if_pos rfl]

theorem ctEntry_writeCt (k j : Nat) (e : CtEntry) (s : State) :
    ctEntry (writeCt k e s) j = if j = k then e else ctEntry s j := by
  rw [ctEntry, writeCt_ct, Memory.read_write, ctEntry]

theorem ctEntry_writeCt_same (k : Nat) (e : CtEntry) (s : State) : ctEntry (writeCt k e s) k = e := by
  rw [ctEntry_writeCt, if_pos rfl]

theorem ctEntry_writeCt_other (k : Nat) (e : CtEntry) (s : State) :
    ∀ j, j ≠ k → ctEntry (writeCt k e s) j = ctEntry s j := fun j hj => by
  rw [ctEntry_writeCt, if_neg hj]

/-- Settles O15: it holds, each address writing the one entry it names. -/
theorem tableWritesStoreTheirWord : Obligations.TableWritesStoreTheirWord := by
  intro s a d hf hd
  refine ⟨fun h hh e => ⟨_, hostWrite_node hf hd hh e, ?_⟩,
    fun h hh e => ⟨_, hostWrite_nodeW hf hd hh e, by simp, fun j hj => by simp [hj], rfl⟩,
    fun k hk e hl => ⟨_, hostWrite_ctHead hf hd hk e hl, ?_⟩,
    fun k w hk h1 h8 e => ⟨_, hostWrite_ctCode hf hd hk h1 h8 e, ?_⟩⟩
  · rw [nodeWord_writeNode, nodeValid_writeNode]
    exact ⟨nodeStored_field d (by decide) (by decide), nodeStored_field d (by decide) (by decide),
      nodeStored_field d (by decide) (by decide), nodeStored_reserved d, rfl,
      fun j hj => by simp [hj], rfl⟩
  · rw [ctEntry_writeCt_same]
    exact ⟨ctSetHead_len _ hl, rfl, rfl, ctEntry_writeCt_other k _ s, rfl⟩
  · rw [ctEntry_writeCt_same]
    refine ⟨rfl, rfl, fun i hi => ?_, ctEntry_writeCt_other k _ s, rfl⟩
    rw [getLsbD_ctSetCodeWord _ w d hi, show 32 * (w - 1) + 32 = 32 * w by omega]

/-! ### Writes that raise ILLEGAL_ACCESS -/

/-- An unmapped address cannot be written (R71). -/
theorem writeRegion_unmapped (h : region a = .unmapped) :
    writeRegion (region a) d s = raise .illegalAccess s := by
  rw [h]
  rfl

/-- The addresses below the tables hold read-only registers or nothing: outside CMD no write to them is
admitted (R71); CMD never reaches `writeRegion`. -/
theorem writeRegion_register (h7 : a.toNat < 0x0800) :
    writeRegion (region a) d s = raise .illegalAccess s := by
  by_cases hn : a.toNat < 7
  · rw [region_register h7]
    rcases regRegion_cases _ hn with e | e | e | e | e | e | e <;> rw [e] <;> rfl
  · exact writeRegion_unmapped (region_unmapped (.inl ⟨by omega, by omega⟩))

/-- Outside IDLE no write outside CMD is admitted (R72). -/
theorem writeRegion_notIdle (hd : s.dstate ≠ .idle) (r : Region) (d : Word) :
    writeRegion r d s = raise .illegalAccess s :=
  (writeRegion_cases r d s).resolve_right fun h => hd h.1

/-- A LEN above 256 cannot be stored (R71). -/
theorem writeRegion_ctHead_tooLong (k : Nat) (hl : 256 < ctHeadLen d) :
    writeRegion (.ctHead k) d s = raise .illegalAccess s := by
  by_cases hd : s.dstate = .idle
  · rw [writeRegion, whenIdle_idle hd, if_neg (Nat.not_le.mpr hl)]
  · exact writeRegion_notIdle hd _ d

/-- Settles O16: it holds, each of these addresses lying outside CMD and its region refusing the write. -/
theorem illegalAccessesRaise : Obligations.IllegalAccessesRaise := by
  intro s a d hf hcause
  rw [hostWrite_outsideCmd hf (by omega)]
  refine congrArg Host.Outcome.next ?_
  rcases hcause with h | h | h | h | h | ⟨_, hd⟩ | ⟨hlo, hhi, hmod, hlen⟩
  · exact writeRegion_register (by omega)
  · exact writeRegion_unmapped (region_unmapped (.inr (.inl h)))
  · exact writeRegion_unmapped (region_unmapped (.inr (.inr (.inl h))))
  · exact writeRegion_unmapped (region_unmapped (.inr (.inr (.inr (.inl h)))))
  · exact writeRegion_unmapped (region_unmapped (.inr (.inr (.inr (.inr h)))))
  · exact writeRegion_notIdle hd _ d
  · rw [region_ctHead (k := (a.toNat - 0x1000) / 16) (by omega) (by omega)]
    exact writeRegion_ctHead_tooLong _ hlen

/-! ### The tables and the root outside IDLE -/

/-- SETROOT raises outside IDLE, whatever its operand (R92, R93). -/
theorem exec_setroot_raises {x : Handle} (hf : s.fault = false) (hd : s.dstate ≠ .idle) :
    exec (.setroot x) s = .next (raise .illegalCmd s) := by
  by_cases hx : x.toNat ≤ 512
  · exact exec_setroot_notIdle hx hf hd
  · exact exec_setroot_outOfRange hx hf

/-- Outside IDLE the commands that write the code table or the root are refused, so only RELEASE
changes a table or the root (R72, R92). -/
theorem exec_keepsTree_notIdle {i : Instr} (hf : s.fault = false) (hd : s.dstate ≠ .idle)
    (hi : i ≠ .release) (h : exec i s = .next t) : KeepsTree s t := by
  rcases exec_keepsTree h with k | ⟨hr, _⟩ | ⟨rfl, _⟩ | ⟨x, rfl, _⟩
  · exact k
  · exact absurd hr hi
  · obtain rfl := Host.Outcome.next.inj ((exec_notIdle hf hd (.inl rfl)).symm.trans h)
    exact keepsTree_raise _ s
  · obtain rfl := Host.Outcome.next.inj ((exec_setroot_raises hf hd).symm.trans h)
    exact keepsTree_raise _ s

/-- Settles O22: it holds, a bus write being refused outside IDLE and every command but RELEASE keeping
the tables and the root. -/
theorem tablesAreFrozenWhileDecoding : Obligations.TablesAreFrozenWhileDecoding := by
  intro s t hd hc h
  have hd' : (afterIssue s).dstate ≠ .idle := hd
  rcases step_effects h with ⟨hc', _⟩ | ⟨_, rfl | ⟨a, rfl⟩ | ⟨bytes, rfl⟩ |
    ⟨hf, ⟨i, hi, he⟩ | rfl | ⟨a, d, rfl⟩⟩⟩
  case inl => exact (Bool.false_ne_true (hc.symm.trans hc')).elim
  case inr.inr.inr.inr.inl =>
    have k := exec_keepsTree_notIdle (s := afterIssue s) hf hd' hi he
    obtain ⟨hnode, hnodeV, hnodeW, hct, _, _⟩ := k.tables
    exact ⟨hnode, hnodeV, hnodeW, hct, k.root⟩
  case inr.inr.inr.inr.inr.inr =>
    rw [writeRegion_notIdle hd']
    exact ⟨rfl, rfl, rfl, rfl, rfl, rfl⟩
  all_goals exact ⟨rfl, rfl, rfl, rfl, rfl, rfl⟩

end Sys2Proof.Machine
end

section
/-! Encoding and decoding (30_encoding.md R90 to R94): what each row of the opcode map accepts and what
the fields of an encoding are; so decoding and encoding are inverse to each other, and the rows by match
and mask, the reserved words and the execution of a word written to CMD follow. -/

namespace Sys2Proof.Machine

open Laws.CommandWord (opcode Statement)

variable {arg : BitVec 12} {i : Instr} {cw : Word} {s : State}

/-! ### A field beside the bits above it -/

/-- A value extended by zeros to `n + k` bits is the vector with `k` zero bits above it. -/
theorem setWidth_eq_iff {n k : Nat} {x : BitVec n} {v : BitVec (n + k)} :
    x.setWidth (n + k) = v ↔ v.extractLsb' n k = 0 ∧ v.extractLsb' 0 n = x := by
  constructor
  · rintro rfl
    constructor <;> apply BitVec.eq_of_getLsbD_eq <;> intro i hi
    · simp
    · simp [hi, Nat.lt_add_right k hi]
  · rintro ⟨hhigh, rfl⟩
    apply BitVec.eq_of_getLsbD_eq
    intro i hi
    by_cases hin : i < n
    · simp [hin, hi]
    · have hbit := congrArg (fun u => u.getLsbD (i - n)) hhigh
      rw [BitVec.getLsbD_extractLsb', Nat.add_sub_cancel' (Nat.le_of_not_lt hin)] at hbit
      simpa [hin, show i - n < k by omega] using hbit

/-- Putting a value below a row's match gives exactly the words that are the match under the mask of the
bits above the value and that have the value in the bits below (R92). -/
theorem or_setWidth_eq_iff {n : Nat} {x : BitVec n} {base cw : Word} (hn : n ≤ 32)
    (hbase : base &&& (BitVec.allOnes 32 <<< n) = base) :
    base ||| x.setWidth 32 = cw ↔
      cw &&& (BitVec.allOnes 32 <<< n) = base ∧ cw.extractLsb' 0 n = x := by
  constructor
  · rintro rfl
    have hmask : x.setWidth 32 &&& (BitVec.allOnes 32 <<< n) = 0#32 := by
      apply BitVec.eq_of_getLsbD_eq
      intro i hi
      by_cases hin : i < n
      · simp [hin]
      · simp [BitVec.getLsbD_of_ge x i (Nat.le_of_not_lt hin)]
    have hlow : base.extractLsb' 0 n = 0#n := by
      apply BitVec.eq_of_getLsbD_eq
      intro i hi
      rw [← hbase]
      simp [hi]
    constructor
    · rw [BitVec.and_or_distrib_right, hbase, hmask, BitVec.or_zero]
    · rw [BitVec.extractLsb'_or, hlow, BitVec.extractLsb'_setWidth_of_le (by omega)]
      simp
  · rintro ⟨rfl, rfl⟩
    apply BitVec.eq_of_getLsbD_eq
    intro i hi
    by_cases hin : i < n <;> simp [hin, hi, -BitVec.reduceAllOnes]

/-- A field of one bit is that bit. -/
theorem extractLsb'_one {w j : Nat} (v : BitVec w) : v.extractLsb' j 1 = BitVec.ofBool (v.getLsbD j) := by
  apply BitVec.eq_of_getLsbD_eq
  intro i hi
  obtain rfl : i = 0 := by omega
  simp

/-! ### The rows of the opcode map -/

/-- The argument field of a command's encoding (R92, R93). -/
def argument : Instr → BitVec 12
  | .nop => 0
  | .release => 0
  | .wbit b => (BitVec.ofBool b).setWidth 12
  | .wflush => 0
  | .rbit => 0
  | .enc sym => sym.setWidth 12
  | .ctdrv => 0
  | .setroot h => h.setWidth 12
  | .dstart => 0
  | .dstep => 0
  | .drun => 0

/-- The row of WBIT accepts an argument whose bits above the operand are 0, as the rows of ENC and SETROOT
do (R93). -/
theorem decodeWbit_eq_ok :
    decodeWbit arg = .ok i ↔ arg.extractLsb' 1 11 = 0 ∧ .wbit (arg.getLsbD 0) = i := by
  unfold decodeWbit
  split <;> simp_all

theorem decodeEnc_eq_ok :
    decodeEnc arg = .ok i ↔ arg.extractLsb' 9 3 = 0 ∧ .enc (arg.extractLsb' 0 9) = i := by
  unfold decodeEnc
  split <;> simp_all

theorem decodeSetroot_eq_ok :
    decodeSetroot arg = .ok i ↔ arg.extractLsb' 10 2 = 0 ∧
      (arg.extractLsb' 0 10).toNat ≤ 512 ∧ .setroot (arg.extractLsb' 0 10) = i := by
  unfold decodeSetroot
  split
  · split <;> simp_all
  · simp_all

/-- A row accepts only its own opcode, its command's argument and an operand in range (R90 steps 2 and 3). -/
theorem decodeRow_ok {op : Nat} (h : decodeRow op arg = .ok i) :
    op = opcode i ∧ arg = argument i ∧ i.wf = true := by
  unfold decodeRow at h
  split at h
  case h_3 =>
    obtain ⟨hhigh, rfl⟩ := decodeWbit_eq_ok.mp h
    exact ⟨rfl, (setWidth_eq_iff.mpr ⟨hhigh, extractLsb'_one arg⟩).symm, rfl⟩
  case h_6 =>
    obtain ⟨hhigh, rfl⟩ := decodeEnc_eq_ok.mp h
    exact ⟨rfl, (setWidth_eq_iff.mpr ⟨hhigh, rfl⟩).symm, rfl⟩
  case h_8 =>
    obtain ⟨hhigh, hle, rfl⟩ := decodeSetroot_eq_ok.mp h
    exact ⟨rfl, (setWidth_eq_iff.mpr ⟨hhigh, rfl⟩).symm, decide_eq_true hle⟩
  case h_12 => cases h
  all_goals
    obtain ⟨rfl, rfl⟩ := decodePlain_eq_ok.mp h
    exact ⟨rfl, rfl, rfl⟩

/-- The row of a command's opcode takes its argument back to the command. -/
theorem decodeRow_opcode (hwf : i.wf = true) : decodeRow (opcode i) (argument i) = .ok i := by
  cases i with
  | wbit b => cases b <;> rfl
  | enc sym =>
    obtain ⟨hhigh, hlow⟩ := setWidth_eq_iff.mp (Eq.refl (sym.setWidth (9 + 3)))
    exact decodeEnc_eq_ok.mpr ⟨hhigh, congrArg _ hlow⟩
  | setroot h =>
    obtain ⟨hhigh, hlow⟩ := setWidth_eq_iff.mp (Eq.refl (h.setWidth (10 + 2)))
    exact decodeSetroot_eq_ok.mpr ⟨hhigh, hlow.symm ▸ of_decide_eq_true hwf, congrArg _ hlow⟩
  | _ => rfl

/-- What the rows refuse: an opcode above 0xA, a reserved bit of the argument and a handle above 512 (R94). -/
theorem decodeRow_ne_ok_iff {op : Nat} :
    (∀ i, decodeRow op arg ≠ .ok i) ↔
      0xB ≤ op ∨ (op ∈ [0x0, 0x1, 0x3, 0x4, 0x6, 0x8, 0x9, 0xA] ∧ arg ≠ 0) ∨
      (op = 0x2 ∧ arg.extractLsb' 1 11 ≠ 0) ∨ (op = 0x5 ∧ arg.extractLsb' 9 3 ≠ 0) ∨
      (op = 0x7 ∧ (arg.extractLsb' 10 2 ≠ 0 ∨ 512 < (arg.extractLsb' 0 10).toNat)) := by
  unfold decodeRow
  split
  case h_3 => simp [decodeWbit_eq_ok]
  case h_6 => simp [decodeEnc_eq_ok]
  case h_8 => simp [decodeSetroot_eq_ok, ← imp_iff_not_or]
  case h_12 =>
    simp only [imp_false] at *
    exact iff_of_true (fun _ => nofun) (.inl (by omega))
  all_goals simp [decodePlain_eq_ok]

/-! ### The fields of an encoding -/

/-- Every command's encoding has the format of R91. -/
theorem commandWord (i : Instr) : Statement i := by
  cases i with
  | wbit b => exact Laws.CommandWord.wbit b
  | enc sym => exact Laws.CommandWord.enc sym
  | setroot h => exact Laws.CommandWord.setroot h
  | _ => exact ⟨rfl, rfl⟩

theorem opcode_lt (i : Instr) : opcode i < 16 := by cases i <;> simp [opcode]

theorem fieldZ_encode (i : Instr) : fieldZ (encode i) = 0 := (commandWord i).1

theorem fieldOp_encode (i : Instr) : (fieldOp (encode i)).toNat = opcode i := by
  rw [(commandWord i).2, BitVec.toNat_ofNat, Nat.mod_eq_of_lt (opcode_lt i)]

/-- A field inside the argument is a field of the word. -/
theorem extractLsb'_fieldArg {j k : Nat} (hk : j + k ≤ 12) (cw : Word) :
    (fieldArg cw).extractLsb' j k = cw.extractLsb' j k := by
  apply BitVec.eq_of_getLsbD_eq
  intro i hi
  rw [BitVec.getLsbD_extractLsb', BitVec.getLsbD_extractLsb', getLsbD_fieldArg,
    decide_eq_true (show j + i < 12 by omega), Bool.true_and]

/-- A value below a row's match is the argument of the word. -/
theorem fieldArg_or_setWidth {n : Nat} (x : BitVec n) {base : Word} (hbase : fieldArg base = 0#12) :
    fieldArg (base ||| x.setWidth 32) = x.setWidth 12 := by
  have hor : fieldArg (base ||| x.setWidth 32) = fieldArg base ||| fieldArg (x.setWidth 32) :=
    BitVec.extractLsb'_or
  rw [hor, hbase, BitVec.zero_or]
  unfold fieldArg
  rw [← BitVec.setWidth_eq_extractLsb' (by decide), BitVec.setWidth_setWidth_of_le _ (by decide)]

theorem fieldArg_encode (i : Instr) : fieldArg (encode i) = argument i := by
  cases i with
  | wbit b => exact fieldArg_or_setWidth _ rfl
  | enc sym => exact fieldArg_or_setWidth _ rfl
  | setroot h => exact fieldArg_or_setWidth _ rfl
  | _ => rfl

/-! ### Decoding and encoding -/

theorem decode_eq_decodeRow (hz : fieldZ cw = 0) :
    decode cw = decodeRow (fieldOp cw).toNat (fieldArg cw) := if_pos hz

/-- An encoding selects its command's row, which accepts its argument (R90). -/
theorem decode_encode (hwf : i.wf = true) : decode (encode i) = .ok i := by
  rw [decode_eq_decodeRow (fieldZ_encode i), fieldOp_encode, fieldArg_encode]
  exact decodeRow_opcode hwf

/-- The commands' encodings are the words that decode (R90, R92). -/
theorem decode_eq_ok_iff : decode cw = .ok i ↔ i.wf = true ∧ encode i = cw := by
  constructor
  · intro h
    obtain ⟨hz, hrow⟩ := decode_ok h
    obtain ⟨hop, harg, hwf⟩ := decodeRow_ok hrow
    have hop' := BitVec.eq_of_toNat_eq ((fieldOp_encode i).trans hop.symm)
    exact ⟨hwf, word_ext ((fieldZ_encode i).trans hz.symm) hop' ((fieldArg_encode i).trans harg.symm)⟩
  · rintro ⟨hwf, rfl⟩
    exact decode_encode hwf

/-- Settles O6: it holds, an encoding having its command's opcode and argument. -/
theorem decodeOfEncodeIsTheCommand : Obligations.DecodeOfEncodeIsTheCommand :=
  fun _ => decode_encode

/-- Settles O7: it holds, a row fixing every field of the words it accepts. -/
theorem decodedWordIsTheEncoding : Obligations.DecodedWordIsTheEncoding :=
  fun _ _ => decode_eq_ok_iff.mp

/-- Settles O10: it holds, each word decoded by evaluation. -/
theorem sampleWordsDecode : Obligations.SampleWordsDecode := by
  unfold Obligations.SampleWordsDecode
  decide

/-! ### The rows by match and mask -/

/-- The mask of a row without operands takes the whole word (R92). -/
theorem decode_eq_ok_iff_match (hwf : i.wf = true) :
    decode cw = .ok i ↔ cw &&& 0xFFFFFFFF#32 = encode i := by
  have hmask : cw &&& 0xFFFFFFFF#32 = cw := BitVec.and_allOnes
  rw [decode_eq_ok_iff, hmask, eq_comm (a := cw)]
  exact and_iff_right hwf

/-- The mask of a row with an operand in the low `n` bits takes the bits above it (R92, R93). -/
theorem decode_eq_ok_iff_match_operand {n : Nat} {x : BitVec n} {base : Word} (hn : n ≤ 32)
    (hbase : base &&& (BitVec.allOnes 32 <<< n) = base) (hi : encode i = base ||| x.setWidth 32) :
    decode cw = .ok i ↔
      cw &&& (BitVec.allOnes 32 <<< n) = base ∧ cw.extractLsb' 0 n = x ∧ i.wf = true := by
  rw [decode_eq_ok_iff, hi, or_setWidth_eq_iff hn hbase, and_comm, and_assoc]

/-- Settles O8: it holds, the words that decode to a command being its encodings. -/
theorem opcodeMapByMatchAndMask : Obligations.OpcodeMapByMatchAndMask := by
  intro cw
  have hwbit (b : Bool) : decode cw = .ok (.wbit b) ↔
      cw &&& 0xFFFFFFFE#32 = 0x00002000#32 ∧ cw.getLsbD 0 = b := by
    refine (decode_eq_ok_iff_match_operand (by decide) (by decide) rfl).trans ?_
    simp [extractLsb'_one, BitVec.ofBool_eq_iff_eq, Instr.wf]
  have henc (y : Symbol) : decode cw = .ok (.enc y) ↔
      cw &&& 0xFFFFFE00#32 = 0x00005000#32 ∧ cw.extractLsb' 0 9 = y := by
    refine (decode_eq_ok_iff_match_operand (by decide) (by decide) rfl).trans ?_
    simp [Instr.wf]
  have hsetroot (h : Handle) : decode cw = .ok (.setroot h) ↔
      cw &&& 0xFFFFFC00#32 = 0x00007000#32 ∧ cw.extractLsb' 0 10 = h ∧ h.toNat ≤ 512 := by
    refine (decode_eq_ok_iff_match_operand (by decide) (by decide) rfl).trans ?_
    simp [Instr.wf]
  exact ⟨decode_eq_ok_iff_match rfl, decode_eq_ok_iff_match rfl, hwbit, decode_eq_ok_iff_match rfl,
    decode_eq_ok_iff_match rfl, henc, decode_eq_ok_iff_match rfl, hsetroot,
    decode_eq_ok_iff_match rfl, decode_eq_ok_iff_match rfl, decode_eq_ok_iff_match rfl⟩

/-! ### A word written to CMD -/

/-- With no fault latched a write to CMD executes its word (R71). -/
theorem hostWrite_cmd (hf : s.fault = false) : hostWrite 0x0000#16 cw s = execute cw s := by
  unfold hostWrite
  rw [if_neg (by simp [hf]), if_pos rfl]

theorem execute_ok (h : decode cw = .ok i) : execute cw s = exec i s := by
  unfold execute
  rw [h]

/-- The word of RELEASE written to CMD executes whether a fault is latched or not (R71, R170). -/
theorem hostWrite_release (s : State) : hostWrite 0x0000#16 0x00001000#32 s = exec .release s := by
  cases hf : s.fault with
  | false => exact (hostWrite_cmd hf).trans (execute_ok (decode_encode (i := .release) rfl))
  | true =>
    unfold hostWrite
    rw [if_pos hf, if_pos ⟨rfl, rfl⟩]

/-- A word that decodes to no command raises ILLEGAL_CMD (R94). -/
theorem raisesIllegalCmd_of_ne_ok (hf : s.fault = false) (h : ∀ i, decode cw ≠ .ok i) :
    RaisesIllegalCmd cw s := by
  unfold RaisesIllegalCmd
  rw [hostWrite_cmd hf]
  unfold execute
  split
  case h_1 i hi => exact absurd hi (h i)
  case h_2 => rfl

/-- A command whose `DSTATE` is outside its row's set raises ILLEGAL_CMD (R90 step 4, R92). -/
theorem exec_notAdmitted (hf : s.fault = false)
    (h : (s.dstate ≠ .idle ∧ (i = .ctdrv ∨ i = .dstart ∨ ∃ h, i = .setroot h)) ∨
      (s.dstate = .idle ∧ (i = .dstep ∨ i = .drun))) :
    exec i s = .next (raise .illegalCmd s) := by
  rcases h with ⟨hd, rfl | rfl | ⟨x, rfl⟩⟩ | ⟨hd, hi⟩
  · exact exec_notIdle hf hd (.inl rfl)
  · exact exec_notIdle hf hd (.inr rfl)
  · exact exec_setroot_raises hf hd
  · exact exec_idle hf hd hi

/-- Settles O24: it holds, the admission standing before every effect of these commands. -/
theorem commandsNotAdmittedRaiseIllegalCmd : Obligations.CommandsNotAdmittedRaiseIllegalCmd :=
  fun _ hf => ⟨fun hd _ hi => exec_notAdmitted hf (.inl ⟨hd, hi⟩),
    fun hd _ hi => exec_notAdmitted hf (.inr ⟨hd, hi⟩)⟩

/-! ### Reserved words -/

/-- No command encodes to the words that decode to none. -/
theorem encode_ne_iff : (∀ i : Instr, i.wf = true → encode i ≠ cw) ↔ ∀ i, decode cw ≠ .ok i := by
  simp only [ne_eq, decode_eq_ok_iff, not_and]

/-- A word decodes to no command by its upper half or by its row (R90). -/
theorem decode_ne_ok_iff :
    (∀ i, decode cw ≠ .ok i) ↔
      fieldZ cw ≠ 0 ∨ ∀ i, decodeRow (fieldOp cw).toNat (fieldArg cw) ≠ .ok i := by
  unfold decode
  split
  · next hz => exact (or_iff_right (not_not_intro hz)).symm
  · next hz => exact iff_of_true (fun _ => nofun) (.inl hz)

/-- Settles O9: it holds, the list naming what the upper half, the opcode and the rows refuse. -/
theorem reservedWordsRaiseIllegalCmd : Obligations.ReservedWordsRaiseIllegalCmd := by
  intro s cw hf
  refine ⟨?_, fun h => raisesIllegalCmd_of_ne_ok hf (encode_ne_iff.mp h), ?_⟩
  · rw [encode_ne_iff, decode_ne_ok_iff, decodeRow_ne_ok_iff, extractLsb'_fieldArg (by decide),
      extractLsb'_fieldArg (by decide), extractLsb'_fieldArg (by decide), extractLsb'_fieldArg (by decide)]
    rfl
  · rintro i hwf rfl h
    unfold RaisesIllegalCmd
    rw [hostWrite_cmd hf, execute_ok (decode_encode hwf)]
    exact exec_notAdmitted hf h

/-- Settles O11: it holds, a step performing the write, which executes the word. -/
theorem stepRunsTheDecodedCommand : Obligations.StepRunsTheDecodedCommand := by
  intro s cw i ops hops hcw h
  rw [step_cons hops, hostOp]
  rcases h with hf | rfl
  · exact (hostWrite_cmd (s := { s with hostOps := ops }) hf).trans (execute_ok hcw)
  · obtain rfl := decode_eq_release_iff.mp hcw
    exact hostWrite_release _

end Sys2Proof.Machine
end

section
/-! The words of a row and what they raise otherwise (30_encoding.md R94), and what each command of the
serializer answers (40_serializer.md R110 to R114). -/

namespace Sys2Proof.Machine

open Laws.CommandWord (opcode)

variable {s t u : State} {i : Instr} {cw : Word}

/-! ### Command words -/

/-- A word no command of its opcode encodes to raises ILLEGAL_CMD (R94). -/
theorem raisesIllegalCmd_of_opcode (hf : s.fault = false)
    (h : ∀ i, opcode i = (fieldOp cw).toNat → encode i ≠ cw) : RaisesIllegalCmd cw s := by
  refine raisesIllegalCmd_of_ne_ok hf fun i hi => ?_
  obtain ⟨_, rfl⟩ := decode_eq_ok_iff.mp hi
  exact h i (fieldOp_encode i).symm rfl

theorem opcode_eq_wbit (h : opcode i = 0x2) : ∃ b, i = .wbit b := by
  cases i with
  | wbit b => exact ⟨b, rfl⟩
  | _ => cases h

theorem opcode_eq_rbit (h : opcode i = 0x4) : i = .rbit := by
  cases i with
  | rbit => rfl
  | _ => cases h

/-- An encoding of WBIT has the reserved bits 0 (R93). -/
theorem encode_wbit_reserved (b : Bool) :
    (encode (.wbit b)).extractLsb' 1 11 = 0#11 ∧ (encode (.wbit b)).extractLsb' 16 16 = 0#16 := by
  cases b <;> decide

/-! ### WBIT, WFLUSH and RBIT -/

/-- Settles O28: it holds, the accumulator being the old one with the bit set at BW_CNT. -/
theorem wbitPlacesTheBit : Obligations.WbitPlacesTheBit := by
  refine ⟨fun cw b => ?_, fun s b hf => ?_, fun s cw hf hop hbits => ?_⟩
  · rw [decode_eq_ok_iff, eq_comm (a := cw)]
    exact and_iff_right rfl
  · refine ⟨setBit s.bwAcc s.bwCnt.toNat b, fun i hi => getLsbD_setBit _ _ _ _ hi, ?_⟩
    rw [exec_wbit b hf]
    split
    · next h7 =>
      rw [putBit_full b (BitVec.eq_of_toNat_eq h7), h7]
      rfl
    · next h7 =>
      rw [putBit_partial b fun h => h7 (congrArg BitVec.toNat h), BitVec.ofNat_add, BitVec.ofNat_toNat,
        BitVec.setWidth_eq]
      rfl
  · refine raisesIllegalCmd_of_opcode hf fun i hi => ?_
    obtain ⟨b, rfl⟩ := opcode_eq_wbit (hi.trans (congrArg BitVec.toNat hop))
    rintro rfl
    obtain ⟨hlow, hhigh⟩ := encode_wbit_reserved b
    exact hbits.elim (absurd hlow) (absurd hhigh)

theorem flushWriter_empty (h : s.bwCnt = 0#3) : flushWriter s = s := if_pos h

theorem flushWriter_pending (h : s.bwCnt ≠ 0#3) :
    flushWriter s = setWriter 0#8 0#3 (snkPut s.bwAcc s) := if_neg h

/-- Settles O29: it holds, WFLUSH doing nothing exactly when BW_CNT is 0. -/
theorem wflushCompletesTheByte : Obligations.WflushCompletesTheByte := by
  intro s hf
  rw [exec_wflush hf]
  split
  · next h => rw [flushWriter_empty (BitVec.eq_of_toNat_eq h)]
  · next h =>
    rw [flushWriter_pending fun h' => h (congrArg BitVec.toNat h')]
    rfl

theorem exec_rbit_end (hf : s.fault = false) (h : readBit s = none) :
    exec .rbit s = .next (setResult false true s) := by
  rw [exec_rbit hf, h]

theorem exec_rbit_bit {b : Bool} (hf : s.fault = false) (h : readBit s = some (b, u)) :
    exec .rbit s = .next (setResult b false u) := by
  rw [exec_rbit hf, h]

/-- With a bit left in the buffer, `ReadBit` hands it out (R112). -/
theorem readBit_buffered {p : Fin 9} (h : s.brPos.val < 8) (hp : p.val = s.brPos.val + 1) :
    readBit s = some (s.brBuf.getLsbD s.brPos.val, setReader s.brBuf p s) := by
  have hnext : Fin.ofNat 9 (s.brPos.val + 1) = p :=
    Fin.ext ((Nat.mod_eq_of_lt (by omega)).trans hp.symm)
  have hpos : s.brPos ≠ 8 := fun e => by rw [e] at h; exact absurd h (by decide)
  rw [readBit, if_neg hpos, hnext]

/-- With the buffer used up, `ReadBit` pulls a byte and hands out its first bit (R112). -/
theorem readBit_pulled {r : Byte} (h : s.brPos = 8) (hr : s.src[s.srcPos]? = some r) :
    readBit s = some (r.getLsbD 0, setReader r 1 { s with srcPos := s.srcPos + 1 }) := by
  rw [readBit, if_pos h, srcNext, hr]

/-- Settles O30: it holds, each case of the statement being a case of `ReadBit`. -/
theorem rbitReportsTheNextBit : Obligations.RbitReportsTheNextBit := by
  refine ⟨fun cw => ?_, fun s hf => ⟨fun p hp hnext => ?_, fun r p h8 hr hnext => ?_, fun h8 hend => ?_⟩,
    fun s cw hf hop hne => ?_⟩
  · rw [decode_eq_ok_iff, eq_comm (a := cw)]
    exact and_iff_right rfl
  · exact exec_rbit_bit hf (readBit_buffered hp hnext)
  · obtain rfl : p = 1 := Fin.ext hnext
    exact exec_rbit_bit hf (readBit_pulled (Fin.ext h8) hr)
  · exact exec_rbit_end hf (readBit_none.mpr ⟨Fin.ext h8, hend⟩)
  · refine raisesIllegalCmd_of_opcode hf fun i hi => ?_
    obtain rfl := opcode_eq_rbit (hi.trans (congrArg BitVec.toNat hop))
    exact hne.symm

/-! ### Frames -/

/-- All a command of the writer can do: change the writer and SNK, or, if it is ENC, raise
INTERNAL_CONSISTENCY (R110, R111, R114, R132). -/
theorem exec_writer_next (hi : (∃ b, i = .wbit b) ∨ i = .wflush ∨ ∃ y, i = .enc y)
    (h : exec i s = .next t) :
    (∃ acc cnt bytes, t = { s with bwAcc := acc, bwCnt := cnt, snk := bytes }) ∨
    ((∃ y, i = .enc y) ∧ t = raise .internalConsistency s) := by
  rcases Bool.eq_false_or_eq_true s.fault with hf | hf
  · rw [exec_faulted i (by rintro rfl; simp at hi) hf] at h
    exact .inl ⟨s.bwAcc, s.bwCnt, s.snk, (Host.Outcome.next.inj h).symm⟩
  rcases hi with ⟨b, rfl⟩ | rfl | ⟨y, rfl⟩
  · rw [exec_wbit b hf] at h
    obtain ⟨acc, cnt, bytes, e⟩ := putBit_frame b s
    exact .inl ⟨acc, cnt, _, (Host.Outcome.next.inj h).symm.trans e⟩
  · rw [exec_wflush hf] at h
    obtain ⟨acc, cnt, bytes, e⟩ := flushWriter_frame s
    exact .inl ⟨acc, cnt, _, (Host.Outcome.next.inj h).symm.trans e⟩
  · rw [exec_enc y hf] at h
    split at h
    · exact .inr ⟨⟨y, rfl⟩, (Host.Outcome.next.inj h).symm⟩
    · next entry _ =>
      obtain ⟨acc, cnt, bytes, e⟩ := putBits_frame (ctCode entry) s
      exact .inl ⟨acc, cnt, _, (Host.Outcome.next.inj h).symm.trans e⟩

/-- Settles O34: it holds, these commands changing the writer and SNK only unless ENC raises. -/
theorem writerCommandsFrame : Obligations.WriterCommandsFrame := by
  intro i s t hi h
  rcases exec_writer_next hi h with ⟨acc, cnt, bytes, rfl⟩ | ⟨hy, rfl⟩
  · simp [SameDecoder, SameTables]
  · simp [SameDecoder, SameTables, hy]

/-- All RBIT can do: change the reader, SRC_POS and RESULT (R112, R113). -/
theorem exec_rbit_next (h : exec .rbit s = .next t) :
    ∃ buf pos n b e, t = { s with
      brBuf := buf, brPos := pos, srcPos := n, resultBit := b, resultEnd := e } := by
  rcases Bool.eq_false_or_eq_true s.fault with hf | hf
  · rw [exec_faulted _ (by simp) hf] at h
    exact ⟨s.brBuf, s.brPos, s.srcPos, s.resultBit, s.resultEnd, (Host.Outcome.next.inj h).symm⟩
  rcases hr : readBit s with _ | ⟨b, u⟩
  · rw [exec_rbit_end hf hr] at h
    exact ⟨s.brBuf, s.brPos, s.srcPos, false, true, (Host.Outcome.next.inj h).symm⟩
  · rw [exec_rbit_bit hf hr] at h
    obtain ⟨buf, pos, n, rfl⟩ := readBit_frame hr
    exact ⟨buf, pos, n, b, false, (Host.Outcome.next.inj h).symm⟩

/-- Settles O35: it holds, RBIT changing the reader, SRC_POS and RESULT only. -/
theorem rbitFrame : Obligations.RbitFrame := by
  intro s t h
  obtain ⟨buf, pos, n, b, e, rfl⟩ := exec_rbit_next h
  simp [SameDecoder, SameTables]

end Sys2Proof.Machine
end

section
/-! The stream positions of 40_serializer.md R115: bit `k` of a byte sequence is bit `k mod 8` of its byte
`k / 8`; WBITs and a WFLUSH append the bits written with zero padding, and RBITs take the bits remaining
one by one. -/

namespace Sys2Proof.Machine

variable {s t : State}

/-! ### Bytes and bits -/

theorem streamBits_cons (b : Byte) (bs : List Byte) : streamBits (b :: bs) = byteBits b ++ streamBits bs :=
  List.flatMap_cons

theorem streamBits_length (bs : List Byte) : (streamBits bs).length = 8 * bs.length := by
  induction bs with
  | nil => rfl
  | cons b bs ih =>
    rw [streamBits_cons, List.length_append, byteBits_length, ih, List.length_cons]
    omega

/-- The stream position law (R115, R66); past the end both sides are 0. -/
theorem getD_streamBits (bs : List Byte) (k : Nat) :
    (streamBits bs).getD k false = (bs.getD (k / 8) 0#8).getLsbD (k % 8) := by
  induction bs generalizing k with
  | nil => simp [streamBits]
  | cons b bs ih =>
    rw [streamBits_cons]
    by_cases hk : k < 8
    · rw [List.getD_append _ _ _ _ (by rwa [byteBits_length]), Nat.div_eq_of_lt hk, Nat.mod_eq_of_lt hk]
      simp [byteBits, hk]
    · rw [List.getD_append_right _ _ _ _ (by rw [byteBits_length]; omega), byteBits_length, ih,
        show k / 8 = (k - 8) / 8 + 1 by omega, show k % 8 = (k - 8) % 8 by omega, List.getD_cons_succ]

/-- A byte whose bits from `n` on are 0 is its first `n` bits and padding. -/
theorem byteBits_eq_take_append {acc : BitVec 8} {n : Nat} (hn : n ≤ 8)
    (h : ∀ i, n ≤ i → acc.getLsbD i = false) :
    byteBits acc = (byteBits acc).take n ++ List.replicate (8 - n) false := by
  apply List.ext_getElem
  · simp [byteBits_length]
    omega
  · intro j hj _
    by_cases hjn : j < n
    · rw [List.getElem_append_left (by simp [byteBits_length]; omega), List.getElem_take]
    · rw [List.getElem_append_right (by simp [byteBits_length]; omega)]
      simpa [byteBits] using h j (by omega)

/-! ### The writer -/

theorem putBits_writerClean (bs : List Bool) (h : ∀ i, s.bwCnt.toNat ≤ i → s.bwAcc.getLsbD i = false) :
    ∀ i, (putBits bs s).bwCnt.toNat ≤ i → (putBits bs s).bwAcc.getLsbD i = false := by
  induction bs generalizing s with
  | nil => exact h
  | cons b bs ih => exact ih (putBit_writerClean b h)

/-- WFLUSH pads the bits written with 0 up to a whole byte (R114). -/
theorem streamBits_flushWriter (h : ∀ i, s.bwCnt.toNat ≤ i → s.bwAcc.getLsbD i = false) :
    ∃ pad < 8, streamBits (flushWriter s).snk = writtenBits s ++ List.replicate pad false := by
  by_cases h0 : s.bwCnt = 0#3
  · exact ⟨0, by decide, by simp [flushWriter_empty h0, writtenBits, h0]⟩
  · have hpos : s.bwCnt.toNat ≠ 0 := fun e => h0 (BitVec.eq_of_toNat_eq e)
    have hlt := s.bwCnt.isLt
    refine ⟨8 - s.bwCnt.toNat, by omega, ?_⟩
    rw [flushWriter_pending h0, setWriter_snk, snkPut_snk, streamBits_append, writtenBits,
      List.append_assoc, ← byteBits_eq_take_append (by omega) h]
    simp [streamBits]

/-- WBIT of each of the bits and WFLUSH (R111, R114). -/
theorem execAll_wbit_wflush (bits : List Bool) (hf : s.fault = false) :
    execAll (bits.map .wbit ++ [.wflush]) s = .next (flushWriter (putBits bits s)) := by
  have hf' : (putBits bits s).fault = false := by
    obtain ⟨_, _, _, e⟩ := putBits_frame bits s
    rw [e]
    exact hf
  rw [execAll_append _ _ _ (execAll_wbit bits hf), execAll, exec_wflush hf']
  rfl

/-- The bytes pushed by PutBits and WFLUSH from an empty writer are the bits and padding (R115). -/
theorem flushWriter_putBits_bytes (bits : List Bool) (hcnt : s.bwCnt = 0#3) (hacc : s.bwAcc = 0#8) :
    ∃ bytes, (flushWriter (putBits bits s)).snk = s.snk ++ bytes ∧
      ∃ pad < 8, streamBits bytes = bits ++ List.replicate pad false := by
  obtain ⟨pad, hpad, hbits⟩ :=
    streamBits_flushWriter (putBits_writerClean (s := s) bits fun i _ => by simp [hacc])
  obtain ⟨bytes, hsnk⟩ := (keepsTree_putBits bits s).outputs.1.trans (keepsTree_flushWriter _).outputs.1
  refine ⟨bytes, hsnk.symm, pad, hpad, List.append_cancel_left (as := streamBits s.snk) ?_⟩
  rw [← streamBits_append, hsnk, hbits, writtenBits_putBits, writtenBits, hcnt]
  simp

/-- Settles O31: it holds, the pushed bytes being the bits written and at most seven 0s. -/
theorem writerStreamPositionLaw : Obligations.WriterStreamPositionLaw := by
  intro s bits hf hcnt hacc
  obtain ⟨bytes, hsnk, pad, hpad, hbits⟩ := flushWriter_putBits_bytes bits hcnt hacc
  refine ⟨_, bytes, execAll_wbit_wflush bits hf, hsnk, ?_, fun k _ => ?_⟩
  · have hlen := congrArg List.length hbits
    rw [streamBits_length, List.length_append, List.length_replicate] at hlen
    omega
  · rw [← getD_streamBits, hbits]
    by_cases hk : k < bits.length
    · rw [List.getD_append _ _ _ _ hk]
    · rw [List.getD_append_right _ _ _ _ (by omega), List.getD_eq_default bits _ (by omega)]
      simp

/-! ### The reader -/

/-- `ReadBit` pulls no byte past the end of SRC (R112). -/
theorem readBit_srcRange {b : Bool} (h : readBit s = some (b, t)) (hs : s.srcPos ≤ s.src.length) :
    t.src = s.src ∧ t.srcPos ≤ t.src.length := by
  rcases readBit_some h with ⟨_, _, rfl⟩ | ⟨_, r, hr, _, rfl⟩
  · exact ⟨rfl, hs⟩
  · exact ⟨rfl, (List.getElem?_eq_some_iff.mp hr).1⟩

/-- Once a bit is handed out, less than a byte is left in the buffer, so the bits remaining say where SRC
stands (R112). -/
theorem readBit_srcPos {b : Bool} (h : readBit s = some (b, t)) (hs : s.srcPos ≤ s.src.length) :
    t.srcPos + (remainingBits t).length / 8 = s.src.length := by
  have hpos : t.brPos.val ≠ 0 := by
    rcases readBit_some h with ⟨hp, _, rfl⟩ | ⟨_, r, _, _, rfl⟩
    · exact (Nat.mod_eq_of_lt (show s.brPos.val + 1 < 9 by omega)).trans_ne (Nat.succ_ne_zero _)
    · exact one_ne_zero
  obtain ⟨hsrc, hrange⟩ := readBit_srcRange h hs
  have hlt := t.brPos.isLt
  rw [← bitsLeft_eq, bitsLeft]
  rw [hsrc] at hrange ⊢
  omega

/-- What `k` RBITs leave: `k` bits fewer remaining, the same SRC with SRC_POS inside it, no fault (R113). -/
structure ReadsOn (k : Nat) (s t : State) : Prop where
  fault : t.fault = false
  source : t.src = s.src
  range : t.srcPos ≤ t.src.length
  bits : remainingBits t = (remainingBits s).drop k

/-- The last of `k + 1` RBITs acts on what the others leave. -/
theorem execAll_rbit_succ {k : Nat} (h : execAll (List.replicate k .rbit) s = .next t)
    (hf : t.fault = false) : execAll (List.replicate (k + 1) .rbit) s = exec .rbit t := by
  rw [List.replicate_succ', execAll_append _ _ _ h, execAll, exec_rbit hf]
  cases readBit t <;> rfl

theorem execAll_rbit (hf : s.fault = false) (hs : s.srcPos ≤ s.src.length) (k : Nat) :
    ∃ t, execAll (List.replicate k .rbit) s = .next t ∧ ReadsOn k s t := by
  induction k with
  | zero => exact ⟨s, rfl, hf, rfl, hs, rfl⟩
  | succ k ih =>
    obtain ⟨t, ht, h⟩ := ih
    rcases hr : readBit t with _ | ⟨b, u⟩
    · refine ⟨_, (execAll_rbit_succ ht h.fault).trans (exec_rbit_end h.fault hr), { h with bits := ?_ }⟩
      have hnil := remainingBits_none.mp hr
      rw [← List.drop_drop, ← h.bits, hnil]
      exact hnil
    · obtain ⟨hsrc, hrange⟩ := readBit_srcRange hr h.range
      refine ⟨_, (execAll_rbit_succ ht h.fault).trans (exec_rbit_bit h.fault hr), ?_,
        hsrc.trans h.source, hrange, ?_⟩
      · obtain ⟨_, _, _, rfl⟩ := readBit_frame hr
        exact h.fault
      · rw [← List.drop_drop, ← h.bits, remainingBits_some hr]
        rfl

/-- Settles O32: it holds, the last RBIT taking the first of the bits that `k` RBITs leave. -/
theorem readerStreamPositionLaw : Obligations.ReaderStreamPositionLaw := by
  intro s rest k hf h8 hs hrest
  obtain ⟨t, ht, h⟩ := execAll_rbit hf hs k
  have hstream : remainingBits s = streamBits rest := by simp [remainingBits, h8, hrest, byteBits]
  have hm : rest.length = s.src.length - s.srcPos := by rw [← hrest, List.length_drop]
  have hleft : (remainingBits t).length = 8 * rest.length - k := by
    rw [h.bits, List.length_drop, hstream, streamBits_length]
  rw [execAll_rbit_succ ht h.fault]
  rcases hr : readBit t with _ | ⟨b, u⟩
  · obtain ⟨_, hend⟩ := readBit_none.mp hr
    rw [remainingBits_none.mp hr, List.length_nil] at hleft
    have hpos : t.srcPos = s.src.length := by rw [← h.source]; exact Nat.le_antisymm h.range hend
    exact ⟨_, exec_rbit_end h.fault hr, fun hk => by omega, fun _ => ⟨rfl, rfl, hpos⟩⟩
  · have hbits := remainingBits_some hr
    rw [hbits, List.length_cons] at hleft
    have hpos := readBit_srcPos hr h.range
    rw [h.source] at hpos
    have hbit : (streamBits rest).getD k false = b := by
      rw [List.getD_eq_getElem?_getD, ← List.head?_drop, ← hstream, ← h.bits, hbits]
      rfl
    refine ⟨_, exec_rbit_bit h.fault hr, fun _ => ⟨rfl, ?_, ?_⟩, fun hk => by omega⟩
    · rw [← getD_streamBits, hbit]
      rfl
    · rw [setResult_srcPos]
      omega

end Sys2Proof.Machine
end

section
/-! The writer and the reader apart (40_serializer.md R116, 42_traversal.md R157): the writer's commands
commute with a replacement of the reader and SRC, and RBIT and the decoder's commands with a replacement
of the writer, SNK and the code table. -/

namespace Sys2Proof.Machine

variable {s t : State} {i : Instr}

/-- A command commutes with a change of the state when its body does, the change being none of the fault
latch and of `DSTATE`. -/
theorem whenAdmitted_commutes {f : State → State} {adm : DState → Bool} {body : State → Out}
    (hfault : (f s).fault = s.fault) (hdstate : (f s).dstate = s.dstate)
    (hraise : raise .illegalCmd (f s) = f (raise .illegalCmd s))
    (h : body (f s) = mapNext f (body s)) :
    whenAdmitted adm (f s) body = mapNext f (whenAdmitted adm s body) := by
  unfold whenAdmitted
  rw [hfault, hdstate, hraise, h]
  simp only [apply_ite (mapNext f)]
  rfl

/-! ### Replacing the reader -/

/-- The state with another reader and another source. -/
def withReader (buf : BitVec 8) (pos : Fin 9) (src : List Byte) (n : Nat) (s : State) : State :=
  { s with brBuf := buf, brPos := pos, src := src, srcPos := n }

section

variable {buf : BitVec 8} {pos : Fin 9} {src : List Byte} {n : Nat}

theorem putBit_withReader (b : Bool) (s : State) :
    putBit b (withReader buf pos src n s) = withReader buf pos src n (putBit b s) := by
  unfold putBit
  rw [apply_ite (withReader buf pos src n)]
  rfl

theorem putBits_withReader (bs : List Bool) (s : State) :
    putBits bs (withReader buf pos src n s) = withReader buf pos src n (putBits bs s) := by
  induction bs generalizing s with
  | nil => rfl
  | cons b bs ih => rw [putBits, putBit_withReader, ih, putBits]

theorem flushWriter_withReader (s : State) :
    flushWriter (withReader buf pos src n s) = withReader buf pos src n (flushWriter s) := by
  unfold flushWriter
  rw [apply_ite (withReader buf pos src n)]
  rfl

/-- No command of the writer sees the reader or SRC (R116). -/
theorem exec_withReader (hi : (∃ b, i = .wbit b) ∨ i = .wflush ∨ ∃ y, i = .enc y) (s : State) :
    exec i (withReader buf pos src n s) = mapNext (withReader buf pos src n) (exec i s) := by
  rcases hi with ⟨b, rfl⟩ | rfl | ⟨y, rfl⟩
  · simp only [exec, execWbit]
    refine whenAdmitted_commutes rfl rfl rfl ?_
    rw [putBit_withReader, mapNext]
  · simp only [exec, execWflush]
    refine whenAdmitted_commutes rfl rfl rfl ?_
    rw [flushWriter_withReader, mapNext]
  · have he : encEntry (withReader buf pos src n s) y = encEntry s y := rfl
    simp only [exec, execEnc]
    refine whenAdmitted_commutes rfl rfl rfl ?_
    rw [he]
    cases encEntry s y with
    | none => rfl
    | some e => simp only [putBits_withReader, mapNext]

end

/-! ### Replacing the writer and the code table -/

/-- The state with another writer, another SNK and another code table. -/
def withWriter (acc : BitVec 8) (cnt : BitVec 3) (snk : List Byte) (tab : Memory CtEntry) (s : State) :
    State :=
  { s with bwAcc := acc, bwCnt := cnt, snk := snk, ct := tab }

section

variable {acc : BitVec 8} {cnt : BitVec 3} {snk : List Byte} {tab : Memory CtEntry}

theorem srcNext_withWriter (s : State) :
    srcNext (withWriter acc cnt snk tab s) =
      (srcNext s).map (Prod.map id (withWriter acc cnt snk tab)) := by
  unfold srcNext
  rw [show (withWriter acc cnt snk tab s).src[(withWriter acc cnt snk tab s).srcPos]? =
    s.src[s.srcPos]? from rfl]
  split <;> rfl

theorem readBit_withWriter (s : State) :
    readBit (withWriter acc cnt snk tab s) =
      (readBit s).map (Prod.map id (withWriter acc cnt snk tab)) := by
  unfold readBit
  rw [srcNext_withWriter, show (withWriter acc cnt snk tab s).brPos = s.brPos from rfl]
  split
  · cases srcNext s <;> rfl
  · rfl

theorem startAt_withWriter (sym : Symbol) (s : State) :
    startAt sym (withWriter acc cnt snk tab s) = withWriter acc cnt snk tab (startAt sym s) := by
  unfold startAt
  simp only [apply_ite (withWriter acc cnt snk tab)]
  rfl

theorem arrive_withWriter (g : Handle) (s : State) :
    arrive g (withWriter acc cnt snk tab s) = withWriter acc cnt snk tab (arrive g s) := by
  have hw : written (withWriter acc cnt snk tab s) g = written s g := rfl
  have hn : nodeWord (withWriter acc cnt snk tab s) g = nodeWord s g := rfl
  unfold arrive
  rw [hw, hn]
  simp only [apply_ite (withWriter acc cnt snk tab)]
  rfl

theorem stepTree_withWriter (s : State) :
    stepTree (withWriter acc cnt snk tab s) = withWriter acc cnt snk tab (stepTree s) := by
  unfold stepTree
  rw [readBit_withWriter]
  rcases readBit s with _ | ⟨b, u⟩
  · rfl
  · simp only [Option.map_some, Prod.map_apply, id_eq, apply_ite (withWriter acc cnt snk tab),
      ← arrive_withWriter]
    rfl

theorem runTree_withWriter (fuel : Nat) (s : State) :
    runTree fuel (withWriter acc cnt snk tab s) = withWriter acc cnt snk tab (runTree fuel s) := by
  induction fuel generalizing s with
  | zero => rfl
  | succ k ih =>
    by_cases h : s.dstate = .run ∧ s.fault = false
    · rw [runTree_step h.1 h.2, ← ih, ← stepTree_withWriter]
      exact runTree_step h.1 h.2
    · rw [runTree_stop h]
      exact runTree_stop h

/-- Neither RBIT nor a command of the decoder sees the writer, SNK or the code table (R116, R157). -/
theorem exec_withWriter (hi : i = .rbit ∨ i = .dstart ∨ i = .dstep ∨ i = .drun) (s : State) :
    exec i (withWriter acc cnt snk tab s) = mapNext (withWriter acc cnt snk tab) (exec i s) := by
  rcases hi with rfl | rfl | rfl | rfl
  · simp only [exec, execRbit]
    refine whenAdmitted_commutes rfl rfl rfl ?_
    rw [readBit_withWriter]
    cases readBit s <;> rfl
  · simp only [exec, execDstart]
    refine whenAdmitted_commutes rfl rfl rfl ?_
    simp only [startAt_withWriter, apply_ite (mapNext (withWriter acc cnt snk tab))]
    rfl
  · simp only [exec, execDstep]
    refine whenAdmitted_commutes rfl rfl rfl ?_
    rw [stepTree_withWriter, apply_ite (mapNext (withWriter acc cnt snk tab))]
    rfl
  · have hb : bitsLeft (withWriter acc cnt snk tab s) = bitsLeft s := rfl
    simp only [exec, execDrun]
    refine whenAdmitted_commutes rfl rfl rfl ?_
    rw [hb, runTree_withWriter, mapNext]

end

/-- Settles O33: it holds, each command commuting with a replacement of the part it does not see. -/
theorem writerAndReaderAreIndependent : Obligations.WriterAndReaderAreIndependent :=
  fun s _ => ⟨fun _ buf pos src n hi h =>
      (exec_withReader hi s).trans (congrArg (mapNext (withReader buf pos src n)) h),
    fun _ acc cnt snk tab hi h =>
      (exec_withWriter hi s).trans (congrArg (mapNext (withWriter acc cnt snk tab)) h)⟩

end Sys2Proof.Machine
end

section
/-! The code table (41_codetable.md): what ENC writes, what CTDRV leaves in the table and when it succeeds,
and what CTDRV and SETROOT leave in place. -/

namespace Sys2Proof.Machine

variable {s t : State}

/-! ### ENC -/

/-- ENC of a symbol with an entry is `PutBit` of each of its code bits (R132). -/
theorem exec_enc_entry {y : Symbol} (hf : s.fault = false) (hy : y.toNat ≤ 256)
    (hv : (ctEntry s y.toNat).valid = true) :
    exec (.enc y) s = .next (putBits (ctCode (ctEntry s y.toNat)) s) := by
  rw [exec_enc y hf, encEntry_some hy hv]

/-- Settles O36: it holds, ENC and the WBITs of its code bits being one string of `PutBit`s. -/
theorem encWritesTheCode : Obligations.EncWritesTheCode := by
  intro s y hf hy hv
  refine ⟨putBits (ctCode (ctEntry s y.toNat)) s, exec_enc_entry hf hy hv,
    writtenBits_putBits _ s, ?_, ?_⟩
  · rw [← execAll_wbit _ hf, ctCode, List.map_map]
    rfl
  · obtain ⟨acc, cnt, bytes, e⟩ := putBits_frame (ctCode (ctEntry s y.toNat)) s
    rw [e]

/-- Settles O37: it holds, the lookup answering no entry for such a symbol. -/
theorem encOfAMissingSymbolFaults : Obligations.EncOfAMissingSymbolFaults := by
  intro s y hf missing
  have absent : encEntry s y = none := encEntry_none fun ⟨hy, hv⟩ => by
    rcases missing with h | h
    · omega
    · simp [h] at hv
  rw [exec_enc y hf, absent]
  rfl

/-! ### Paths to leaves -/

/-- A node of a symbol of at most 256 is a leaf (R151). -/
theorem not_isInternal_of_symbol_le {h : Handle} (hs : (nodeSym (nodeWord s h)).toNat ≤ 256) :
    ¬ isInternal s h := by
  intro hi
  rw [hi] at hs
  simp at hs

/-- A path that goes on from a leaf's path is that path: it ends on the leaf (R135). -/
theorem leadsTo_of_leaf_prefix {r g h : Handle} {c d : List Bool} (hc : leadsTo s r c g)
    (hg : ¬ isInternal s g) (hd : leadsTo s r d h) (hp : c <+: d) : h = g := by
  obtain ⟨e, rfl⟩ := hp
  obtain ⟨m, hm, he⟩ := (leadsTo_append c e).mp hd
  obtain rfl := leadsTo_node_unique hc hm
  cases e with
  | nil => exact he
  | cons b bs => exact absurd he.1 hg

/-- Two paths the deriver can have with one entry are one path (R134). -/
theorem entryOfPath_injective {c d : List Bool} (hc : c.length ≤ 256) (hd : d.length ≤ 256)
    (e : entryOfPath c = entryOfPath d) : c = d := by
  rw [← ctCode_entryOfPath hc, e, ctCode_entryOfPath hd]

/-! ### The derived table -/

section
variable {tab : Memory CtEntry} (derived : derive s 256 s.rootH [] [] = .ok tab)
include derived

/-- The entry of a leaf's symbol is that of the leaf's path (R134). -/
theorem read_derived_leaf {c : List Bool} {h : Handle} (hc : leadsTo s s.rootH c h)
    (hs : (nodeSym (nodeWord s h)).toNat ≤ 256) :
    c.length ≤ 256 ∧ tab.read CtEntry.empty (nodeSym (nodeWord s h)).toNat = entryOfPath c := by
  obtain ⟨_, _, leaf⟩ := (derive_ok (by simp) derived).1 c h hc
  obtain ⟨_, len, _, entry⟩ := leaf (not_isInternal_of_symbol_le hs)
  exact ⟨len, entry⟩

/-- An entry of the table is that of the path to a leaf of its symbol, or empty (R133, R134). -/
theorem read_derived_cases (k : Nat) :
    (∃ c h, leadsTo s s.rootH c h ∧ (nodeSym (nodeWord s h)).toNat = k ∧ c.length ≤ 256 ∧
      tab.read CtEntry.empty k = entryOfPath c) ∨
    tab.read CtEntry.empty k = CtEntry.empty := by
  obtain ⟨nodes, others⟩ := derive_ok (by simp) derived
  rcases others k with ⟨c, h, hc, hi, rfl⟩ | e
  · obtain ⟨_, len, _, entry⟩ := (nodes c h hc).2.2 hi
    exact .inl ⟨c, h, hc, rfl, len, entry⟩
  · exact .inr e

/-- A symbol's codes are the paths to its leaves (R136). -/
theorem hasCode_derived {k : Nat} (hk : k ≤ 256) (c : List Bool) :
    hasCode (setCt tab s) k c ↔
      ∃ h, leadsTo s s.rootH c h ∧ (nodeSym (nodeWord s h)).toNat = k := by
  simp only [hasCode, setCt_ctEntry]
  constructor
  · rintro ⟨valid, code⟩
    rcases read_derived_cases derived k with ⟨d, h, hd, hs, len, e⟩ | e
    · rw [e, ctCode_entryOfPath len] at code
      exact ⟨h, code ▸ hd, hs⟩
    · rw [e] at valid
      cases valid
  · rintro ⟨h, hc, rfl⟩
    obtain ⟨len, e⟩ := read_derived_leaf derived hc hk
    rw [e]
    exact ⟨entryOfPath_valid c, ctCode_entryOfPath len⟩

/-- An entry without VALID is the empty one (R133). -/
theorem read_derived_invalid {k : Nat} (hv : (tab.read CtEntry.empty k).valid = false) :
    tab.read CtEntry.empty k = CtEntry.empty := by
  rcases read_derived_cases derived k with ⟨c, _, _, _, _, e⟩ | e
  · rw [e, entryOfPath_valid] at hv
    cases hv
  · exact e

/-- The code bits at and above LEN are 0 (R33, R134). -/
theorem read_derived_clean (k i : Nat) (hi : (tab.read CtEntry.empty k).len.val ≤ i) :
    (tab.read CtEntry.empty k).code.getLsbD i = false := by
  rcases read_derived_cases derived k with ⟨c, _, _, _, len, e⟩ | e
  · rw [e, entryOfPath_len len] at hi
    rw [e, entryOfPath_clean c i hi]
  · rw [e]
    simp [CtEntry.empty]

end

/-! ### When CTDRV succeeds -/

/-- What CTDRV asks of the tree (R134): every node a path leads to is written and is an internal node above
depth 256 or a leaf of a symbol of at most 256, and no symbol is reached on two paths. -/
def Derivable (s : State) : Prop :=
  (∀ c h, leadsTo s s.rootH c h → written s h = true ∧
    ((isInternal s h ∧ c.length < 256) ∨ (nodeSym (nodeWord s h)).toNat ≤ 256)) ∧
  (∀ c d g h, leadsTo s s.rootH c g → leadsTo s s.rootH d h →
    (nodeSym (nodeWord s g)).toNat ≤ 256 →
    nodeSym (nodeWord s g) = nodeSym (nodeWord s h) → c = d)

/-- `Derive` succeeds from the root exactly on such a tree: an entry has room for one path only. -/
theorem derive_ok_iff : (∃ tab, derive s 256 s.rootH [] [] = .ok tab) ↔ Derivable s := by
  constructor
  · rintro ⟨tab, derived⟩
    refine ⟨fun c h hc => ?_, fun c d g h hc hd hs e => ?_⟩
    · obtain ⟨hw, inner, leaf⟩ := (derive_ok (by simp) derived).1 c h hc
      by_cases hi : isInternal s h
      · exact ⟨hw, .inl ⟨hi, inner hi⟩⟩
      · exact ⟨hw, .inr (leaf hi).1⟩
    · obtain ⟨hclen, hce⟩ := read_derived_leaf derived hc hs
      obtain ⟨hdlen, hde⟩ := read_derived_leaf derived hd (e ▸ hs)
      exact entryOfPath_injective hclen hdlen (hce.symm.trans (e ▸ hde))
  · rintro ⟨nodes, apart⟩
    exact derive_succeeds rfl nodes apart fun _ _ _ _ => rfl

/-- Everything CTDRV can do in IDLE with no fault (R133). -/
theorem exec_ctdrv_cases (hf : s.fault = false) (hd : s.dstate = .idle) :
    (s.rootV = false ∧ exec .ctdrv s = .next (raise .emptyTree s)) ∨
    (s.rootV = true ∧ ¬ Derivable s ∧ exec .ctdrv s = .next (raise .badTree s)) ∨
    (s.rootV = true ∧ ∃ tab, derive s 256 s.rootH [] [] = .ok tab ∧
      exec .ctdrv s = .next (setCt tab s)) := by
  rw [exec_ctdrv hf hd]
  rcases Bool.eq_false_or_eq_true s.rootV with hv | hv
  · rcases derived : derive s 256 s.rootH [] [] with c | tab
    · have hn : ¬ Derivable s := fun h => by
        obtain ⟨tab, e⟩ := derive_ok_iff.mpr h
        rw [derived] at e
        cases e
      exact .inr (.inl ⟨hv, hn, by simp [hv, derive_error derived]⟩)
    · exact .inr (.inr ⟨hv, tab, rfl, by simp [hv]⟩)
  · exact .inl ⟨hv, by simp [hv]⟩

/-- CTDRV that ends with no fault left a derived table (R133). -/
theorem exec_ctdrv_derived (hf : s.fault = false) (hd : s.dstate = .idle)
    (h : exec .ctdrv s = .next t) (ht : t.fault = false) :
    ∃ tab, derive s 256 s.rootH [] [] = .ok tab ∧ t = setCt tab s := by
  rcases exec_ctdrv_cases hf hd with ⟨_, e⟩ | ⟨_, _, e⟩ | ⟨_, tab, derived, e⟩
  · obtain rfl := Host.Outcome.next.inj (e.symm.trans h)
    cases ht
  · obtain rfl := Host.Outcome.next.inj (e.symm.trans h)
    cases ht
  · exact ⟨tab, derived, (Host.Outcome.next.inj (e.symm.trans h)).symm⟩

/-- Settles O38: it holds, `Derive` succeeding on a well-formed image. -/
theorem ctdrvDerivesAWellFormedTree : Obligations.CtdrvDerivesAWellFormedTree := by
  intro s hf hd wf
  obtain ⟨tab, derived⟩ := derive_wellFormed wf
  refine ⟨tab, ?_, fun k hk => ⟨hasCode_derived derived hk, read_derived_invalid derived,
    read_derived_clean derived k⟩⟩
  rw [exec_ctdrv hf hd, if_pos wf.rootSet, derived]
  rfl

/-- Settles O39: it holds, CTDRV succeeding exactly when `Derive` does. -/
theorem ctdrvIsAllOrNothing : Obligations.CtdrvIsAllOrNothing := by
  intro s hf hd
  rcases exec_ctdrv_cases hf hd with ⟨hv, e⟩ | ⟨hv, hn, e⟩ | ⟨hv, tab, derived, e⟩
  · exact ⟨_, e, by simp [hv, raise]⟩
  · refine ⟨_, e, by simp [hv], fun _ _ => rfl, ⟨?_, fun ⟨_, h⟩ => absurd h hn⟩, ?_⟩ <;> simp
  · have ok : Derivable s := derive_ok_iff.mp ⟨tab, derived⟩
    refine ⟨_, e, by simp [hv], by simp [hf], ⟨fun _ => ⟨hv, ok⟩, fun _ => hf⟩,
      fun _ => ⟨rfl, fun k hk c => ?_⟩⟩
    rw [hasCode_derived derived hk]
    exact exists_congr fun h => and_congr_right fun hc => (and_iff_right (ok.1 c h hc).1).symm

/-- Settles O40: it holds, a code being the path to a leaf and no path going on from one. -/
theorem derivedTableIsPrefixFree : Obligations.DerivedTableIsPrefixFree := by
  intro s t hf hd h ht
  obtain ⟨tab, derived, rfl⟩ := exec_ctdrv_derived hf hd h ht
  refine ⟨fun a b ca cb ha hb hab hca hcb hp => ?_, fun a ha hv => ?_⟩
  · obtain ⟨g, hg, rfl⟩ := (hasCode_derived derived ha ca).mp hca
    obtain ⟨g', hg', rfl⟩ := (hasCode_derived derived hb cb).mp hcb
    obtain rfl := leadsTo_of_leaf_prefix hg (not_isInternal_of_symbol_le ha) hg' hp
    exact hab rfl
  · obtain ⟨g, hg, hs⟩ := (hasCode_derived derived ha _).mp ⟨hv, rfl⟩
    refine ⟨_, g, hg, hs, fun c' g' hg' hs' => ?_⟩
    have hc := (derive_ok_iff.mp ⟨tab, derived⟩).2 _ _ g' g hg' hg (hs'.trans_le ha)
      (BitVec.eq_of_toNat_eq (hs'.trans hs.symm))
    exact ⟨hc, leadsTo_node_unique (hc ▸ hg') hg⟩

/-! ### The frame of CTDRV and SETROOT -/

/-- All CTDRV and SETROOT can do: nothing, latch a fault, or write the one thing that is theirs
(R133, R150). -/
theorem exec_ctdrv_or_setroot_next {i : Instr} (hi : i = .ctdrv ∨ ∃ x, i = .setroot x)
    (h : exec i s = .next t) :
    t = s ∨ (∃ c, t = raise c s) ∨ (i = .ctdrv ∧ ∃ tab, t = setCt tab s) ∨
    ∃ x, i = .setroot x ∧ t = setRoot x s := by
  have effects := exec_next h
  rcases hi with rfl | ⟨x, rfl⟩
  · simp only [reduceCtorEq, false_and, and_false, exists_false, or_self, or_false, false_or,
      true_and] at effects
    rcases effects with e | ⟨_, c, _, e⟩ | ⟨_, _, _, tab, _, e⟩
    · exact .inl e
    · exact .inr (.inl ⟨c, e⟩)
    · exact .inr (.inr (.inl ⟨rfl, tab, e⟩))
  · simp only [reduceCtorEq, false_and, and_false, exists_false, or_self, or_false, false_or]
      at effects
    rcases effects with e | ⟨_, c, _, e⟩ | ⟨_, _, x', hx, _, e⟩
    · exact .inl e
    · exact .inr (.inl ⟨c, e⟩)
    · exact .inr (.inr (.inr ⟨x', hx, e⟩))

/-- Settles O43: it holds, each of the two commands writing the table or the root that is its own. -/
theorem ctdrvAndSetrootFrame : Obligations.CtdrvAndSetrootFrame := by
  intro i s t hi h
  rcases exec_ctdrv_or_setroot_next hi h with rfl | ⟨c, rfl⟩ | ⟨rfl, tab, rfl⟩ | ⟨x, rfl, rfl⟩ <;>
    simp [SamePorts]

end Sys2Proof.Machine
end

section
/-! The decoder's commands (42_traversal.md R150 to R155): what each arrival does, DSTEP and DRUN as
iterations of `Step`, and what the three commands leave in place. -/

namespace Sys2Proof.Machine

variable {s t : State} {g : Handle}

/-! ### Arriving at a child -/

/-- The pseudo-EOF leaf ends the decoding (R153). -/
theorem arrive_peof (hw : written s g = true) (hp : nodeSym (nodeWord s g) = Config.peof) :
    arrive g s = setDState .done (setCur g s) := by
  unfold arrive
  rw [if_pos hw, if_neg (by rw [hp]; decide), if_pos hp]

/-- A literal leaf emits its byte and sends the walk back to the root (R153). -/
theorem arrive_literal (hw : written s g = true) (hs : (nodeSym (nodeWord s g)).toNat ≤ 255) :
    arrive g s = setCur s.rootH (outPut (BitVec.ofNat 8 (nodeSym (nodeWord s g)).toNat) s) := by
  have hnas : nodeSym (nodeWord s g) ≠ Config.nas := fun e => by rw [e] at hs; simp at hs
  have hpeof : nodeSym (nodeWord s g) ≠ Config.peof := fun e => by rw [e] at hs; simp at hs
  unfold arrive
  rw [if_pos hw, if_neg hnas, if_neg hpeof, if_pos hs, BitVec.ofNat_toNat]

/-- A child that is not written, or of a reserved symbol, is BAD_TREE (R151, R153). -/
theorem arrive_badTree (h : written s g = false ∨ 258 ≤ (nodeSym (nodeWord s g)).toNat) :
    arrive g s = raise .badTree s := by
  rcases arrive_cases g s with ⟨hw, hn, _⟩ | ⟨hw, hp, _⟩ | ⟨hw, hl, _⟩ | ⟨_, e⟩
  · simp [hw, hn] at h
  · simp [hw, hp] at h
  · simp only [hw, reduceCtorEq, false_or] at h
    omega
  · exact e

/-! ### SETROOT and DSTART -/

/-- Settles O44: it holds, the range check coming before the admission. -/
theorem setrootDeclaresTheRoot : Obligations.SetrootDeclaresTheRoot := fun _ _ hf =>
  ⟨fun hd hr => exec_setroot hr hf hd, fun hr => exec_setroot_outOfRange (Nat.not_le.mpr hr) hf⟩

/-- DSTART at a root that is written (R152). -/
theorem exec_dstart_written (hf : s.fault = false) (hd : s.dstate = .idle) (hv : s.rootV = true)
    (hw : written s s.rootH = true) :
    exec .dstart s = .next (startAt (nodeSym (nodeWord s s.rootH)) s) := by
  rw [exec_dstart hf hd, if_pos hv, if_pos hw]

theorem startAt_peof (s : State) : startAt Config.peof s = setDState .done (setCur s.rootH s) := rfl

theorem startAt_nas (s : State) : startAt Config.nas s = setDState .run (setCur s.rootH s) := rfl

theorem startAt_literal_or_reserved {sym : Symbol} (hp : sym.toNat ≠ 256) (hn : sym.toNat ≠ 257) :
    startAt sym s = raise .badTree s := by
  rcases startAt_cases sym s with ⟨rfl, _⟩ | ⟨rfl, _⟩ | ⟨_, _, e⟩
  · exact absurd rfl hp
  · exact absurd rfl hn
  · exact e

/-- Settles O45: it holds, the root's entry being looked at only when a root is set and written. -/
theorem dstartGoesToTheRoot : Obligations.DstartGoesToTheRoot := by
  intro s hf hd
  refine ⟨fun hv => ?_, fun hv hr => ⟨fun hnv hp => ?_, fun hnv hn => ?_, fun hbad => ?_⟩⟩
  · rw [exec_dstart hf hd, if_neg (by simp [hv])]
    rfl
  · rw [exec_dstart_written hf hd hv ((written_iff s _).mpr ⟨hr, hnv⟩), hp]
    rfl
  · rw [exec_dstart_written hf hd hv ((written_iff s _).mpr ⟨hr, hnv⟩), hn]
    rfl
  · rcases Bool.eq_false_or_eq_true (written s s.rootH) with hw | hw
    · obtain ⟨hp, hn⟩ := hbad.resolve_left (by simp [((written_iff s _).mp hw).2])
      rw [exec_dstart_written hf hd hv hw, startAt_literal_or_reserved hp hn]
      rfl
    · rw [exec_dstart hf hd, if_pos hv, if_neg (by simp [hw])]
      rfl

/-! ### DSTEP -/

/-- Settles O46: it holds, `Step` taking the bit RBIT reports and arriving at the child it selects. -/
theorem dstepWalksOneEdge : Obligations.DstepWalksOneEdge := by
  intro s r u n hf hd hc hrbit hn hu
  rw [exec_dstep_run hf hd]
  rcases hr : readBit s with _ | ⟨b, s'⟩
  · obtain rfl := Host.Outcome.next.inj ((exec_rbit_end hf hr).symm.trans hrbit)
    exact ⟨fun _ => by rw [stepTree_noBit (remainingBits_none.mp hr)]; rfl, by simp⟩
  · obtain rfl := Host.Outcome.next.inj ((exec_rbit_bit hf hr).symm.trans hrbit)
    obtain ⟨buf, pos, k, rfl⟩ := readBit_frame hr
    have step : stepTree s = arrive n u := by
      rw [hn, hu, stepTree, hr]
      exact if_pos ((inRange_iff _).mpr hc)
    have hword : nodeWord s n = nodeWord u n := by rw [hu]; rfl
    have hw : written u n = written s n := written_congr (by rw [hu]) n
    rw [step, hword]
    refine ⟨by simp, fun _ => ⟨fun hle hv => ?_, fun hbad => ?_⟩⟩
    · have hwu : written u n = true := hw.trans ((written_iff s n).mpr ⟨hle, hv⟩)
      refine ⟨fun h => ?_, fun h => ?_, fun h => ?_, fun h => ?_⟩
      · rw [arrive_inner hwu h]; rfl
      · rw [arrive_peof hwu h]; rfl
      · rw [arrive_literal hwu h, hu]; rfl
      · rw [arrive_badTree (.inr h)]; rfl
    · have hwu : written u n = false := by
        rw [hw, Bool.eq_false_iff]
        intro h
        obtain ⟨hle, hv⟩ := (written_iff s n).mp h
        rcases hbad with hgt | hnv
        · omega
        · simp [hv] at hnv
      rw [arrive_badTree (.inl hwu)]; rfl

/-- Settles O58: it holds, the child's symbol being that of an internal node, of the pseudo-EOF leaf or of
a literal. -/
theorem dstepCompletes : Obligations.DstepCompletes := by
  intro s b rest n hf hd hc hbits hn hr hv hs
  obtain ⟨buf, pos, k, step, hrest⟩ := stepTree_bit hbits hc
  rw [← hn] at step
  have hw : written { s with brBuf := buf, brPos := pos, srcPos := k } n = true :=
    (written_iff s n).mpr ⟨hr, hv⟩
  refine ⟨_, (exec_dstep_run hf hd).trans (congrArg _ step), ?_⟩
  rcases Nat.lt_trichotomy (nodeSym (nodeWord s n)).toNat 256 with h | h | h
  · have hp : nodeSym (nodeWord s n) ≠ 256#9 := fun e => by rw [e] at h; simp at h
    rw [arrive_literal hw (Nat.le_of_lt_succ h)]
    simp only [Nat.le_of_lt_succ h, hp, if_true, if_false, ← hd]
    exact ⟨hrest, rfl⟩
  · have hp : nodeSym (nodeWord s n) = 256#9 := BitVec.eq_of_toNat_eq h
    rw [arrive_peof hw hp]
    simp only [hp]
    exact ⟨hrest, rfl⟩
  · have hn : nodeSym (nodeWord s n) = 257#9 := BitVec.eq_of_toNat_eq (Nat.le_antisymm hs h)
    rw [arrive_inner hw hn]
    simp only [hn, ← hd]
    exact ⟨hrest, rfl⟩

/-! ### DSTEP and DRUN as iterations -/

/-- Unless it is refused, DSTEP is one iteration of DRUN's loop (R153, R155). -/
theorem exec_dstep_runTree (h : s.fault = false → s.dstate ≠ .idle) :
    exec .dstep s = .next (runTree 1 s) := by
  rcases Bool.eq_false_or_eq_true s.fault with hf | hf
  · rw [exec_faulted _ (by simp) hf, runTree_stop (by simp [hf])]
  · by_cases hd : s.dstate = .run
    · rw [exec_dstep_run hf hd, runTree_step hd hf, runTree]
    · rw [runTree_stop (by simp [hd])]
      simp only [exec, execDstep]
      exact (whenAdmitted_admitted hf ((inRunOrDone_iff _).mpr (h hf))).trans (if_neg hd)

/-- Unless it is refused, DRUN is its loop (R155). -/
theorem exec_drun_runTree (h : s.fault = false → s.dstate ≠ .idle) :
    exec .drun s = .next (runTree (bitsLeft s + 1) s) := by
  rcases Bool.eq_false_or_eq_true s.fault with hf | hf
  · rw [exec_faulted _ (by simp) hf, runTree_stop (by simp [hf])]
  · exact exec_drun_active hf (h hf)

/-- Settles O47: it holds, the loop not being entered outside RUN. -/
theorem dstepAndDrunAreNoOpsInDone : Obligations.DstepAndDrunAreNoOpsInDone := by
  intro s hd
  have stopped : ∀ fuel, runTree fuel s = s := fun fuel => runTree_stop (by simp [hd])
  rw [exec_dstep_runTree (by simp [hd]), exec_drun_runTree (by simp [hd]), stopped, stopped]
  exact ⟨rfl, rfl⟩

/-- What `Step` leaves in the fault latch and in DSTATE (R153, R154). -/
theorem stepTree_latch (s : State) :
    ((stepTree s).fault = s.fault ∧ (stepTree s).cause = s.cause ∧
      ((stepTree s).dstate = s.dstate ∨ (stepTree s).dstate = .done)) ∨
    ((stepTree s).dstate = s.dstate ∧ (stepTree s).fault = true ∧
      ((stepTree s).cause = .malformedStream ∨ (stepTree s).cause = .badTree)) := by
  rcases stepTree_cases s with ⟨_, e⟩ | ⟨b, u, hr, _, e⟩ | ⟨b, u, hr, _, e⟩ <;> rw [e]
  · exact .inr ⟨rfl, rfl, .inl rfl⟩
  · obtain ⟨_, _, _, rfl⟩ := readBit_frame hr
    rcases arrive_cases _ _ with ⟨_, _, e⟩ | ⟨_, _, e⟩ | ⟨_, _, e⟩ | ⟨_, e⟩ <;> rw [e]
    · exact .inl ⟨rfl, rfl, .inl rfl⟩
    · exact .inl ⟨rfl, rfl, .inr rfl⟩
    · exact .inl ⟨rfl, rfl, .inl rfl⟩
    · exact .inr ⟨rfl, rfl, .inr rfl⟩
  · obtain ⟨_, _, _, rfl⟩ := readBit_frame hr
    exact .inr ⟨rfl, rfl, .inr rfl⟩

/-- `Step` leaves DSTATE or moves it to DONE (R156). -/
theorem stepTree_dstate (s : State) :
    (stepTree s).dstate = s.dstate ∨ (stepTree s).dstate = .done := by
  rcases stepTree_latch s with ⟨_, _, h⟩ | ⟨h, _⟩
  · exact h
  · exact .inl h

/-- DRUN's loop does not lead back to IDLE (R156). -/
theorem runTree_notIdle (fuel : Nat) (h : s.dstate ≠ .idle) : (runTree fuel s).dstate ≠ .idle := by
  refine runTree_induction (P := fun u => u.dstate ≠ .idle) (fun u _ _ hu => ?_) h
  rcases stepTree_dstate u with e | e
  · rw [e]; exact hu
  · rw [e]; simp

/-- Iterations of DRUN's loop in two parts (R155). -/
theorem runTree_add (m n : Nat) (s : State) : runTree (m + n) s = runTree n (runTree m s) := by
  induction m generalizing s with
  | zero => rw [Nat.zero_add, runTree]
  | succ m ih =>
    by_cases h : s.dstate = .run ∧ s.fault = false
    · rw [Nat.succ_add, runTree_step h.1 h.2, runTree_step h.1 h.2, ih]
    · rw [runTree_stop h, runTree_stop h, runTree_stop h]

/-- So many DSTEPs, when the first is not refused, are so many iterations of DRUN's loop (R155). -/
theorem execAll_dstep (n : Nat) (h : s.fault = false → s.dstate ≠ .idle) :
    execAll (List.replicate n .dstep) s = .next (runTree n s) := by
  induction n generalizing s with
  | zero => rw [runTree]; rfl
  | succ n ih =>
    have h' : (runTree 1 s).fault = false → (runTree 1 s).dstate ≠ .idle := fun hf => by
      rcases Bool.eq_false_or_eq_true s.fault with hs | hs
      · rw [runTree_stop (by simp [hs]), hs] at hf; cases hf
      · exact runTree_notIdle 1 (h hs)
    rw [List.replicate_succ, execAll, exec_dstep_runTree h, Nat.add_comm, runTree_add]
    exact ih h'

/-- Settles O48: it holds, both being the loop, except in IDLE, where DRUN and the first DSTEP are refused
alike. -/
theorem drunIsASequenceOfDsteps : Obligations.DrunIsASequenceOfDsteps := by
  intro s
  by_cases h : s.fault = false ∧ s.dstate = .idle
  · obtain ⟨hf, hd⟩ := h
    refine ⟨_, exec_idle hf hd (.inr rfl), ?_, by simp⟩
    rw [List.replicate_succ, execAll, exec_idle hf hd (.inl rfl)]
    exact (execAll_dstep _ (by simp)).trans (congrArg _ (runTree_stop (by simp)))
  · have h := not_and.mp h
    exact ⟨_, exec_drun_runTree h, execAll_dstep _ h, runTree_ends (Nat.lt_succ_self _)⟩

/-! ### DSTATE -/

theorem mem_dstateAfter_self {i : Instr} (hi : i ≠ .release) (d : DState) : d ∈ dstateAfter i d := by
  unfold dstateAfter
  split <;> simp at hi ⊢

/-- Settles O25: it holds, only RELEASE, DSTART and the loop moving DSTATE. -/
theorem dStateTransitions : Obligations.DStateTransitions := by
  intro i s t hf h
  by_cases hi : i = .release
  · subst hi
    obtain rfl := Host.Outcome.next.inj (exec_release.symm.trans h)
    exact List.mem_singleton.mpr rfl
  have moved : ∀ {u : State}, u.dstate ≠ .idle → u.dstate ∈ [DState.run, .done] := fun {u} hu => by
    cases hd : u.dstate <;> simp_all
  rcases exec_dstate h with e | ⟨hr, _⟩ | ⟨rfl, hd⟩ | ⟨rfl | rfl, hd⟩
  · rw [e]
    exact mem_dstateAfter_self hi _
  · exact absurd hr hi
  · rw [hd]
    cases t.dstate <;> simp [dstateAfter]
  · rw [exec_dstep_runTree (by simp [hd])] at h
    obtain rfl := Host.Outcome.next.inj h
    rw [hd]
    exact moved (runTree_notIdle _ (by simp [hd]))
  · rw [exec_drun_runTree (by simp [hd])] at h
    obtain rfl := Host.Outcome.next.inj h
    rw [hd]
    exact moved (runTree_notIdle _ (by simp [hd]))

/-- The decoder started with no fault latched: still with none, or stopped in RUN by its own (R154, R155). -/
def DecodingState (s : State) : Prop :=
  (s.fault = false ∧ s.cause = .none ∧ (s.dstate = .run ∨ s.dstate = .done)) ∨
  (s.dstate = .run ∧ s.fault = true ∧ (s.cause = .malformedStream ∨ s.cause = .badTree))

theorem decodingState_stepTree (hd : s.dstate = .run) (hf : s.fault = false) (h : DecodingState s) :
    DecodingState (stepTree s) := by
  have hc : s.cause = .none := by
    rcases h with ⟨_, hc, _⟩ | ⟨_, hf', _⟩
    · exact hc
    · rw [hf] at hf'; cases hf'
  have latch := stepTree_latch s
  rw [hd, hf, hc] at latch
  exact latch

/-- Settles O49: it holds, the loop keeping the decoder in such a state and not ending in RUN without a
fault. -/
theorem drunEndsDoneOrFaulted : Obligations.DrunEndsDoneOrFaulted := by
  intro s hinv hf hd
  refine ⟨_, exec_drun_active hf (by simp [hd]), ?_⟩
  have ends := runTree_ends (Nat.lt_succ_self (bitsLeft s))
  have start : DecodingState s := .inl ⟨hf, hinv.causeLatched.mp hf, .inl hd⟩
  have stop : DecodingState (runTree (bitsLeft s + 1) s) :=
    runTree_induction (fun u => decodingState_stepTree) start
  rcases stop with ⟨hf', hc, hd'⟩ | faulted
  · exact .inl ⟨hd'.resolve_left fun hr => ends ⟨hr, hf'⟩, hf', hc⟩
  · exact .inr faulted

/-! ### Frames -/

/-- All the decoder's commands can do: DSTART moves CUR and DSTATE or latches a fault; DSTEP and DRUN
read bits and emit bytes, too (R152, R153, R155). -/
theorem exec_decoder_next {i : Instr} (hi : i = .dstart ∨ i = .dstep ∨ i = .drun)
    (h : exec i s = .next t) :
    (∃ c d f k, t = { s with cur := c, dstate := d, fault := f, cause := k }) ∨
    (i ≠ .dstart ∧ ∃ buf pos n c d o f k, t = { s with
      brBuf := buf, brPos := pos, srcPos := n, cur := c, dstate := d, out := s.out ++ o,
      fault := f, cause := k }) := by
  have effects := exec_next h
  rcases hi with rfl | rfl | rfl <;>
    simp only [reduceCtorEq, false_and, and_false, exists_false, or_self, or_false, false_or,
      true_and] at effects
  · rcases effects with rfl | ⟨_, c, _, rfl⟩ | ⟨_, _, _, _, ⟨_, rfl⟩ | ⟨_, rfl⟩⟩
    · exact .inl ⟨t.cur, t.dstate, t.fault, t.cause, rfl⟩
    · exact .inl ⟨s.cur, s.dstate, true, c, rfl⟩
    · exact .inl ⟨s.rootH, .done, s.fault, s.cause, rfl⟩
    · exact .inl ⟨s.rootH, .run, s.fault, s.cause, rfl⟩
  · rcases effects with rfl | ⟨_, c, _, rfl⟩ | ⟨_, _, rfl⟩
    · exact .inl ⟨t.cur, t.dstate, t.fault, t.cause, rfl⟩
    · exact .inl ⟨s.cur, s.dstate, true, c, rfl⟩
    · exact .inr ⟨by simp, stepTree_frame s⟩
  · rcases effects with rfl | ⟨_, c, _, rfl⟩ | ⟨_, _, rfl⟩
    · exact .inl ⟨t.cur, t.dstate, t.fault, t.cause, rfl⟩
    · exact .inl ⟨s.cur, s.dstate, true, c, rfl⟩
    · exact .inr ⟨by simp, runTree_frame _ s⟩

/-- Settles O52: it holds, these commands changing the decoder, the latch, the reader, SRC_POS and OUT
only, and DSTART the first two only. -/
theorem decoderCommandsFrame : Obligations.DecoderCommandsFrame := by
  intro i s t hi h
  rcases exec_decoder_next hi h with ⟨c, d, f, k, rfl⟩ | ⟨hne, buf, pos, n, c, d, o, f, k, rfl⟩
  · simp [SameTables]
  · simp [SameTables, hne]

end Sys2Proof.Machine
end

section
/-! DRUN on a message (42_traversal.md R153, R155, R157): the codes of the bytes one after another from the
root, the pseudo-EOF code at the end, and a source that ends before it. -/

namespace Sys2Proof.Machine

variable {s t u : State} {g : Handle} {msg : List Byte} {codes : List (List Bool)}
  {last rest : List Bool}

/-- Each code is the path from the root to a leaf of its byte (R136). -/
def MessageCodes (s : State) (msg : List Byte) (codes : List (List Bool)) : Prop :=
  List.Forall₂ (fun b c => ∃ h, leadsTo s s.rootH c h ∧ (nodeSym (nodeWord s h)).toNat = b.toNat)
    msg codes

/-- The decoder running at an internal root from which every path leads to a written node. -/
structure RunsFromRoot (s : State) : Prop where
  running : s.dstate = .run
  noFault : s.fault = false
  atRoot : s.cur = s.rootH
  inner : isInternal s s.rootH
  nodes : ∀ c h, leadsTo s s.rootH c h → written s h = true

/-- The state with the reader moved on and bytes emitted. -/
def movedOn (buf : BitVec 8) (pos : Fin 9) (n : Nat) (bytes : List Byte) (s : State) : State :=
  { s with brBuf := buf, brPos := pos, srcPos := n, out := s.out ++ bytes }

/-! ### What depends on the image only -/

theorem nodeWord_of_sameImage (h : SameImage s u) (g : Handle) : nodeWord u g = nodeWord s g := by
  obtain ⟨hnode, _⟩ := h
  rw [nodeWord, hnode, nodeWord]

theorem leadsTo_of_sameImage (h : SameImage s u) {c : List Bool} :
    leadsTo u u.rootH c g ↔ leadsTo s s.rootH c g := by
  obtain ⟨hnode, _, hroot, _⟩ := h
  rw [hroot]
  exact leadsTo_congr hnode

theorem messageCodes_of_sameImage (h : SameImage s u) (hm : MessageCodes s msg codes) :
    MessageCodes u msg codes :=
  List.Forall₂.imp (fun b c ⟨g, hg, hb⟩ =>
    ⟨g, (leadsTo_of_sameImage h).mpr hg, by rw [nodeWord_of_sameImage h, hb]⟩) hm

theorem sameImage_movedOn {buf : BitVec 8} {pos : Fin 9} {n : Nat} {bytes : List Byte} :
    SameImage s (movedOn buf pos n bytes s) := ⟨rfl, rfl, rfl, rfl⟩

theorem runsFromRoot_movedOn {buf : BitVec 8} {pos : Fin 9} {n : Nat} {bytes : List Byte}
    (h : RunsFromRoot s) : RunsFromRoot (movedOn buf pos n bytes s) :=
  { h with nodes := fun c g hg => h.nodes c g ((leadsTo_of_sameImage sameImage_movedOn).mp hg) }

/-! ### The codes of a message -/

/-- A leaf below an internal root is not at the root, so its code has a bit. -/
theorem code_ne_nil {c : List Bool} (hi : isInternal s s.rootH) (hc : leadsTo s s.rootH c g)
    (hg : (nodeSym (nodeWord s g)).toNat ≤ 256) : c ≠ [] := by
  rintro rfl
  obtain rfl : g = s.rootH := hc
  exact not_isInternal_of_symbol_le hg hi

/-- DRUN's loop on the code of one byte: the byte is emitted and the walk is back at the root. -/
theorem runTree_code (hs : RunsFromRoot s) {b : Byte} {c : List Bool} (hc : leadsTo s s.rootH c g)
    (hb : (nodeSym (nodeWord s g)).toNat = b.toNat) (hr : remainingBits s = c ++ rest) :
    ∃ buf pos n,
      (∀ fuel, runTree (c.length + fuel) s = runTree fuel (movedOn buf pos n [b] s)) ∧
      remainingBits (movedOn buf pos n [b] s) = rest := by
  have hlt := b.isLt
  have hroot := hs.atRoot
  obtain ⟨cur, buf, pos, n, loop, hrest⟩ := runTree_path (code_ne_nil hs.inner hc (by omega))
    hs.running hs.noFault hr (hroot ▸ hc) (hroot ▸ hs.nodes)
  have arrived : arrive g { s with cur := cur, brBuf := buf, brPos := pos, srcPos := n } =
      movedOn buf pos n [b] s := by
    have hbyte : BitVec.ofNat 8 (nodeSym (nodeWord s g)).toNat = b := by
      rw [hb, BitVec.ofNat_toNat, BitVec.setWidth_eq]
    have hw : written { s with cur := cur, brBuf := buf, brPos := pos, srcPos := n } g = true :=
      hs.nodes c g hc
    have hl : (nodeSym (nodeWord { s with cur := cur, brBuf := buf, brPos := pos, srcPos := n } g)).toNat
        ≤ 255 := hb.trans_le (Nat.le_of_lt_succ hlt)
    rw [arrive_literal hw hl, movedOn, hroot, ← hbyte]
    rfl
  exact ⟨buf, pos, n, fun fuel => by rw [loop, arrived], hrest⟩

/-- DRUN's loop on the codes of a message. -/
theorem runTree_message (hs : RunsFromRoot s) (hm : MessageCodes s msg codes)
    (hr : remainingBits s = codes.flatten ++ rest) :
    ∃ buf pos n,
      (∀ fuel, runTree (codes.flatten.length + fuel) s = runTree fuel (movedOn buf pos n msg s)) ∧
      remainingBits (movedOn buf pos n msg s) = rest := by
  induction codes generalizing s msg with
  | nil =>
    obtain rfl : msg = [] := List.forall₂_nil_right_iff.mp hm
    refine ⟨s.brBuf, s.brPos, s.srcPos, fun fuel => ?_, hr⟩
    simp [movedOn]
  | cons c codes ih =>
    obtain ⟨b, msg, ⟨g, hc, hb⟩, hms, rfl⟩ := List.forall₂_cons_right_iff.mp hm
    rw [List.flatten_cons, List.append_assoc] at hr
    obtain ⟨buf, pos, n, loop, hrest⟩ := runTree_code hs hc hb hr
    obtain ⟨buf', pos', n', loop', hrest'⟩ := ih (s := movedOn buf pos n [b] s)
      (runsFromRoot_movedOn hs) (messageCodes_of_sameImage sameImage_movedOn hms) hrest
    refine ⟨buf', pos', n', fun fuel => ?_, hrest'⟩
    rw [List.flatten_cons, List.length_append, Nat.add_assoc, loop, loop']
    simp [movedOn]

/-- DRUN on a message: emitted, and the decoder in DONE at the pseudo-EOF leaf (R155). -/
theorem exec_drun_message (hs : RunsFromRoot s) (hm : MessageCodes s msg codes)
    (hl : leadsTo s s.rootH last g) (hg : nodeSym (nodeWord s g) = Config.peof)
    (hr : remainingBits s = codes.flatten ++ last ++ rest) :
    ∃ buf pos n, exec .drun s = .next (setDState .done (setCur g (movedOn buf pos n msg s))) ∧
      remainingBits (movedOn buf pos n msg s) = rest := by
  have hnil := code_ne_nil hs.inner hl (by simp [hg])
  rw [List.append_assoc] at hr
  obtain ⟨buf, pos, n, loop, hr'⟩ := runTree_message hs hm hr
  have hs' : RunsFromRoot (movedOn buf pos n msg s) := runsFromRoot_movedOn hs
  have hl' := (leadsTo_of_sameImage (u := movedOn buf pos n msg s) sameImage_movedOn).mpr hl
  obtain ⟨cur, buf', pos', n', loop', hr''⟩ := runTree_path hnil hs'.running hs'.noFault hr'
    (hs'.atRoot ▸ hl') (hs'.atRoot ▸ hs'.nodes)
  refine ⟨buf', pos', n', ?_, hr''⟩
  have hw : written { movedOn buf pos n msg s with
      cur := cur, brBuf := buf', brPos := pos', srcPos := n' } g = true := hs.nodes last g hl
  have fuel : bitsLeft s + 1 = codes.flatten.length + (last.length + (rest.length + 1)) := by
    rw [bitsLeft_eq, hr, List.length_append, List.length_append]
    omega
  rw [exec_drun_active hs.noFault (by simp [hs.running]), fuel, loop, loop', arrive_peof hw hg,
    runTree_stop (by simp)]
  rfl

theorem runsFromRoot_of_wellFormed (wf : WellFormedImage s) (hd : s.dstate = .run)
    (hf : s.fault = false) (hc : s.cur = s.rootH) (hi : isInternal s s.rootH) : RunsFromRoot s :=
  ⟨hd, hf, hc, hi, fun _ _ h => wf.inStore _ (reachable_of_leadsTo .root h)⟩

/-- Settles O50: it holds, by induction on the message. -/
theorem drunDecodesTheMessage : Obligations.DrunDecodesTheMessage := by
  intro s msg codes last tail g hf hd wf hc hi hm hl hg hr
  obtain ⟨buf, pos, n, e, hrest⟩ :=
    exec_drun_message (runsFromRoot_of_wellFormed wf hd hf hc hi) hm hl hg hr
  exact ⟨_, e, hrest, rfl⟩

/-! ### A source that ends early -/

/-- What is left of a code after some of its bits is walked from an internal node. -/
theorem leadsTo_inner_of_prefix {h : Handle} {p r : List Bool} (hl : leadsTo s h (p ++ r) g)
    (hr : r ≠ []) : ∃ m, leadsTo s h p m ∧ isInternal s m := by
  obtain ⟨m, hp, hm⟩ := (leadsTo_append p r).mp hl
  cases r with
  | nil => exact absurd rfl hr
  | cons b bs => exact ⟨m, hp, hm.1⟩

/-- Of two lists that begin one list, the second goes on from the first or stops inside it. -/
theorem append_eq_append_cases {α : Type} {a b p r : List α} (h : a ++ b = p ++ r) :
    (∃ p', p = a ++ p' ∧ b = p' ++ r) ∨ ∃ d, d ≠ [] ∧ a = p ++ d := by
  rcases List.append_eq_append_iff.mp h with h | ⟨d, ha, hr⟩
  · exact .inl h
  · by_cases hd : d = []
    · subst hd
      exact .inl ⟨[], by simp [ha], hr.symm⟩
    · exact .inr ⟨d, hd, ha⟩

/-- A proper part of the codes of a message and PEOF is the codes of the first bytes, and then a walk that
ends inside the tree. -/
theorem messageCodes_truncated {p r : List Bool} (hm : MessageCodes s msg codes)
    (hl : leadsTo s s.rootH last g) (hp : codes.flatten ++ last = p ++ r) (hr : r ≠ []) :
    ∃ q cs p' m, q <+: msg ∧ MessageCodes s q cs ∧ p = cs.flatten ++ p' ∧ leadsTo s s.rootH p' m ∧
      isInternal s m := by
  induction codes generalizing p msg with
  | nil =>
    obtain ⟨m, hpm, hi⟩ := leadsTo_inner_of_prefix (hp ▸ hl : leadsTo s s.rootH (p ++ r) g) hr
    exact ⟨[], [], p, m, List.nil_prefix, .nil, rfl, hpm, hi⟩
  | cons c codes ih =>
    obtain ⟨b, msg, ⟨h, hc, hb⟩, hms, rfl⟩ := List.forall₂_cons_right_iff.mp hm
    rw [List.flatten_cons, List.append_assoc] at hp
    rcases append_eq_append_cases hp with ⟨p', rfl, hp'⟩ | ⟨d, hd, rfl⟩
    · obtain ⟨q, cs, p'', m, hq, hcs, rfl, hpm, hi⟩ := ih hms hp'
      exact ⟨b :: q, c :: cs, p'', m, (List.prefix_cons_inj b).mpr hq, .cons ⟨h, hc, hb⟩ hcs,
        (List.append_assoc ..).symm, hpm, hi⟩
    · obtain ⟨m, hpm, hi⟩ := leadsTo_inner_of_prefix hc hd
      exact ⟨[], [], p, m, List.nil_prefix, .nil, rfl, hpm, hi⟩

/-- DRUN on a source that ends before the pseudo-EOF leaf (R154, R158). -/
theorem exec_drun_truncated {p r : List Bool} (hs : RunsFromRoot s) (hm : MessageCodes s msg codes)
    (hl : leadsTo s s.rootH last g) (hp : codes.flatten ++ last = p ++ r) (hr : r ≠ [])
    (hbits : remainingBits s = p) :
    ∃ q, q <+: msg ∧ ∃ cur buf pos n,
      exec .drun s = .next (raise .malformedStream (setCur cur (movedOn buf pos n q s))) := by
  obtain ⟨q, cs, p', m, hq, hcs, rfl, hpm, hi⟩ := messageCodes_truncated hm hl hp hr
  obtain ⟨buf, pos, n, loop, hbits'⟩ := runTree_message hs hcs hbits
  have hs' : RunsFromRoot (movedOn buf pos n q s) := runsFromRoot_movedOn hs
  have hpm' := (leadsTo_of_sameImage (u := movedOn buf pos n q s) sameImage_movedOn).mpr hpm
  obtain ⟨buf', pos', n', stops⟩ := runTree_short hs'.running hs'.noFault hbits'
    (hs'.atRoot ▸ hpm') hi (hs'.atRoot ▸ hs'.nodes)
  refine ⟨q, hq, m, buf', pos', n', ?_⟩
  rw [exec_drun_active hs.noFault (by simp [hs.running]), bitsLeft_eq, hbits, List.length_append,
    Nat.add_assoc, loop]
  exact congrArg _ (stops 0)

end Sys2Proof.Machine
end

section
/-! Encoding and decoding together (42_traversal.md R158): the bytes that ENC of a message, ENC of PEOF and
WFLUSH push with the derived table, and what DSTART and DRUN make of them and of a first part of them. -/

namespace Sys2Proof.Machine

variable {s t u : State} {g : Handle} {msg : List Byte}

/-- A command sequence goes on from what its first command answers. -/
theorem execAll_cons {i : Instr} (h : exec i s = .next t) (is : List Instr) :
    execAll (i :: is) s = execAll is t := by
  rw [execAll, h]

/-! ### The bytes of an encoding -/

/-- WFLUSH fills the last byte up with less than a byte, whatever the accumulator held (R114). -/
theorem flushWriter_padded (s : State) :
    ∃ pad : List Bool, pad.length < 8 ∧ streamBits (flushWriter s).snk = writtenBits s ++ pad := by
  by_cases h0 : s.bwCnt = 0#3
  · exact ⟨[], by decide, by simp [flushWriter_empty h0, writtenBits, h0]⟩
  · have hpos : s.bwCnt.toNat ≠ 0 := fun e => h0 (BitVec.eq_of_toNat_eq e)
    refine ⟨(byteBits s.bwAcc).drop s.bwCnt.toNat, ?_, ?_⟩
    · rw [List.length_drop, byteBits_length]
      omega
    · rw [flushWriter_pending h0, setWriter_snk, snkPut_snk, streamBits_append, writtenBits,
        List.append_assoc, List.take_append_drop]
      simp [streamBits]

/-- The bytes pushed from an empty writer are the bits put in and less than a byte of padding (R115). -/
theorem flushWriter_putBits_padded (bits : List Bool) (hcnt : s.bwCnt = 0#3) :
    ∃ bytes pad, (flushWriter (putBits bits s)).snk = s.snk ++ bytes ∧ pad.length < 8 ∧
      streamBits bytes = bits ++ pad := by
  obtain ⟨pad, hpad, hbits⟩ := flushWriter_padded (putBits bits s)
  obtain ⟨bytes, hsnk⟩ := (keepsTree_putBits bits s).outputs.1.trans (keepsTree_flushWriter _).outputs.1
  refine ⟨bytes, pad, hsnk.symm, hpad, List.append_cancel_left (as := streamBits s.snk) ?_⟩
  rw [← streamBits_append, hsnk, hbits, writtenBits_putBits, writtenBits, hcnt]
  simp

/-- ENC of symbols with codes puts the bits of their codes in (R132). -/
theorem execAll_enc {ys : List Symbol} {codes : List (List Bool)} (hf : s.fault = false)
    (h : List.Forall₂ (fun y c => y.toNat ≤ 256 ∧ hasCode s y.toNat c) ys codes) :
    execAll (ys.map .enc) s = .next (putBits codes.flatten s) := by
  induction ys generalizing s codes with
  | nil =>
    obtain rfl := List.forall₂_nil_left_iff.mp h
    rfl
  | cons y ys ih =>
    obtain ⟨c, cs, ⟨hy, hv, hc⟩, hcs, rfl⟩ := List.forall₂_cons_left_iff.mp h
    obtain ⟨_, _, _, frame⟩ := putBits_frame c s
    have hf' : (putBits c s).fault = false := by rw [frame]; exact hf
    have hct : ∀ k, ctEntry (putBits c s) k = ctEntry s k := fun k => by rw [frame]; rfl
    rw [List.map_cons, execAll, exec_enc_entry hf hy hv, hc, List.flatten_cons, putBits_append]
    exact ih hf' (hcs.imp fun y d hd => by rw [hasCode, hct]; exact hd)

/-- Bytes that hold the codes of a message, the code of PEOF, and less than a byte of padding. -/
structure Encoded (s : State) (msg : List Byte) (bits pad : List Bool) (bytes : List Byte) : Prop where
  codes : ∃ cs last g, MessageCodes s msg cs ∧ leadsTo s s.rootH last g ∧
    nodeSym (nodeWord s g) = Config.peof ∧ bits = cs.flatten ++ last
  padding : pad.length < 8
  stream : streamBits bytes = bits ++ pad

/-- A message whose bytes all have leaves has codes. -/
theorem exists_messageCodes
    (h : ∀ b ∈ msg, ∃ g, Reachable s g ∧ (nodeSym (nodeWord s g)).toNat = b.toNat) :
    ∃ cs, MessageCodes s msg cs := by
  induction msg with
  | nil => exact ⟨[], .nil⟩
  | cons b bs ih =>
    obtain ⟨⟨g, hg, hb⟩, hbs⟩ := List.forall_mem_cons.mp h
    obtain ⟨cs, hcs⟩ := ih hbs
    obtain ⟨c, hc⟩ := leadsTo_of_reachable hg
    exact ⟨c :: cs, .cons ⟨g, hc, hb⟩ hcs⟩

/-- What the encoding commands push with the table derived from an image (R158, R220). -/
theorem execAll_encodeCommands {tab : Memory CtEntry} (derived : derive s 256 s.rootH [] [] = .ok tab)
    (wf : WellFormedImage s) (hf : s.fault = false) (hcnt : s.bwCnt = 0#3)
    (hm : ∀ b ∈ msg, ∃ h, Reachable s h ∧ (nodeSym (nodeWord s h)).toNat = b.toNat) :
    ∃ w bytes bits pad, execAll (encodeCommands msg) (setCt tab s) = .next w ∧ w.fault = false ∧
      w.snk = s.snk ++ bytes ∧ Encoded s msg bits pad bytes := by
  obtain ⟨cs, hcs⟩ := exists_messageCodes hm
  obtain ⟨g, hg, hpeof⟩ := wf.hasPeof
  obtain ⟨last, hlast⟩ := leadsTo_of_reachable hg
  have bytesCoded : List.Forall₂ (fun y c => y.toNat ≤ 256 ∧ hasCode (setCt tab s) y.toNat c)
      (msg.map (BitVec.setWidth 9)) cs := by
    refine List.forall₂_map_left_iff.mpr (hcs.imp fun b c ⟨h, hc, hb⟩ => ?_)
    have hle : b.toNat ≤ 256 := by have := b.isLt; omega
    rw [BitVec.toNat_setWidth_of_le (by decide)]
    exact ⟨hle, (hasCode_derived derived hle c).mpr ⟨h, hc, hb⟩⟩
  have peofCoded : Config.peof.toNat ≤ 256 ∧ hasCode (setCt tab s) Config.peof.toNat last :=
    ⟨by decide, (hasCode_derived derived (by decide) last).mpr
      ⟨g, hlast, congrArg BitVec.toNat hpeof⟩⟩
  have encoded := execAll_enc (s := setCt tab s) hf (List.rel_append bytesCoded (.cons peofCoded .nil))
  obtain ⟨_, _, _, frame⟩ := putBits_frame (cs ++ [last]).flatten (setCt tab s)
  have hf' : (putBits (cs ++ [last]).flatten (setCt tab s)).fault = false := by rw [frame]; exact hf
  obtain ⟨bytes, pad, hsnk, hpad, hbits⟩ :=
    flushWriter_putBits_padded (s := setCt tab s) (cs ++ [last]).flatten hcnt
  refine ⟨_, bytes, _, pad, ?_, ?_, hsnk,
    ⟨⟨cs, last, g, hcs, hlast, hpeof, List.flatten_concat⟩, hpad, hbits⟩⟩
  · have commands : encodeCommands msg =
        (msg.map (BitVec.setWidth 9) ++ [Config.peof]).map .enc ++ [.wflush] := by
      simp [encodeCommands]
    rw [commands, execAll_append _ _ _ encoded, execAll_cons (exec_wflush hf')]
    rfl
  · obtain ⟨_, _, _, frame'⟩ := flushWriter_frame (putBits (cs ++ [last]).flatten (setCt tab s))
    rw [frame']
    exact hf'

/-! ### Decoding them -/

theorem encoded_of_sameImage {bits pad : List Bool} {bytes : List Byte} (h : SameImage s u)
    (he : Encoded s msg bits pad bytes) : Encoded u msg bits pad bytes := by
  obtain ⟨cs, last, g, hcs, hlast, hpeof, hbits⟩ := he.codes
  exact { he with codes := ⟨cs, last, g, messageCodes_of_sameImage h hcs,
    (leadsTo_of_sameImage h).mpr hlast, (congrArg _ (nodeWord_of_sameImage h g)).trans hpeof, hbits⟩ }

/-- A root that is a leaf is the pseudo-EOF leaf, and only the empty message has codes, of no bit (R152). -/
theorem encoded_leaf_root {bits pad : List Bool} {bytes : List Byte} (he : Encoded s msg bits pad bytes)
    (hi : ¬ isInternal s s.rootH) :
    nodeSym (nodeWord s s.rootH) = Config.peof ∧ msg = [] ∧ bytes = [] := by
  have atRoot : ∀ {c : List Bool} {h : Handle}, leadsTo s s.rootH c h → c = [] ∧ h = s.rootH := by
    intro c h hc
    cases c with
    | nil => exact ⟨rfl, hc⟩
    | cons b bs => exact absurd hc.1 hi
  obtain ⟨cs, last, g, hcs, hlast, hpeof, hbits⟩ := he.codes
  obtain ⟨rfl, rfl⟩ := atRoot hlast
  have hmsg : msg = [] := by
    cases hcs with
    | nil => rfl
    | @cons b _ _ _ hb _ =>
      obtain ⟨h, hc, hs⟩ := hb
      obtain ⟨_, rfl⟩ := atRoot hc
      rw [hpeof] at hs
      exact absurd hs.symm (Nat.ne_of_lt b.isLt)
  subst hmsg
  obtain rfl : cs = [] := List.forall₂_nil_left_iff.mp hcs
  refine ⟨hpeof, rfl, List.eq_nil_of_length_eq_zero ?_⟩
  have hlen := congrArg List.length he.stream
  have hpad := he.padding
  simp only [hbits, List.flatten_nil, List.append_nil, List.nil_append, streamBits_length] at hlen
  omega

/-- With no bit buffered, the bits remaining are those of the rest of SRC (R112). -/
theorem remainingBits_unbuffered (h : s.brPos.val = 8) :
    remainingBits s = streamBits (s.src.drop s.srcPos) := by
  simp [remainingBits, h, byteBits]

/-- On a block holding a well-formed image, what a path reaches is written (R158). -/
theorem written_of_sameImage (h : SameImage s u) (wf : WellFormedImage s) {c : List Bool}
    (hc : leadsTo u u.rootH c g) : written u g = true := by
  have ⟨_, hv, _⟩ := h
  rw [written_congr hv]
  exact wf.inStore g (reachable_of_leadsTo .root ((leadsTo_of_sameImage h).mp hc))

/-- DSTART at an internal root starts the walk there (R152). -/
theorem exec_dstart_inner (h : SameImage s u) (wf : WellFormedImage s) (hf : u.fault = false)
    (hd : u.dstate = .idle) (hi : isInternal u u.rootH) :
    exec .dstart u = .next (setDState .run (setCur u.rootH u)) ∧
    RunsFromRoot (setDState .run (setCur u.rootH u)) := by
  have ⟨_, _, _, hv⟩ := h
  refine ⟨?_, rfl, hf, rfl, hi, fun c g hc => written_of_sameImage h wf hc⟩
  rw [exec_dstart_written hf hd (hv.trans wf.rootSet) (written_of_sameImage (c := []) h wf rfl), hi,
    startAt_nas]

/-- DSTART and DRUN on encoded bytes (R158). -/
theorem execAll_decode {bits pad : List Bool} {bytes : List Byte} (h : SameImage s u)
    (wf : WellFormedImage s) (he : Encoded s msg bits pad bytes) (hf : u.fault = false)
    (hd : u.dstate = .idle) (hr : remainingBits u = streamBits bytes) :
    ∃ v, execAll [.dstart, .drun] u = .next v ∧ v.fault = false ∧ v.dstate = .done ∧
      v.out = u.out ++ msg := by
  by_cases hi : isInternal u u.rootH
  · obtain ⟨start, hs⟩ := exec_dstart_inner h wf hf hd hi
    obtain ⟨cs, last, g, hcs, hlast, hpeof, hbits⟩ :=
      (encoded_of_sameImage (u := setDState .run (setCur u.rootH u)) h he).codes
    obtain ⟨buf, pos, n, e, _⟩ := exec_drun_message hs hcs hlast hpeof
      (hr.trans (he.stream.trans (congrArg (· ++ pad) hbits)))
    exact ⟨_, (execAll_cons start _).trans ((execAll_cons e _).trans rfl), hf, rfl, rfl⟩
  · obtain ⟨hpeof, rfl, rfl⟩ := encoded_leaf_root (encoded_of_sameImage h he) hi
    have ⟨_, _, _, hv⟩ := h
    have start := exec_dstart_written hf hd (hv.trans wf.rootSet)
      (written_of_sameImage (c := []) h wf rfl)
    rw [hpeof, startAt_peof] at start
    have stay := (dstepAndDrunAreNoOpsInDone (setDState .done (setCur u.rootH u)) rfl).2
    exact ⟨_, (execAll_cons start _).trans ((execAll_cons stay _).trans rfl), hf, rfl,
      (List.append_nil _).symm⟩

/-- Settles O54: it holds, the bytes holding the codes whatever the accumulator held before, and the walk
stopping before the padding. -/
theorem decodingInvertsEncoding : Obligations.DecodingInvertsEncoding := by
  intro s t msg hf hd wf hcnt h ht hm
  obtain ⟨tab, derived, rfl⟩ := exec_ctdrv_derived hf hd h ht
  obtain ⟨w, bytes, bits, pad, hw, hwf, hsnk, he⟩ := execAll_encodeCommands derived wf hf hcnt hm
  refine ⟨w, bytes, hw, hwf, hsnk, fun u image huf hud h8 hsrc => ?_⟩
  exact execAll_decode image wf he huf hud ((remainingBits_unbuffered h8).trans (congrArg _ hsrc))

/-! ### The bytes cut short -/

/-- The bytes cut short end inside the codes, because the padding is less than a byte. -/
theorem encoded_cut {bits pad : List Bool} {bytes cut : List Byte}
    (he : Encoded s msg bits pad bytes) (hcut : cut <+: bytes) (hne : cut ≠ bytes) :
    ∃ r, r ≠ [] ∧ bits = streamBits cut ++ r := by
  obtain ⟨more, rfl⟩ := hcut
  have hmore : more.length ≠ 0 := fun h0 => hne (by simp [List.eq_nil_of_length_eq_zero h0])
  have split := he.stream.symm
  rw [streamBits_append] at split
  rcases append_eq_append_cases split with ⟨p, _, hp⟩ | inside
  · have hlen := congrArg List.length hp
    have hpad := he.padding
    rw [List.length_append, streamBits_length] at hlen
    omega
  · exact inside

/-- Settles O55: it holds, DRUN reading the bits of the bytes left and then finding the source ended. -/
theorem truncatedStreamIsMalformed : Obligations.TruncatedStreamIsMalformed := by
  intro s t msg hf hd wf hcnt h ht hm
  obtain ⟨tab, derived, rfl⟩ := exec_ctdrv_derived hf hd h ht
  obtain ⟨w, bytes, bits, pad, hw, _, hsnk, he⟩ := execAll_encodeCommands derived wf hf hcnt hm
  refine ⟨w, bytes, hw, hsnk, fun u cut image huf hud h8 hsrc hcut hne => ?_⟩
  obtain ⟨r, hr, hcutBits⟩ := encoded_cut he hcut hne
  have hi : isInternal u u.rootH := by
    by_contra hi
    obtain ⟨_, _, rfl⟩ := encoded_leaf_root (encoded_of_sameImage image he) hi
    exact hne (List.prefix_nil.mp hcut)
  obtain ⟨start, hs⟩ := exec_dstart_inner image wf huf hud hi
  obtain ⟨cs, last, g, hcs, hlast, _, hbits⟩ :=
    (encoded_of_sameImage (u := setDState .run (setCur u.rootH u)) image he).codes
  obtain ⟨q, hq, cur, buf, pos, n, e⟩ := exec_drun_truncated hs hcs hlast
    (hbits.symm.trans hcutBits) hr ((remainingBits_unbuffered h8).trans (congrArg _ hsrc))
  exact ⟨_, (execAll_cons start _).trans ((execAll_cons e _).trans rfl), rfl, rfl, rfl, q, hq, rfl⟩

end Sys2Proof.Machine
end

section
/-! The bits the decoder does not read (42_traversal.md R157): on another reader and SRC with the same next
bits, DRUN's loop goes the same way. -/

namespace Sys2Proof.Machine

variable {s t u : State} {buf : BitVec 8} {pos : Fin 9} {src : List Byte} {n : Nat}

/-- `Step` once its bit is consumed: the edge of that bit walked from `CUR` (R153, R35). -/
def walkEdge (b : Bool) (s : State) : State :=
  if inRange s.cur then arrive (nodeChild (nodeWord s s.cur) b) s else raise .badTree s

/-- `Step` is the reader moved past one bit and the edge of that bit walked (R153). -/
theorem stepTree_walkEdge {b : Bool} (h : readBit s = some (b, t)) : stepTree s = walkEdge b t := by
  rw [stepTree, h]
  rfl

theorem arrive_withReader (g : Handle) (s : State) :
    arrive g (withReader buf pos src n s) = withReader buf pos src n (arrive g s) := by
  have hw : written (withReader buf pos src n s) g = written s g := rfl
  have hn : nodeWord (withReader buf pos src n s) g = nodeWord s g := rfl
  unfold arrive
  rw [hw, hn]
  simp only [apply_ite (withReader buf pos src n)]
  rfl

/-- Walking an edge does not look at the reader (R157). -/
theorem walkEdge_withReader (b : Bool) (s : State) :
    walkEdge b (withReader buf pos src n s) = withReader buf pos src n (walkEdge b s) := by
  unfold walkEdge
  rw [apply_ite (withReader buf pos src n), ← arrive_withReader]
  rfl

/-- `Step` with a bit left, as a walk beside a moved reader. -/
theorem stepTree_bit_withReader {b : Bool} {bs : List Bool} (h : remainingBits s = b :: bs) :
    ∃ buf pos n, stepTree s = withReader buf pos s.src n (walkEdge b s) ∧
      remainingBits (stepTree s) = bs := by
  rcases hr : readBit s with _ | ⟨b', u⟩
  · rw [remainingBits_none.mp hr] at h
    cases h
  · obtain ⟨rfl, hbs⟩ := List.cons.inj ((remainingBits_some hr).symm.trans h)
    obtain ⟨buf, pos, n, rfl⟩ := readBit_frame hr
    have e := (stepTree_walkEdge hr).trans (walkEdge_withReader (src := s.src) b' s)
    exact ⟨buf, pos, n, e, e ▸ hbs⟩

/-- With the same next bit, `Step` goes the same way on another reader (R157). -/
theorem stepTree_withReader {b : Bool} {bs bs' : List Bool} (h : remainingBits s = b :: bs)
    (h' : remainingBits (withReader buf pos src n s) = b :: bs') :
    ∃ buf' pos' n', stepTree (withReader buf pos src n s) = withReader buf' pos' src n' (stepTree s) ∧
      remainingBits (withReader buf' pos' src n' (stepTree s)) = bs' := by
  obtain ⟨_, _, _, e, _⟩ := stepTree_bit_withReader h
  obtain ⟨buf', pos', n', e', hbs'⟩ := stepTree_bit_withReader h'
  rw [walkEdge_withReader] at e'
  have same : stepTree (withReader buf pos src n s) = withReader buf' pos' src n' (stepTree s) := by
    rw [e', e]
    rfl
  exact ⟨buf', pos', n', same, same ▸ hbs'⟩

/-- DRUN's loop takes bits off the front of those remaining (R155). -/
theorem remainingBits_runTree (fuel : Nat) (s : State) :
    remainingBits (runTree fuel s) <:+ remainingBits s := by
  refine runTree_induction (P := fun u => remainingBits u <:+ remainingBits s) (fun u _ _ hu => ?_)
    List.suffix_rfl
  refine List.IsSuffix.trans ?_ hu
  rcases hb : remainingBits u with _ | ⟨b, bs⟩
  · rw [stepTree_noBit hb]
    exact hb ▸ List.suffix_rfl
  · obtain ⟨_, _, _, _, hbs⟩ := stepTree_bit_withReader hb
    rw [hbs]
    exact List.suffix_cons b bs

/-- With the source `src` and the bits `used` next, DRUN's loop takes `s'` to `t`, but for the reader, and
leaves the bits `tail`. -/
def StopsAlike (used tail : List Bool) (src : List Byte) (s' t : State) : Prop :=
  ∃ buf pos n, (∀ more, runTree (used.length + more) s' = withReader buf pos src n t) ∧
    remainingBits (withReader buf pos src n t) = tail

/-- Outside RUN the loop reads no bit, whatever the reader. -/
theorem stopsAlike_of_done {used tail : List Bool} (hd : s.dstate = .done)
    (hused : remainingBits s = used ++ remainingBits s)
    (htail : remainingBits (withReader buf pos src n s) = used ++ tail) :
    StopsAlike used tail src (withReader buf pos src n s) s := by
  obtain rfl : used = [] := List.self_eq_append_left.mp hused
  refine ⟨buf, pos, n, fun more => runTree_stop ?_, htail⟩
  rintro ⟨hrun, _⟩
  rw [show (withReader buf pos src n s).dstate = s.dstate from rfl, hd] at hrun
  cases hrun

/-- If DRUN's loop stops in DONE after some bits, it does so on every reader with those bits next, and
leaves the bits after them (R157). -/
theorem runTree_withReader {fuel : Nat} {used tail : List Bool}
    (hd : (runTree fuel s).dstate = .done)
    (hused : remainingBits s = used ++ remainingBits (runTree fuel s))
    (htail : remainingBits (withReader buf pos src n s) = used ++ tail) :
    StopsAlike used tail src (withReader buf pos src n s) (runTree fuel s) := by
  induction fuel generalizing s used buf pos n with
  | zero => exact stopsAlike_of_done hd hused htail
  | succ fuel ih =>
    by_cases hrun : s.dstate = .run ∧ s.fault = false
    · obtain ⟨hr, hf⟩ := hrun
      rw [runTree_step hr hf] at hd hused ⊢
      rcases hbits : remainingBits s with _ | ⟨b, bs⟩
      · rw [stepTree_noBit hbits, runTree_stop (by simp), raise_dstate, hr] at hd
        cases hd
      obtain ⟨_, _, _, _, hbs⟩ := stepTree_bit_withReader hbits
      rw [hbits] at hused
      cases used with
      | nil =>
        have hlen := (remainingBits_runTree fuel (stepTree s)).length_le
        rw [← List.nil_append (remainingBits (runTree fuel (stepTree s))), ← hused, hbs] at hlen
        simp at hlen
      | cons b' used =>
        obtain ⟨rfl, hused'⟩ := List.cons.inj hused
        obtain ⟨buf', pos', n', step, htail'⟩ := stepTree_withReader hbits htail
        obtain ⟨buf'', pos'', n'', loop, hrest⟩ := ih hd (hbs.trans hused') htail'
        refine ⟨buf'', pos'', n'', fun more => ?_, hrest⟩
        rw [List.length_cons, Nat.succ_add, runTree_step (s := withReader buf pos src n s) hr hf, step, loop]
    · rw [runTree_stop hrun] at hd hused ⊢
      exact stopsAlike_of_done hd hused htail

/-- Settles O53: it holds, the loop stopping alike on the other reader, and OUT, STATUS and CUR being no
part of the reader. -/
theorem bitsAfterTheEndCannotMatter : Obligations.BitsAfterTheEndCannotMatter := by
  intro s t s' used tail hf hd h ht hused hs' htail
  have other : s' = withReader s'.brBuf s'.brPos s'.src s'.srcPos s := hs'
  rw [exec_drun_active hf (by simp [hd])] at h
  obtain rfl := Host.Outcome.next.inj h
  rw [other] at htail
  obtain ⟨buf, pos, n, loop, hrest⟩ := runTree_withReader ht hused htail
  refine ⟨withReader buf pos s'.src n _, ?_, rfl, rfl, rfl, hrest⟩
  have hf' : s'.fault = false := by rw [hs']; exact hf
  have hd' : s'.dstate ≠ .idle := by rw [hs']; simp [hd]
  have fuel : bitsLeft s' + 1 = used.length + (tail.length + 1) := by
    rw [bitsLeft_eq, other, htail, List.length_append]
    omega
  rw [exec_drun_active hf' hd', fuel, ← loop, ← other]

end Sys2Proof.Machine
end

section
/-! The system commands (43_system.md R170, R171): NOP and RELEASE have one word each, the other words of
their opcodes raise ILLEGAL_CMD, and a latched fault leaves RELEASE as the only write with an effect. -/

namespace Sys2Proof.Machine

open Laws.CommandWord (opcode)

variable {s : State} {i : Instr} {cw : Word}

theorem decode_eq_ok_iff_eq_encode (hwf : i.wf = true) : decode cw = .ok i ↔ cw = encode i := by
  rw [decode_eq_ok_iff, eq_comm (a := cw)]
  exact and_iff_right hwf

theorem opcode_eq_nop (h : opcode i = 0x0) : i = .nop := by
  cases i with
  | nop => rfl
  | _ => cases h

theorem opcode_eq_release (h : opcode i = 0x1) : i = .release := by
  cases i with
  | release => rfl
  | _ => cases h

/-- Where a command is the only one of its opcode, every other word of the opcode raises ILLEGAL_CMD (R94). -/
theorem raisesIllegalCmd_of_ne_encode (hf : s.fault = false)
    (honly : ∀ j, opcode j = (fieldOp cw).toNat → j = i) (hne : cw ≠ encode i) :
    RaisesIllegalCmd cw s :=
  raisesIllegalCmd_of_opcode hf fun j hj => honly j hj ▸ hne.symm

/-- While a fault is latched a write other than that of RELEASE to CMD is ignored (R71, R187). -/
theorem hostWrite_faulted {a : BusAddr} (hf : s.fault = true)
    (h : ¬(a = 0x0000#16 ∧ cw = 0x00001000#32)) : hostWrite a cw s = .next s := by
  unfold hostWrite
  rw [if_pos hf, if_neg h]

/-- Settles O26: it holds, NOP being the only command of its opcode and its word the only encoding. -/
theorem nopChangesNothing : Obligations.NopChangesNothing := by
  refine ⟨fun _ => decode_eq_ok_iff_eq_encode rfl, exec_nop, fun s cw hf hop hne => ?_⟩
  exact raisesIllegalCmd_of_ne_encode hf
    (fun _ hj => opcode_eq_nop (hj.trans (congrArg BitVec.toNat hop))) hne

/-- Settles O27: it holds, RELEASE being the clearing of the block, which its word alone asks for. -/
theorem releaseClearsTheBlock : Obligations.ReleaseClearsTheBlock := by
  refine ⟨fun _ => decode_eq_release_iff, fun s => ⟨hostWrite_release s, clearBlock s, ?_⟩,
    fun s cw hop hne => ⟨fun hf => ?_, fun hf => ?_⟩⟩
  · exact ⟨exec_release, atReset_clearBlock s, samePorts_clearBlock s, rfl, rfl⟩
  · exact raisesIllegalCmd_of_ne_encode hf
      (fun _ hj => opcode_eq_release (hj.trans (congrArg BitVec.toNat hop))) hne
  · exact hostWrite_faulted hf fun hc => hne hc.2

end Sys2Proof.Machine
end

section
/-! The fault latch (60_exceptions.md R187 to R191): reads do not depend on it but at STATUS, commands and
bus writes are ignored while it is set, and no step but RELEASE and reset clears it. -/

namespace Sys2Proof.Machine

variable {s t : State} {a : BusAddr}

/-- STATUS is the second register (R28). -/
theorem regRegion_eq_status {n : Nat} (h : regRegion n = .status) : n = 1 := by
  unfold regRegion at h
  split at h
  case h_2 => rfl
  all_goals cases h

/-- STATUS stands at one address (R62). -/
theorem region_eq_status (h : region a = .status) : a = 0x0001#16 := by
  rcases region_cases a with ⟨_, e⟩ | ⟨_, _, _, e⟩ | ⟨_, _, _, e⟩ | ⟨_, _, _, e⟩ |
    ⟨_, _, _, _, _, _, e⟩ | e
  case inl => exact BitVec.eq_of_toNat_eq (regRegion_eq_status (e.symm.trans h))
  all_goals cases h.symm.trans e

/-- What a read outside STATUS answers does not depend on the latch and its cause (R70, R187). -/
theorem hostRead_withLatch (ha : a ≠ 0x0001#16) (s : State) (f : Bool) (c : Cause) :
    hostRead { s with fault := f, cause := c } a = hostRead s a := by
  unfold hostRead
  cases hr : region a with
  | status => exact absurd (region_eq_status hr) ha
  | _ => rfl

/-- A step from a faulted state either clears the block or keeps the latch and its cause: the effects
that could raise need no fault latched (R187, R190, R191). -/
theorem step_faulted (hf : s.fault = true) (h : step s = .next t) :
    (clearsBlock s.hostOps = true ∧ t = clearBlock (afterIssue s)) ∨
    (clearsBlock s.hostOps = false ∧ t.fault = s.fault ∧ t.cause = s.cause) := by
  rcases step_effects h with cleared | ⟨hc, rfl | ⟨_, rfl⟩ | ⟨_, rfl⟩ | ⟨hf', _⟩⟩
  · exact .inl cleared
  · exact .inr ⟨hc, rfl, rfl⟩
  · exact .inr ⟨hc, rfl, rfl⟩
  · exact .inr ⟨hc, rfl, rfl⟩
  · exact (Bool.false_ne_true (hf'.symm.trans hf)).elim

/-- Settles O19: it holds, the latch being the first check of every command but RELEASE. -/
theorem commandsAreIgnoredWhileFaulted : Obligations.CommandsAreIgnoredWhileFaulted :=
  fun _ i hf hi => exec_faulted i hi hf

/-- Settles O20: it holds, the steps that clear the block being reset and RELEASE and every other step
keeping the latch. -/
theorem onlyReleaseOrResetClearsAFault : Obligations.OnlyReleaseOrResetClearsAFault := by
  intro s t hf h
  rcases step_faulted hf h with ⟨hc, rfl⟩ | ⟨hc, hfault, hcause⟩
  · simp [hc]
  · simp [hc, hfault, hcause, hf]

/-- Settles O18: it holds, the bus ignoring every write but RELEASE's and only STATUS reading the latch. -/
theorem faultedBlockIsInert : Obligations.FaultedBlockIsInert := by
  intro s hf
  obtain ⟨_, hlatch, _, hcause, _⟩ := statusWord_fields s
  exact ⟨fun _ _ h => hostWrite_faulted hf h, hostWrite_release s, hlatch.trans hf, hcause,
    fun _ ha => (hostRead_withLatch ha s _ _).symm⟩

end Sys2Proof.Machine
end

section
/-! The host reference procedures (70_reset_and_hazards.md R214 to R221): the frequency table counts its
input, the tree holds the present symbols, and a stored table decompresses as the table itself. -/

namespace Sys2Proof.Machine

/-! ### The frequency table (R214) -/

/-- The symbols BuildFrequencyTable counts: the bytes in order, then PEOF. -/
def countedSymbols (bytes : List Byte) : List Nat := bytes.map BitVec.toNat ++ [256]

theorem buildFrequencyTable_eq_foldr (bytes : List Byte) :
    buildFrequencyTable bytes = (countedSymbols bytes).reverse.foldr countSymbol [] := by
  simp [buildFrequencyTable, countedSymbols, List.foldl_map]

theorem foldr_countSymbol_read (ks : List Nat) (k : Nat) :
    (ks.foldr countSymbol []).read 0 k = ks.count k := by
  induction ks with
  | nil => rfl
  | cons j ks ih => simp only [List.foldr_cons, countSymbol_read, ih, List.count_cons]; grind

theorem buildFrequencyTable_read (bytes : List Byte) (k : Nat) :
    (buildFrequencyTable bytes).read 0 k = (countedSymbols bytes).count k := by
  rw [buildFrequencyTable_eq_foldr, foldr_countSymbol_read, List.count_reverse]

theorem count_countedSymbols_byte (bytes : List Byte) (b : Byte) :
    (countedSymbols bytes).count b.toNat = bytes.count b := by
  have hinj : Function.Injective (BitVec.toNat : Byte → Nat) := fun _ _ => BitVec.eq_of_toNat_eq
  have hb : b.toNat ≠ 256 := by omega
  simp [countedSymbols, List.count_map_of_injective _ _ hinj, hb.symm]

theorem count_countedSymbols_of_ge (bytes : List Byte) {k : Nat} (hk : 256 ≤ k) :
    (countedSymbols bytes).count k = [256].count k := by
  have : k ∉ bytes.map BitVec.toNat := fun h => by
    obtain ⟨b, _, rfl⟩ := List.mem_map.mp h
    omega
  rw [countedSymbols, List.count_append, List.count_eq_zero.mpr this, Nat.zero_add]

theorem totalCount_insert (k v : Nat) (f : FreqTable) :
    totalCount (Memory.insert k v f) = v + totalCount f := by
  induction f with
  | nil => rfl
  | cons c f ih =>
    unfold Memory.insert
    split
    · rfl
    · simp only [totalCount, List.map_cons, List.sum_cons] at ih ⊢
      omega

/-- Erasing a key of a map takes its count off the total. -/
theorem totalCount_erase (k : Nat) {f : FreqTable} (hf : f.Pairwise fun a b => a.1 < b.1) :
    f.read 0 k + totalCount (f.filter fun c => c.1 != k) = totalCount f := by
  induction f with
  | nil => rfl
  | cons c f ih =>
    obtain ⟨i, v⟩ := c
    obtain ⟨hi, hf⟩ := List.pairwise_cons.mp hf
    by_cases hk : i = k
    · subst hk
      have hrest : (f.filter fun c => c.1 != i) = f := List.filter_eq_self.mpr fun c hc => by
        simpa using (hi c hc).ne'
      simp [totalCount, hrest]
    · have := ih hf
      simp [totalCount, hk] at this ⊢
      omega

theorem totalCount_countSymbol (k : Nat) {f : FreqTable} (hf : f.wf) :
    totalCount (countSymbol k f) = totalCount f + 1 := by
  have := totalCount_erase k hf.1
  rw [countSymbol, Memory.write, if_neg (Nat.succ_ne_zero _), totalCount_insert]
  omega

theorem wf_and_totalCount_foldr_countSymbol {ks : List Nat} (hks : ∀ k ∈ ks, k ≤ 256) :
    FreqTable.wf (ks.foldr countSymbol []) ∧ totalCount (ks.foldr countSymbol []) = ks.length := by
  induction ks with
  | nil => exact ⟨Memory.wf_nil _ _, rfl⟩
  | cons k ks ih =>
    obtain ⟨hwf, htotal⟩ := ih fun j hj => hks j (List.mem_cons_of_mem _ hj)
    exact ⟨countSymbol_wf hwf (hks k List.mem_cons_self),
      (totalCount_countSymbol k hwf).trans (congrArg (· + 1) htotal)⟩

theorem totalCount_buildFrequencyTable (bytes : List Byte) :
    totalCount (buildFrequencyTable bytes) = bytes.length + 1 := by
  have hle : ∀ k ∈ (countedSymbols bytes).reverse, k ≤ 256 := fun k hk => by
    simp only [countedSymbols, List.mem_reverse, List.mem_append, List.mem_map,
      List.mem_singleton] at hk
    rcases hk with ⟨b, _, rfl⟩ | rfl <;> omega
  rw [buildFrequencyTable_eq_foldr, (wf_and_totalCount_foldr_countSymbol hle).2]
  simp [countedSymbols]

/-- Settles O56: it holds, the table being one count for each byte and one for PEOF, a symbol no byte
is; and each count adds 1 to the total. -/
theorem frequencyTableCountsTheInput : Obligations.FrequencyTableCountsTheInput := by
  intro bytes
  refine ⟨fun b => ?_, ?_, fun k hk => ?_, totalCount_buildFrequencyTable bytes⟩
  · rw [buildFrequencyTable_read, count_countedSymbols_byte]
  · rw [buildFrequencyTable_read, count_countedSymbols_of_ge _ le_rfl, List.count_singleton_self]
  · rw [buildFrequencyTable_read, count_countedSymbols_of_ge _ hk.le]
    simp [hk.ne]

/-! ### The queue and the tree (R215, R216) -/

theorem enqueue_perm (e : QEntry) (q : List QEntry) : (enqueue e q).Perm (e :: q) := by
  induction q with
  | nil => rfl
  | cons x q ih =>
    unfold enqueue
    split
    · rfl
    · exact (ih.cons x).trans (.swap e x q)

/-- An entry is sound when its weight is its node's and the weights of its tree add up (R215, R216). -/
def QEntry.sound (e : QEntry) : Prop := e.weight = e.node.weight ∧ e.node.weightsAdd

/-- The entry of step 2 of BuildTree for symbol `k`. -/
def leafEntry (f : FreqTable) (k seq : Nat) : QEntry :=
  ⟨f.read 0 k, seq, .leaf seq (f.read 0 k) (BitVec.ofNat 9 k)⟩

/-- The entry of step 3 of BuildTree that takes the place of two. -/
def mergedEntry (seq : Nat) (a b : QEntry) : QEntry :=
  ⟨a.weight + b.weight, seq, .inner seq (a.weight + b.weight) a.node b.node⟩

/-- All leaves of the trees in a queue. -/
def queueLeaves (q : List QEntry) : List (Symbol × Nat) := q.flatMap fun e => e.node.leaves

theorem sound_leafEntry (f : FreqTable) (k seq : Nat) : (leafEntry f k seq).sound := ⟨rfl, trivial⟩

theorem sound_mergedEntry {seq : Nat} {a b : QEntry} (ha : a.sound) (hb : b.sound) :
    (mergedEntry seq a b).sound :=
  ⟨rfl, congrArg₂ (· + ·) ha.1 hb.1, ha.2, hb.2⟩

theorem sound_enqueue {e : QEntry} {q : List QEntry} (he : e.sound) (hq : ∀ x ∈ q, x.sound) :
    ∀ x ∈ enqueue e q, x.sound := fun x hx => by
  rcases List.mem_cons.mp ((enqueue_perm e q).mem_iff.mp hx) with rfl | hx
  · exact he
  · exact hq x hx

theorem queueLeaves_enqueue (e : QEntry) (q : List QEntry) :
    (queueLeaves (enqueue e q)).Perm (queueLeaves (e :: q)) := (enqueue_perm e q).flatMap_right _

theorem queueLeaves_merged (seq : Nat) (a b : QEntry) (q : List QEntry) :
    queueLeaves (mergedEntry seq a b :: q) = queueLeaves (a :: b :: q) := by
  simp [queueLeaves, mergedEntry, Tree.leaves]

theorem mergeQueue_two (fuel seq : Nat) (a b : QEntry) (q : List QEntry) :
    mergeQueue (fuel + 1) seq (a :: b :: q) =
      mergeQueue fuel (seq + 1) (enqueue (mergedEntry seq a b) q) := rfl

/-- Each merge leaves one entry fewer, so the bound on the loop is never what ends it (R216). -/
theorem mergeQueue_eq_none_iff {fuel seq : Nat} {q : List QEntry} (hq : q.length ≤ fuel + 1) :
    mergeQueue fuel seq q = none ↔ q = [] := by
  induction fuel, seq, q using mergeQueue.induct with
  | case1 | case2 => simp [mergeQueue]
  | case3 => simp at hq
  | case4 fuel seq a b q ih =>
    have hperm := enqueue_perm (mergedEntry seq a b) q
    rw [mergeQueue_two]
    refine (ih (hperm.length_eq ▸ Nat.le_of_succ_le_succ hq)).trans
      (iff_of_false (fun h => ?_) (List.cons_ne_nil _ _))
    exact List.cons_ne_nil _ _ (List.nil_perm.mp (h ▸ hperm))

/-- Merging keeps the leaves and the weight invariant (R216). -/
theorem mergeQueue_sound {fuel seq : Nat} {q : List QEntry} {t : Tree}
    (h : mergeQueue fuel seq q = some t) (hq : ∀ e ∈ q, e.sound) :
    t.weightsAdd ∧ t.leaves.Perm (queueLeaves q) := by
  induction fuel, seq, q using mergeQueue.induct with
  | case1 => simp [mergeQueue] at h
  | case2 _ _ e =>
    obtain rfl : e.node = t := by simpa [mergeQueue] using h
    exact ⟨(hq e List.mem_cons_self).2, by simp [queueLeaves]⟩
  | case3 => simp [mergeQueue] at h
  | case4 _ seq a b q ih =>
    obtain ⟨ha, hb, hq⟩ : a.sound ∧ b.sound ∧ ∀ x ∈ q, x.sound := by simpa using hq
    obtain ⟨hw, hl⟩ := ih h (sound_enqueue (sound_mergedEntry ha hb) hq)
    exact ⟨hw, hl.trans (queueLeaves_merged seq a b q ▸ queueLeaves_enqueue _ _)⟩

/-- Steps 1 and 2 of BuildTree enqueue one entry for each of the symbols, the i-th with `seq + i`. -/
theorem enqueueLeaves_perm (f : FreqTable) (seq : Nat) (ks : List Nat) (q : List QEntry) :
    (enqueueLeaves f seq ks q).Perm ((ks.zipIdx seq).map (fun p => leafEntry f p.1 p.2) ++ q) := by
  induction ks generalizing seq q with
  | nil => rfl
  | cons k ks ih =>
    exact (ih (seq + 1) _).trans
      (((enqueue_perm (leafEntry f k seq) q).append_left _).trans List.perm_middle)

theorem queueLeaves_leafEntries (f : FreqTable) (seq : Nat) (ks : List Nat) :
    queueLeaves ((ks.zipIdx seq).map fun p => leafEntry f p.1 p.2) =
      ks.map fun k => (BitVec.ofNat 9 k, f.read 0 k) := by
  induction ks generalizing seq with
  | nil => rfl
  | cons k ks ih => exact congrArg (_ :: ·) (ih (seq + 1))

theorem presentSymbols_eq_nil_iff {f : FreqTable} :
    presentSymbols f = [] ↔ ∀ k, k ≤ 256 → f.read 0 k = 0 := by
  simp [List.eq_nil_iff_forall_not_mem, mem_presentSymbols]

theorem buildTree_eq_none_iff {f : FreqTable} : buildTree f = none ↔ presentSymbols f = [] := by
  have hlen : (enqueueLeaves f 0 (presentSymbols f) []).length = (presentSymbols f).length := by
    simpa using (enqueueLeaves_perm f 0 (presentSymbols f) []).length_eq
  rw [buildTree, mergeQueue_eq_none_iff (by omega), ← List.length_eq_zero_iff, hlen,
    List.length_eq_zero_iff]

theorem buildTree_sound {f : FreqTable} {t : Tree} (h : buildTree f = some t) :
    t.weightsAdd ∧
      t.leaves.Perm ((presentSymbols f).map fun k => (BitVec.ofNat 9 k, f.read 0 k)) := by
  have hperm := enqueueLeaves_perm f 0 (presentSymbols f) []
  rw [List.append_nil] at hperm
  obtain ⟨hw, hl⟩ := mergeQueue_sound h fun e he => by
    obtain ⟨p, _, rfl⟩ := List.mem_map.mp (hperm.mem_iff.mp he)
    exact sound_leafEntry f p.1 p.2
  exact ⟨hw, hl.trans (queueLeaves_leafEntries f 0 _ ▸ hperm.flatMap_right _)⟩

/-- Settles O57: it holds, the merges keeping the leaves and the weight invariant of the queue, and
ending with one tree wherever one symbol is present. -/
theorem buildTreeHoldsThePresentSymbols : Obligations.BuildTreeHoldsThePresentSymbols :=
  fun _ => ⟨buildTree_eq_none_iff.trans presentSymbols_eq_nil_iff, fun _ => buildTree_sound⟩

/-! ### A stored frequency table (R221) -/

section Stored

variable {fmt : TableFormat} {stored bitstream : List Byte} {f : FreqTable}

theorem stored_unparsable (h : fmt.parse stored = none) :
    opsDecompressStored fmt stored bitstream = .error .malformedStream ∧
    opsDecompressRegardless fmt stored bitstream = .error .malformedStream := by
  simp [opsDecompressStored, opsDecompressRegardless, h]

theorem opsDecompressRegardless_parsed (h : fmt.parse stored = some f) :
    opsDecompressRegardless fmt stored bitstream = .ok (opsDecompress f bitstream) := by
  simp [opsDecompressRegardless, h]

theorem stored_present (h : fmt.parse stored = some f) {k : Nat} (hk : k ∈ presentSymbols f) :
    opsDecompressStored fmt stored bitstream = .ok (opsDecompress f bitstream) ∧
    opsDecompressRegardless fmt stored bitstream = .ok (opsDecompress f bitstream) :=
  ⟨by simp [opsDecompressStored, h, List.ne_nil_of_mem hk], opsDecompressRegardless_parsed h⟩

theorem opsDecompressStored_empty (h : fmt.parse stored = some f) (hf : presentSymbols f = []) :
    opsDecompressStored fmt stored bitstream = .error .malformedStream := by
  simp [opsDecompressStored, h, hf]

end Stored

/-- A map with no symbol present lists nothing: its first cell would be one. -/
theorem FreqTable.eq_nil_of_wf {f : FreqTable} (hwf : f.wf) (hf : presentSymbols f = []) : f = [] := by
  cases f with
  | nil => rfl
  | cons c f =>
    obtain ⟨hlt, hne⟩ := hwf.2 c List.mem_cons_self
    have hread := presentSymbols_eq_nil_iff.mp hf c.1 (Nat.lt_succ_iff.mp hlt)
    exact absurd ((if_pos rfl).symm.trans hread) hne

/-- With no symbol there is no tree: nothing is loaded and no root set (R221, R183). -/
theorem opsDecompress_nil (bitstream : List Byte) :
    opsDecompress [] bitstream =
      [.openSrc bitstream, .write 0x0000#16 0x00008000#32, .write 0x0000#16 0x0000A000#32,
        .read 0x0001#16, .write 0x0000#16 0x00001000#32] := by
  have hload : opsLoadTable [] = [] := by
    rw [opsLoadTable, buildTree_eq_none_iff.mpr (presentSymbols_eq_nil_iff.mpr fun _ _ => rfl)]
  rw [opsDecompress, if_pos (by decide), hload]
  rfl

/-- Settles O59: it holds, the round trip giving the table back with PEOF present, and the only map with
no symbol present being the empty one. -/
theorem storedTableDecompressesAlike : Obligations.StoredTableDecompressesAlike := by
  intro fmt bitstream
  refine ⟨fun input => ⟨buildFrequencyTable_wf input, fun hstart => ?_⟩,
    fun _ => stored_unparsable, fun stored f hparse => ⟨?_, fun hf => ?_⟩⟩
  · exact stored_present (fmt.parse_serialise input hstart) (buildFrequencyTable_peof input)
  · rintro ⟨_, hk⟩
    exact stored_present hparse (mem_presentSymbols.mpr hk)
  · have hnone := presentSymbols_eq_nil_iff.mpr hf
    refine ⟨opsDecompressStored_empty hparse hnone, ?_⟩
    rw [opsDecompressRegardless_parsed hparse,
      FreqTable.eq_nil_of_wf (fmt.parse_wf _ _ hparse) hnone, opsDecompress_nil]

end Sys2Proof.Machine
end
